-- ==== Sys2Proof/Word.lean ====
section
/-! DEFINITION. The word types of the SPI block and the plain vocabulary that every other file
uses: who makes a transaction, which way, and which register (spec/00_scope.md R7, R9;
spec/10_state.md R21, R49, R54). -/

namespace Sys2Proof

/-- One byte of a serialised operation word, or one 8-bit FIFO unit. -/
abbrev Byte := BitVec 8

/-- A register value: `REG_WIDTH = 32` bits, bit 0 the least significant (R7, R9). -/
abbrev Word := BitVec 32

/-- An operation word: `op` in bits 7:0, `opd` in bits 39:8 (spec/30_encoding.md R100). -/
abbrev OpWord := BitVec 40

/-- Who makes a level-1 transaction (R54). The serial engine makes none (R250). -/
inductive Agent where
  | host
  | ctl
  deriving DecidableEq, Repr

/-- The direction of a level-1 transaction (R54). -/
inductive Dir where
  | rd
  | wr
  deriving DecidableEq, Repr

/-- The six registers of the window (R20, R21). -/
inductive Reg where
  | cs
  | fifo
  | clk
  | dlen
  | ltoh
  | dc
  deriving DecidableEq, Repr

/-- One FIFO element, stored with the width it had when it was pushed (R14, R49). -/
inductive FifoUnit where
  | byte (value : Byte)
  | word (value : Word)
  deriving DecidableEq, Repr

end Sys2Proof
end

