-- ==== Sys2Proof/Config.lean ====
section
/-! DEFINITION. The implementation parameters of spec/00_scope.md R8 and the free values the spec
leaves open. What the spec leaves OPEN is an opaque constant: nothing can evaluate it, so a
statement about it holds for every value. -/

namespace Sys2Proof.Config

/-- `RESERVED_READ`: what reserved bits read (spec/10_state.md R43). -/
inductive ReservedRead where
  | zero
  | draw
  deriving DecidableEq, Repr

/-- The parameters of R8, with the defaults of spec/92_eei_decisions.md where it gives one.
A machine holds them in `State.params`, and no step changes them. -/
structure Params where
  /-- `PERIPH_BASE`, OPEN (D5). -/
  periphBase : Nat
  /-- `SPI_OFFSET` (D5). -/
  spiOffset : Nat := 0x204000
  /-- `TX_DEPTH ≥ 1`, OPEN (D10). -/
  txDepth : Nat
  /-- `RX_DEPTH ≥ 1`, OPEN (D10). -/
  rxDepth : Nat
  /-- `1 ≤ RXR_LEVEL ≤ RX_DEPTH`, OPEN (D10). -/
  rxrLevel : Nat
  /-- `RX_STALL_WHEN_FULL` (D14). -/
  rxStallWhenFull : Bool := true
  /-- `RESERVED_READ` (D8). -/
  reservedRead : ReservedRead := .zero
  /-- `SPIN_LIMIT`: none is no bound (D28). -/
  spinLimit : Option Nat := none
  /-- `CORE_CLOCK`, OPEN; it affects no rule (D33). -/
  coreClock : Nat
  /-- `RESET_CS`: CS as read after reset (D4). -/
  resetCs : Word := 0x00041000#32
  /-- `RESET_CLK` (D4). -/
  resetClk : Word := 0x00000000#32
  /-- `RESET_DLEN` (D4). -/
  resetDlen : Word := 0x00000000#32
  /-- `RESET_LTOH` (D4). -/
  resetLtoh : Word := 0x00000001#32
  /-- `RESET_DC` (D4). -/
  resetDc : Word := 0x30201020#32
  deriving DecidableEq, Repr

/-- The bounds R8 puts on the OPEN parameters. -/
abbrev Params.Valid (p : Params) : Prop :=
  1 ≤ p.txDepth ∧ 1 ≤ p.rxDepth ∧ 1 ≤ p.rxrLevel ∧ p.rxrLevel ≤ p.rxDepth

/-- The OPEN value of `PERIPH_BASE` (log entry 4). -/
opaque periphBaseOpen : Nat

/-- `TX_DEPTH - 1` for the OPEN `TX_DEPTH` (log entry 4). -/
opaque txDepthOpen : Nat

/-- `RX_DEPTH - 1` for the OPEN `RX_DEPTH` (log entry 4). -/
opaque rxDepthOpen : Nat

/-- Chooses the OPEN `RXR_LEVEL` within its bounds (log entry 4). -/
opaque rxrLevelOpen : Nat

/-- The OPEN value of `CORE_CLOCK` (log entry 4). -/
opaque coreClockOpen : Nat

/-- The parameters of the machine after reset: the OPEN ones free within their bounds, the others
at the spec's defaults (log entries 4 and 5). -/
def params : Params where
  periphBase := periphBaseOpen
  txDepth := txDepthOpen + 1
  rxDepth := rxDepthOpen + 1
  rxrLevel := rxrLevelOpen % (rxDepthOpen + 1) + 1
  coreClock := coreClockOpen

/-- The `draw()` of R11 for a value of up to 32 bits, applied to the count of draws taken before
it (log entry 2). -/
opaque drawWord : Nat → Word

/-- The two-way draws of spec/42_serial_engine.md R259 and R260, applied to the count of draws
taken before it (log entries 2 and 17). -/
opaque drawBit : Nat → Bool

/-- Which of several enabled agents steps next where the schedule does not say
(spec/20_memory.md R81; log entry 1). -/
opaque drawTurn : Nat → Nat

end Sys2Proof.Config
end

