-- ==== Sys2Proof/Syntax.lean ====
section
/-! DEFINITION. The fifteen operations of spec/opcode_table.json (spec/30_encoding.md R108). -/

namespace Sys2Proof

/-- One constructor per row of the opcode table, in its order. A write carries its 32-bit data
(R107); `cfg` carries the five arguments of R104; `send` carries its payload, whose length is
the operand N (R105); `send1` carries one byte (R106). -/
inductive Instr where
  | rdCs
  | rdFifo
  | rdClk
  | rdDlen
  | rdLtoh
  | rdDc
  | wrCs (v : Word)
  | wrFifo (v : Word)
  | wrClk (v : Word)
  | wrDlen (v : Word)
  | wrLtoh (v : Word)
  | wrDc (v : Word)
  | cfg (wordMode : BitVec 1) (cs : BitVec 2) (cpha : BitVec 1) (cpol : BitVec 1) (div : BitVec 16)
  | send (payload : List Byte)
  | send1 (b : Byte)
  deriving DecidableEq, Repr

end Sys2Proof
end

