-- ==== Sys2Proof/WellFormed.lean ====
section
/-! DEFINITION. Which instruction terms have an encoding. Every operand but the payload of `send`
has its encoded width as its type, so the payload's length is the one check. -/

namespace Sys2Proof

/-- A `send` has at most 2^32 - 1 payload bytes, since `opd = N` is 32 bits wide
(spec/30_encoding.md R105). -/
def wellFormed : Instr → Bool
  | .send payload => decide (payload.length < 2 ^ 32)
  | .rdCs => true
  | .rdFifo => true
  | .rdClk => true
  | .rdDlen => true
  | .rdLtoh => true
  | .rdDc => true
  | .wrCs _ => true
  | .wrFifo _ => true
  | .wrClk _ => true
  | .wrDlen _ => true
  | .wrLtoh _ => true
  | .wrDc _ => true
  | .cfg _ _ _ _ _ => true
  | .send1 _ => true

/-- The instruction has an encoding. -/
abbrev WellFormed (i : Instr) : Prop := wellFormed i = true

end Sys2Proof
end

