-- ==== Sys2Proof/Decode.lean ====
section
/-! DEFINITION. The decoder of spec/30_encoding.md R109, total on any byte stream, and after it an
encoder written from the tables of R100 to R108. -/

namespace Sys2Proof

/-- The classes of words that spell no operation (R110). -/
inductive Reserved where
  /-- A BUS read word with `opd ≠ 0`. -/
  | nonZeroReadOperand
  /-- A `cfg` or `send1` word with reserved operand bits set. -/
  | reservedOperandBits
  /-- A CMD word with command number 3 to 63. -/
  | reservedCommand
  /-- An opcode byte 0xC0 to 0xFF. -/
  | reservedFormat
  deriving DecidableEq, Repr

/-- What the decoder reads at the head of a byte stream (R109, R110). -/
inductive Decoded where
  /-- One of the fifteen operations. -/
  | instr (i : Instr)
  /-- A BUS word whose offset is not one of the six register offsets. -/
  | badAccess (dir : Dir) (off : BitVec 6)
  /-- A word that spells no operation. -/
  | reserved (r : Reserved)
  /-- The stream ends inside an operation, so no operation stands there (log entry 13). -/
  | truncated
  deriving DecidableEq, Repr

/-- The opcode byte `w[7:0]` (R100). -/
def opOf (w : OpWord) : Byte := w.extractLsb' 0 8

/-- The operand `w[39:8]` (R100). -/
def opdOf (w : OpWord) : Word := w.extractLsb' 8 32

/-- Offset decode (spec/20_memory.md R71). -/
def regAt (off : Nat) : Option Reg :=
  if off = 0x00 then some .cs
  else if off = 0x04 then some .fifo
  else if off = 0x08 then some .clk
  else if off = 0x0C then some .dlen
  else if off = 0x10 then some .ltoh
  else if off = 0x14 then some .dc
  else none

/-- The BUS read of a register (R108). -/
def readInstr : Reg → Instr
  | .cs => .rdCs
  | .fifo => .rdFifo
  | .clk => .rdClk
  | .dlen => .rdDlen
  | .ltoh => .rdLtoh
  | .dc => .rdDc

/-- The BUS write of a register (R108). -/
def writeInstr (v : Word) : Reg → Instr
  | .cs => .wrCs v
  | .fifo => .wrFifo v
  | .clk => .wrClk v
  | .dlen => .wrDlen v
  | .ltoh => .wrLtoh v
  | .dc => .wrDc v

/-- A BUS word (R101, R109): the offset first, then the operand of a read. -/
def decodeBus (dir : Dir) (off : BitVec 6) (opd : Word) : Decoded :=
  match regAt off.toNat with
  | none => .badAccess dir off
  | some r =>
    match dir with
    | .rd => if opd = 0#32 then .instr (readInstr r) else .reserved .nonZeroReadOperand
    | .wr => .instr (writeInstr opd r)

/-- The `cfg` operand (R104). -/
def decodeCfg (opd : Word) : Decoded :=
  if opd.extractLsb' 21 11 = 0#11 then
    .instr (.cfg (opd.extractLsb' 20 1) (opd.extractLsb' 18 2) (opd.extractLsb' 16 1)
      (opd.extractLsb' 17 1) (opd.extractLsb' 0 16))
  else .reserved .reservedOperandBits

/-- The `send1` operand (R106). -/
def decodeSend1 (opd : Word) : Decoded :=
  if opd.extractLsb' 8 24 = 0#24 then .instr (.send1 (opd.extractLsb' 0 8))
  else .reserved .reservedOperandBits

/-- The first `n` bytes of a stream and what follows them, or none where it is shorter. -/
def takeBytes : Nat → List Byte → Option (List Byte × List Byte)
  | 0, bs => some ([], bs)
  | _ + 1, [] => none
  | n + 1, b :: bs =>
    match takeBytes n bs with
    | some (taken, left) => some (b :: taken, left)
    | none => none

/-- The `send` payload: exactly N bytes after the word (R105). -/
def decodeSend (opd : Word) (after : List Byte) : Decoded × List Byte :=
  match takeBytes opd.toNat after with
  | some (payload, left) => (.instr (.send payload), left)
  | none => (.truncated, after)

/-- A CMD word (R102, R109). -/
def decodeCmd (cmd : BitVec 6) (opd : Word) (after : List Byte) : Decoded × List Byte :=
  if cmd = 0#6 then (decodeCfg opd, after)
  else if cmd = 1#6 then decodeSend opd after
  else if cmd = 2#6 then (decodeSend1 opd, after)
  else (.reserved .reservedCommand, after)

/-- One operation word with the stream after it, in the order R109 reads it: bit 6 of `op` tells
BUS from the rest, then bits 7:6 tell CMD from the reserved space. -/
def decodeWord (w : OpWord) (after : List Byte) : Decoded × List Byte :=
  if (opOf w).extractLsb' 6 1 = 0#1 then
    (decodeBus (if (opOf w).extractLsb' 7 1 = 0#1 then .rd else .wr) ((opOf w).extractLsb' 0 6)
      (opdOf w), after)
  else if (opOf w).extractLsb' 7 1 = 0#1 then
    decodeCmd ((opOf w).extractLsb' 0 6) (opdOf w) after
  else (.reserved .reservedFormat, after)

/-- The operation word of five serialised bytes: `op` first, then `opd` little-endian (R100). -/
def wordOfBytes (b0 b1 b2 b3 b4 : Byte) : OpWord := b4 ++ b3 ++ b2 ++ b1 ++ b0

/-- The decoder of a byte stream (R109, R111): what stands at its head, and the rest. -/
def decode : List Byte → Decoded × List Byte
  | b0 :: b1 :: b2 :: b3 :: b4 :: after => decodeWord (wordOfBytes b0 b1 b2 b3 b4) after
  | bs => (.truncated, bs)

/-- The word made of an opcode byte and an operand (R100). -/
def opWord (op : Byte) (opd : Word) : OpWord := opd ++ op

/-- The operand of `cfg`: bits 31:21 zero, then word_mode, chip_select, clock_polarity,
clock_phase and clock_divider (R104). -/
def cfgOperand (wordMode : BitVec 1) (cs : BitVec 2) (cpha cpol : BitVec 1) (div : BitVec 16) :
    Word :=
  0#11 ++ wordMode ++ cs ++ cpol ++ cpha ++ div

/-- The operation word of an instruction, from the opcode map of R108. -/
def encodeWord : Instr → OpWord
  | .rdCs => opWord 0x00#8 0#32
  | .rdFifo => opWord 0x04#8 0#32
  | .rdClk => opWord 0x08#8 0#32
  | .rdDlen => opWord 0x0C#8 0#32
  | .rdLtoh => opWord 0x10#8 0#32
  | .rdDc => opWord 0x14#8 0#32
  | .wrCs v => opWord 0x80#8 v
  | .wrFifo v => opWord 0x84#8 v
  | .wrClk v => opWord 0x88#8 v
  | .wrDlen v => opWord 0x8C#8 v
  | .wrLtoh v => opWord 0x90#8 v
  | .wrDc v => opWord 0x94#8 v
  | .cfg wordMode cs cpha cpol div => opWord 0x40#8 (cfgOperand wordMode cs cpha cpol div)
  | .send payload => opWord 0x41#8 (BitVec.ofNat 32 payload.length)
  | .send1 b => opWord 0x42#8 (b.setWidth 32)

/-- A word as its five serialised bytes (R100). -/
def wordBytes (w : OpWord) : List Byte :=
  [w.extractLsb' 0 8, w.extractLsb' 8 8, w.extractLsb' 16 8, w.extractLsb' 24 8,
    w.extractLsb' 32 8]

/-- The bytes that follow an instruction's word: the payload of a `send` (R105). -/
def payloadOf : Instr → List Byte
  | .send payload => payload
  | _ => []

/-- The words of a well-formed instruction, serialised (R100, R105). -/
def encode (i : Instr) : List Byte := wordBytes (encodeWord i) ++ payloadOf i

/-- An instruction whose bits are `w`, laid out as the stream holds it: the word with the bits
above `nbits` zero, then, for a `send` word, the N payload bytes it announces, each zero. -/
def tableBytes (nbits w : Nat) : List Byte :=
  let word : OpWord := BitVec.ofNat 40 (w % 2 ^ nbits)
  wordBytes word ++ (if opOf word = 0x41#8 then List.replicate (opdOf word).toNat 0#8 else [])

/-- The instruction the decoder reads from an instruction whose bits are `w`, bit 0 the least
significant bit of the first byte, as spec/opcode_table.json numbers them. -/
def decodeTableWord (nbits w : Nat) : Option Instr :=
  match (decode (tableBytes nbits w)).1 with
  | .instr i => some i
  | _ => none

end Sys2Proof
end

