-- ==== Sys2Proof/Machine/Operands.lean ====
section
/-! DEFINITION. The register fields as named tables of offset, width and access class
(spec/10_state.md R22, R45 to R48), the masks made from them, and the only operations on values
the block has: masking, field insertion and truncation (spec/00_scope.md R10). -/

namespace Sys2Proof.Machine

/-- Every field of the window. FIFO has none, so no field operation reaches it (R113, R114). -/
inductive Field where
  | csLenLong
  | csDmaLen
  | csCspol2
  | csCspol1
  | csCspol0
  | csRxf
  | csRxr
  | csTxd
  | csRxd
  | csDone
  | csTeEn
  | csLmono
  | csLen
  | csRen
  | csAdcs
  | csIntr
  | csIntd
  | csDmaen
  | csTa
  | csCspol
  | csClear
  | csCpol
  | csCpha
  | csCs
  | clkCdiv
  | dlenLen
  | ltohToh
  | dcRpanic
  | dcRdreq
  | dcTpanic
  | dcTdreq
  deriving DecidableEq, Repr

/-- The access classes of R22 that a named field can have. Reserved bits belong to no field. -/
inductive AccessClass where
  | rw
  | ro
  | wa
  deriving DecidableEq, Repr

/-- The register of a field. -/
def fieldReg : Field → Reg
  | .clkCdiv => .clk
  | .dlenLen => .dlen
  | .ltohToh => .ltoh
  | .dcRpanic | .dcRdreq | .dcTpanic | .dcTdreq => .dc
  | _ => .cs

/-- The bit offset `lo(F)` (R22, R45 to R48). -/
def fieldLo : Field → Nat
  | .csLenLong => 25
  | .csDmaLen => 24
  | .csCspol2 => 23
  | .csCspol1 => 22
  | .csCspol0 => 21
  | .csRxf => 20
  | .csRxr => 19
  | .csTxd => 18
  | .csRxd => 17
  | .csDone => 16
  | .csTeEn => 15
  | .csLmono => 14
  | .csLen => 13
  | .csRen => 12
  | .csAdcs => 11
  | .csIntr => 10
  | .csIntd => 9
  | .csDmaen => 8
  | .csTa => 7
  | .csCspol => 6
  | .csClear => 4
  | .csCpol => 3
  | .csCpha => 2
  | .csCs => 0
  | .clkCdiv => 0
  | .dlenLen => 0
  | .ltohToh => 0
  | .dcRpanic => 24
  | .dcRdreq => 16
  | .dcTpanic => 8
  | .dcTdreq => 0

/-- The width `w(F)` (R22, R45 to R48). -/
def fieldWidth : Field → Nat
  | .csClear | .csCs => 2
  | .clkCdiv | .dlenLen => 16
  | .ltohToh => 4
  | .dcRpanic | .dcRdreq | .dcTpanic | .dcTdreq => 8
  | _ => 1

/-- The access class (R22, R45 to R48). -/
def fieldClass : Field → AccessClass
  | .csRxf | .csRxr | .csTxd | .csRxd | .csDone => .ro
  | .csClear => .wa
  | _ => .rw

/-- `((1 << w) - 1)` as a word. -/
def lowMask (w : Nat) : Word := BitVec.ofNat 32 (2 ^ w - 1)

/-- `mask(F)` (R10). -/
def fieldMask (f : Field) : Word := lowMask (fieldWidth f) <<< fieldLo f

/-- `get(v, F)` (R10). -/
def getField (v : Word) (f : Field) : Word := (v &&& fieldMask f) >>> fieldLo f

/-- `trunc_w(x)` of R9 within a word. -/
def truncTo (w : Nat) (x : Word) : Word := x &&& lowMask w

/-- `ins(v, F, x)` (R10). -/
def insField (v : Word) (f : Field) (x : Word) : Word :=
  (v &&& ~~~ fieldMask f) ||| (truncTo (fieldWidth f) x <<< fieldLo f)

/-- `RW_MASK` of R22: the stored bits of CS. -/
def rwMask : Word := 0x03E0FFCF#32

/-- `RO_MASK` of R22: the flags. -/
def roMask : Word := 0x001F0000#32

/-- `CLEAR_MASK` of R22. -/
def clearMask : Word := 0x00000030#32

/-- `RZ_MASK` of R22: the reserved bits of CS. -/
def rzMask : Word := 0xFC000000#32

/-- The CS fields that may not change while TA = 1 (spec/40_register_access.md R145). -/
def reconfigureMask : Word := 0x02E0004F#32

/-- The CS fields that no transfer may have set (spec/40_register_access.md R146). -/
def scopeMask : Word := 0x01002F00#32

/-- The reserved bits of each register (spec/10_state.md R43). -/
def reservedMask : Reg → Word
  | .cs => rzMask
  | .fifo => 0#32
  | .clk => 0xFFFF0000#32
  | .dlen => 0xFFFF0000#32
  | .ltoh => 0xFFFFFFF0#32
  | .dc => 0#32

/-- The byte offset of a register (spec/20_memory.md R71). -/
def offsetOf : Reg → Nat
  | .cs => 0x00
  | .fifo => 0x04
  | .clk => 0x08
  | .dlen => 0x0C
  | .ltoh => 0x10
  | .dc => 0x14

/-- `BLOCK_BASE = PERIPH_BASE + SPI_OFFSET` (spec/00_scope.md R8, spec/20_memory.md R78). -/
def blockBase (p : Config.Params) : Nat := p.periphBase + p.spiOffset

/-- The physical address a transaction at an offset goes to (spec/00_scope.md R11). -/
def physAddr (p : Config.Params) (off : Nat) : Nat := blockBase p + off

/-- Byte `k` of a register value in the little-endian byte view (spec/20_memory.md R72). -/
def byteOfWord (v : Word) (k : Nat) : Byte := v.extractLsb' (8 * k) 8

/-- The width in bits of a FIFO unit (R14). -/
def unitWidth : FifoUnit → Nat
  | .byte _ => 8
  | .word _ => 32

/-- `zext_32(u.value)`. -/
def unitValue : FifoUnit → Word
  | .byte b => b.setWidth 32
  | .word v => v

/-- The unit a FIFO write pushes: the low byte when LEN_LONG is 0, the whole word when it is 1
(spec/30_encoding.md R107). -/
def unitOfWrite (lenLong : Bool) (v : Word) : FifoUnit :=
  if lenLong then .word v else .byte (v.extractLsb' 0 8)

/-- A received unit of the same width as the unit sent (spec/42_serial_engine.md R256). -/
def unitLike (sent : FifoUnit) (v : Word) : FifoUnit :=
  match sent with
  | .byte _ => .byte (v.extractLsb' 0 8)
  | .word _ => .word v

/-- The divisor CDIV stands for (spec/42_serial_engine.md R263, D33 of spec/92_eei_decisions.md):
CDIV with an odd value rounded down, and 65536 for 0. A CDIV of 1 rounds down to 0 and so stands for
65536 too: DEDUCED, unsafe for a claim about the rate at CDIV = 1 (log entry 23). -/
def clockDivisor (cdiv : BitVec 16) : Nat :=
  let even := cdiv &&& 0xFFFE#16
  if even = 0#16 then 65536 else even.toNat

/-- SPI clock = core clock / divider (spec/42_serial_engine.md R263). No rule uses it. -/
def sclkRate (p : Config.Params) (cdiv : BitVec 16) : Rat := (p.coreClock : Rat) / clockDivisor cdiv

end Sys2Proof.Machine
end

