-- ==== Sys2Proof/Machine/State.lean ====
section
/-! DEFINITION. The state of the SPI block (spec/10_state.md), as plain data: the register file,
the hidden state, the controller, the fault and refusal records, the parameters, and the model's
own fields that hold the outside: the host's program, the schedule and the count of draws. -/

namespace Sys2Proof.Machine

/-- The phases of the controller's phase table (spec/41_handshake_controller.md R218). -/
inductive Phase where
  | idle
  | cfgRd (k : Fin 5)
  | cfgWr (k : Fin 5)
  | setTaRd
  | setTaWr
  | waitTxd
  | push
  | waitDone
  | clrTaRd
  | clrTaWr
  | clrFifoRd
  | clrFifoWr
  deriving DecidableEq, Repr

/-- The command in progress (R55, R201). The bytes of a send are in `Ctl.buf`. -/
inductive Cmd where
  | cfg (wordMode : BitVec 1) (cs : BitVec 2) (cpha : BitVec 1) (cpol : BitVec 1)
      (div : BitVec 16)
  | send
  | send1
  deriving DecidableEq, Repr

/-- The controller's state `ctl` (R55). -/
structure Ctl where
  phase : Phase
  cmd : Option Cmd
  buf : List Byte
  idx : Nat
  tmp : Word
  spins : Nat
  deriving DecidableEq, Repr

/-- The controller waiting for a command (R59, R211). -/
def idleCtl : Ctl := ⟨.idle, none, [], 0, 0#32, 0⟩

/-- What a `unit` wire event records (R53). The width is that of `sent`; `cspolLine` is
CS bits 23:21, line 0 in bit 0. -/
structure UnitEvent where
  sent : FifoUnit
  cs : BitVec 2
  cpol : Bool
  cpha : Bool
  cspol : Bool
  cspolLine : BitVec 3
  cdiv : BitVec 16
  rx : FifoUnit
  deriving DecidableEq, Repr

/-- The wire log's events (R53). -/
inductive WireEvent where
  /-- TA went from 0 to 1. -/
  | select (cs : BitVec 2)
  /-- TA went from 1 to 0. -/
  | deselect
  /-- The serial engine finished a unit. -/
  | unit (e : UnitEvent)
  /-- A unit was cut off in the shifter. -/
  | aborted (value : Word)
  deriving DecidableEq, Repr

/-- An entry of the bus trace (R54): the value is the one read or written. -/
structure TraceEntry where
  agent : Agent
  dir : Dir
  off : Nat
  value : Word
  deriving DecidableEq, Repr

/-- A command's completion (spec/41_handshake_controller.md R211): the host thread that gets it
back (spec/60_exceptions.md R317), the command, and how many transactions the bus trace held by
then (log entry 24). -/
structure Completion where
  thread : Nat
  cmd : Option Cmd
  traceLen : Nat
  deriving DecidableEq, Repr

/-- The seven fault kinds with the info each records (spec/60_exceptions.md R300). Each is the
spec's own outcome for a case the source leaves open; recording one is SAFE, since nothing can be
proved of the state after it but that no agent steps. -/
inductive FaultKind where
  /-- Raised by a transaction at no register's offset or of a width other than 4 bytes (R140). Safe. -/
  | badAccess (agent : Agent) (dir : Dir) (off : Nat)
  /-- Raised by a host transaction while the controller is not IDLE (R140, R217). Safe. -/
  | concurrentAccess (dir : Dir) (off : Nat) (phase : Phase)
  /-- Raised by a FIFO write with TA = 0 (R148). Safe. -/
  | fifoWriteInactive (agent : Agent) (data : Word)
  /-- Raised by a FIFO write into a full TX FIFO (R148). Safe. -/
  | txOverflow (agent : Agent) (data : Word)
  /-- Raised by a CS or CLK write that changes a frozen field while TA = 1 (R145, R150). Safe. -/
  | reconfigureWhileActive (reg : Reg) (old written : Word)
  /-- Raised by SHIFT_START with CS.CS = 3 (R261). Safe. -/
  | reservedChipSelect (unit : FifoUnit)
  /-- Raised by a busy-wait that reaches SPIN_LIMIT (R159, R215). Safe. -/
  | transferTimeout (phase : Phase) (spins : Nat)
  deriving DecidableEq, Repr

/-- The reasons of R301. -/
inductive RefusalReason where
  /-- Raised by a CS write that leaves TA = 1 with a mode of R146 set. Safe. -/
  | outOfScopeMode
  /-- Raised by a word that spells no operation (R110). Safe. -/
  | malformedWord (r : Reserved)
  deriving DecidableEq, Repr

/-- Why a step answers a fault. -/
inductive Fault where
  /-- A fault was recorded by an earlier step, so no agent has a step (R300). Raised by every
  meaning and by `step` in a state with `fault` set. Safe: the spec gives no step there. -/
  | raised (k : FaultKind)
  /-- No agent has a step, the state is not final (R318), and no fault or refusal is recorded.
  Raised by `step` only. Safe. -/
  | stuck
  deriving DecidableEq, Repr

/-- Why a step answers a refusal. -/
inductive Refusal where
  /-- A refusal was recorded by an earlier step, so no agent has a step (R301). Raised by every
  meaning and by `step` in a state with `refused` set. Safe: the spec gives no step there. -/
  | recorded (r : RefusalReason)
  /-- The instruction has no meaning yet. Raised by an arm of `exec` only. Safe. -/
  | notModelled (mnemonic : String)
  deriving DecidableEq, Repr

/-- A level-1 access as an agent issues it: `width` in bytes, `data` used by a write only
(spec/40_register_access.md R140). -/
structure Access where
  dir : Dir
  off : Nat
  width : Nat
  data : Word
  deriving DecidableEq, Repr

/-- The flag a `pollf` waits for (R159). -/
inductive PollFlag where
  | txd
  | done
  deriving DecidableEq, Repr

/-- One item of a host thread's program (spec/60_exceptions.md R317; log entry 3). -/
inductive HostOp where
  /-- Serialised operation words (R100), as many as it holds. -/
  | stream (bytes : List Byte)
  /-- An access of any width at any offset; one with no BUS encoding stands here (R140). -/
  | access (a : Access)
  /-- The pseudo-instruction `getf` (R113, R157). -/
  | getf (f : Field)
  /-- The pseudo-instruction `setf` (R114, R158). -/
  | setf (f : Field) (x : Word)
  /-- The second transaction of a `setf`, whose first read `v`. -/
  | setfWrite (f : Field) (x v : Word)
  /-- The pseudo-instruction `pollf` after `spins` failed polls (R115, R159). -/
  | pollf (f : PollFlag) (spins : Nat)
  /-- The host's test of the polled value `v`, between two polls (R159; log entry 9). -/
  | pollTest (f : PollFlag) (spins : Nat) (v : Word)
  /-- The pseudo-instruction `push` (R116). -/
  | push (b : Byte)
  deriving DecidableEq, Repr

/-- A host thread: what it has left to do, and the value its last `getf` gave. -/
structure HostThread where
  todo : List HostOp
  got : Word
  deriving DecidableEq, Repr

/-- Whose turn a step is (spec/20_memory.md R81; log entry 1). -/
inductive Turn where
  | host (thread : Nat)
  | ctl
  | engine
  deriving DecidableEq, Repr

/-- The machine. The first block is the spec's state (R59), the second the parameters (R8), the
third the record of completions and the model's own. -/
structure State where
  /-- `cs_rw` (R52). -/
  csRw : Word
  /-- CLK.CDIV (R45). -/
  clkCdiv : BitVec 16
  /-- DLEN.LEN (R46). -/
  dlenLen : BitVec 16
  /-- LTOH.TOH (R47). -/
  ltohToh : BitVec 4
  /-- DC (R48). -/
  dc : Word
  /-- The TX FIFO, head first (R49). -/
  txq : List FifoUnit
  /-- The RX FIFO, head first (R50). -/
  rxq : List FifoUnit
  /-- The unit being clocked out (R51). -/
  shifter : Option FifoUnit
  /-- The wire log, oldest first (R53). -/
  wire : List WireEvent
  /-- The bus trace, oldest first (R54). -/
  trace : List TraceEntry
  /-- The handshake controller (R55). -/
  ctl : Ctl
  /-- The recorded fault (R57). -/
  fault : Option FaultKind
  /-- The recorded refusal (R57). -/
  refused : Option RefusalReason
  /-- The implementation parameters (R8); no step changes them. -/
  params : Config.Params
  /-- The completions of commands so far, oldest first (spec/20_memory.md R86; log entry 24). -/
  completed : List Completion
  /-- The model's own: the value the host's last read got back (log entry 18). -/
  rdata : Word
  /-- The model's own: the host's program, a thread each (log entry 3). -/
  threads : List HostThread
  /-- The model's own: the thread that issued the last command, which has no step while that
  command is in progress (R201; log entry 3). -/
  owner : Nat
  /-- The model's own: the turns already settled, next first (log entry 1). -/
  sched : List Turn
  /-- The model's own: how many draws have been taken (log entry 2). -/
  draws : Nat
  deriving DecidableEq, Repr

/-- The machine right after reset with given parameters (R59, spec/70_reset_and_hazards.md R340). -/
def resetWith (p : Config.Params) : State where
  csRw := p.resetCs &&& rwMask
  clkCdiv := p.resetClk.extractLsb' 0 16
  dlenLen := p.resetDlen.extractLsb' 0 16
  ltohToh := p.resetLtoh.extractLsb' 0 4
  dc := p.resetDc
  txq := []
  rxq := []
  shifter := none
  wire := []
  trace := []
  ctl := idleCtl
  fault := none
  refused := none
  params := p
  completed := []
  rdata := 0#32
  threads := []
  owner := 0
  sched := []
  draws := 0

/-- The machine right after reset (R59), with the parameters of `Config.params`. -/
def State.reset : State := resetWith Config.params

end Sys2Proof.Machine
end

