-- ==== Sys2Proof/Machine/Flags.lean ====
section
/-! DEFINITION. The derived flags, computed and never stored (spec/42_serial_engine.md R251 to
R253), and what a read of each register returns in its defined bits (spec/10_state.md R52). -/

namespace Sys2Proof.Machine

/-- CS.TA, bit 7 (R27). -/
def taSet (s : State) : Bool := s.csRw.getLsbD 7

/-- CS.LEN_LONG, bit 25 (R30). -/
def lenLongSet (s : State) : Bool := s.csRw.getLsbD 25

/-- CS.CS, bits 1:0 (R23). -/
def chipSelect (s : State) : BitVec 2 := s.csRw.extractLsb' 0 2

/-- `TXD = (|txq| < TX_DEPTH)` (R251). -/
def txd (s : State) : Bool := decide (s.txq.length < s.params.txDepth)

/-- `DONE = TA ∧ txq = [] ∧ shifter = none` (R252). -/
def doneFlag (s : State) : Bool := taSet s && (s.txq.isEmpty && s.shifter.isNone)

/-- `RXD = (|rxq| > 0)` (R253). -/
def rxd (s : State) : Bool := decide (0 < s.rxq.length)

/-- `RXR = TA ∧ (|rxq| ≥ RXR_LEVEL)` (R253). -/
def rxr (s : State) : Bool := taSet s && decide (s.params.rxrLevel ≤ s.rxq.length)

/-- `RXF = (|rxq| = RX_DEPTH)` (R253). -/
def rxf (s : State) : Bool := decide (s.rxq.length = s.params.rxDepth)

/-- A flag in its place in a word. -/
def flagBit (b : Bool) (n : Nat) : Word := (BitVec.ofBool b).setWidth 32 <<< n

/-- The flags of CS in bits 20:16 (R52). -/
def csFlags (s : State) : Word :=
  flagBit (doneFlag s) 16 ||| flagBit (rxd s) 17 ||| flagBit (txd s) 18 ||| flagBit (rxr s) 19
    ||| flagBit (rxf s) 20

/-- `CSvalue` of R52 without its reserved bits; bits 5:4 read 0. -/
def csValue (s : State) : Word := s.csRw ||| csFlags s

/-- The defined bits a register reads, for the five registers whose read has no side effect;
FIFO is a port and holds none (R44). -/
def regValue (s : State) : Reg → Word
  | .cs => csValue s
  | .fifo => 0#32
  | .clk => s.clkCdiv.setWidth 32
  | .dlen => s.dlenLen.setWidth 32
  | .ltoh => s.ltohToh.setWidth 32
  | .dc => s.dc

/-- The byte at an offset of the window in the little-endian byte view (spec/20_memory.md R72),
with reserved bits as zero; none for the FIFO port and outside the window. It is a view for a
reader, not a transaction: every narrow transaction faults (R74). -/
def windowByte (s : State) (off : Nat) : Option Byte :=
  match regAt (off / 4 * 4) with
  | some .fifo => none
  | some r => some (byteOfWord (regValue s r) (off % 4))
  | none => none

end Sys2Proof.Machine
end

