-- ==== Sys2Proof/Machine/Ops.lean ====
section
/-! DEFINITION. The shared operations: recording a fault or a refusal, taking a draw, finishing
and cutting off a unit, reading and writing each register, and a level-1 transaction with its
admission (spec/40_register_access.md R140 to R156). -/

namespace Sys2Proof.Machine

/-- Why a transaction or a step has no effect but its record (spec/60_exceptions.md R300, R301). -/
inductive Stop where
  | fault (k : FaultKind)
  | refuse (r : RefusalReason)
  deriving DecidableEq, Repr

/-- Taking a fault (R300, R308): `fault` is set and nothing else changes. The block has no other
exception, no saved state, no vector and no return (R305, R309). -/
def raise (k : FaultKind) (s : State) : State := { s with fault := some k }

/-- Taking a refusal (R301): `refused` is set and nothing else changes. -/
def refuse (r : RefusalReason) (s : State) : State := { s with refused := some r }

/-- The state in which a stop is recorded. -/
def recordStop (e : Stop) (s : State) : State :=
  match e with
  | .fault k => raise k s
  | .refuse r => refuse r s

/-- No fault and no refusal is recorded, so agents may step (R300, R301). -/
def live (s : State) : Bool := s.fault.isNone && s.refused.isNone

/-- The outcome `t` of a step taken in `s`, where an earlier fault or refusal leaves no step
(R140, R307 check 1). -/
def whenLive (s t : State) : Host.Outcome State Fault Refusal :=
  match s.fault with
  | some k => .fault (.raised k)
  | none =>
    match s.refused with
    | some r => .refused (.recorded r)
    | none => .next t

/-- The next two-way draw. -/
def nextBit (s : State) : Bool := Config.drawBit s.draws

/-- The next draw of a word. -/
def nextWord (s : State) : Word := Config.drawWord s.draws

/-- One more draw has been taken. -/
def drawn (s : State) : State := { s with draws := s.draws + 1 }

/-- The wire event of a finished unit (R255, R262). -/
def unitEvent (s : State) (u rx : FifoUnit) : UnitEvent where
  sent := u
  cs := chipSelect s
  cpol := s.csRw.getLsbD 3
  cpha := s.csRw.getLsbD 2
  cspol := s.csRw.getLsbD 6
  cspolLine := s.csRw.extractLsb' 21 3
  cdiv := s.clkCdiv
  rx := rx

/-- The SHIFT_END effect for the unit `u` (R255, R256): one draw is the received unit, the wire
logs both, and the RX FIFO takes it unless it is full. -/
def finishUnit (u : FifoUnit) (s : State) : State :=
  let rx := unitLike u (nextWord s)
  { drawn s with
    wire := s.wire ++ [.unit (unitEvent s u rx)]
    rxq := if s.rxq.length < s.params.rxDepth then s.rxq ++ [rx] else s.rxq
    shifter := none }

/-- The unit `u` is cut off in the shifter (R259, R260). -/
def abortUnit (u : FifoUnit) (s : State) : State :=
  { s with shifter := none, wire := s.wire ++ [.aborted (unitValue u)] }

/-- `shifter_on_clear()`: a TX clear with a unit in the shifter keeps or discards it by a draw
(R260; log entry 17). -/
def shifterOnClear (s : State) : State :=
  match s.shifter with
  | none => s
  | some u => if nextBit s then drawn s else abortUnit u (drawn s)

/-- `clear_action(c)` for `c = V[5:4]` (R143). -/
def clearAction (v : Word) (s : State) : State :=
  let s1 := if v.getLsbD 4 then shifterOnClear { s with txq := [] } else s
  if v.getLsbD 5 then { s1 with rxq := [] } else s1

/-- A unit in the shifter when TA is cleared is finished or aborted by a draw (R259; log
entry 17). -/
def shifterOnStop (s : State) : State :=
  match s.shifter with
  | none => s
  | some u => if nextBit s then finishUnit u (drawn s) else abortUnit u (drawn s)

/-- `ta_transition(a, b)`, after `cs_rw` has its new value (R144). -/
def taTransition (before after : Bool) (s : State) : State :=
  match before, after with
  | false, true => { s with wire := s.wire ++ [.select (chipSelect s)] }
  | true, false =>
    let s1 := shifterOnStop s
    { s1 with wire := s1.wire ++ [.deselect] }
  | false, false => s
  | true, true => s

/-- The effect of an admitted CS write that is neither a fault nor a refusal, in the order of
R142. -/
def csWriteEffect (v : Word) (s : State) : State :=
  let new := v &&& rwMask
  taTransition (taSet s) (new.getLsbD 7) { clearAction v s with csRw := new }

/-- `wr.cs V` (R142): reconfiguration first (R145), then the scope (R146), then the effect. -/
def writeCs (v : Word) (s : State) : Except Stop State :=
  let new := v &&& rwMask
  if taSet s = true ∧ (s.csRw ^^^ new) &&& reconfigureMask ≠ 0#32 then
    .error (.fault (.reconfigureWhileActive .cs s.csRw v))
  else if new.getLsbD 7 = true ∧ new &&& scopeMask ≠ 0#32 then
    .error (.refuse .outOfScopeMode)
  else .ok (csWriteEffect v s)

/-- `wr.fifo V` (R148). -/
def writeFifo (a : Agent) (v : Word) (s : State) : Except Stop State :=
  if taSet s = false then .error (.fault (.fifoWriteInactive a v))
  else if s.txq.length = s.params.txDepth then .error (.fault (.txOverflow a v))
  else .ok { s with txq := s.txq ++ [unitOfWrite (lenLongSet s) v] }

/-- `wr.clk V` (R150). -/
def writeClk (v : Word) (s : State) : Except Stop State :=
  if taSet s = true ∧ v.extractLsb' 0 16 ≠ s.clkCdiv then
    .error (.fault (.reconfigureWhileActive .clk (s.clkCdiv.setWidth 32) v))
  else .ok { s with clkCdiv := v.extractLsb' 0 16 }

/-- The write of each register (R142, R148, R150, R152, R154, R156). -/
def writeReg (a : Agent) (r : Reg) (v : Word) (s : State) : Except Stop State :=
  match r with
  | .cs => writeCs v s
  | .fifo => writeFifo a v s
  | .clk => writeClk v s
  | .dlen => .ok { s with dlenLen := v.extractLsb' 0 16 }
  | .ltoh => .ok { s with ltohToh := v.extractLsb' 0 4 }
  | .dc => .ok { s with dc := v }

/-- `rd.fifo` (R147): the head of the RX FIFO, or a draw where it is empty. -/
def readFifo (s : State) : Word × State :=
  match s.rxq with
  | u :: left => (unitValue u, { s with rxq := left })
  | [] => (nextWord s, drawn s)

/-- A read without side effect: the defined bits, and the reserved bits `rz` of R43. -/
def readPlain (r : Reg) (s : State) : Word × State :=
  match s.params.reservedRead with
  | .zero => (regValue s r, s)
  | .draw => (regValue s r ||| (nextWord s &&& reservedMask r), drawn s)

/-- The read of each register (R141, R147, R149, R151, R153, R155). DC has no reserved bit, so its
read draws nothing. -/
def readReg (r : Reg) (s : State) : Word × State :=
  match r with
  | .fifo => readFifo s
  | .dc => (regValue s .dc, s)
  | .cs => readPlain .cs s
  | .clk => readPlain .clk s
  | .dlen => readPlain .dlen s
  | .ltoh => readPlain .ltoh s

/-- The rule for an access to a register: the value read or written, and the state after it. -/
def perform (a : Agent) (x : Access) (r : Reg) (s : State) : Except Stop (Word × State) :=
  match x.dir with
  | .rd => .ok (readReg r s)
  | .wr =>
    match writeReg a r x.data s with
    | .ok t => .ok (x.data, t)
    | .error e => .error e

/-- An entry put at the end of the bus trace (R140). -/
def logAccess (a : Agent) (x : Access) (v : Word) (s : State) : State :=
  { s with trace := s.trace ++ [⟨a, x.dir, x.off, v⟩] }

/-- The register an access selects: only a 4-byte access at one of the six offsets does
(R140, spec/20_memory.md R71, R73, R74). -/
def accessReg (x : Access) : Option Reg := if x.width = 4 then regAt x.off else none

/-- A level-1 transaction in a state without fault or refusal: admission in the order of R140 and
R307, the register's rule, then the trace. -/
def transact (a : Agent) (x : Access) (s : State) : Except Stop (Word × State) :=
  if a = .host ∧ s.ctl.phase ≠ .idle then
    .error (.fault (.concurrentAccess x.dir x.off s.ctl.phase))
  else
    match accessReg x with
    | none => .error (.fault (.badAccess a x.dir x.off))
    | some r =>
      match perform a x r s with
      | .error e => .error e
      | .ok (v, t) => .ok (v, logAccess a x v t)

/-- What the host gets back: the value of a read, nothing from a write (spec/60_exceptions.md
R317; log entry 18). -/
def giveHost (x : Access) (v : Word) (s : State) : State :=
  match x.dir with
  | .rd => { s with rdata := v }
  | .wr => s

/-- The state after the host's access, a stop recorded in it. -/
def hostAfter (x : Access) (s : State) : State :=
  match transact .host x s with
  | .ok (v, t) => giveHost x v t
  | .error e => recordStop e s

/-- A level-1 transaction by the host. -/
def hostBus (x : Access) (s : State) : Host.Outcome State Fault Refusal :=
  whenLive s (hostAfter x s)

/-- A whole-word read of a register. -/
def readOf (r : Reg) : Access := ⟨.rd, offsetOf r, 4, 0#32⟩

/-- A whole-word write of a register. -/
def writeOf (r : Reg) (v : Word) : Access := ⟨.wr, offsetOf r, 4, v⟩

/-- The controller's transaction (R200): `k` takes the value and the state after it; a stop is
recorded in the state before it. -/
def ctlBus (x : Access) (k : Word → State → State) (s : State) : State :=
  match transact .ctl x s with
  | .ok (v, t) => k v t
  | .error e => recordStop e s

/-- The code of a fault kind (R300). -/
def faultCode : FaultKind → Nat
  | .badAccess _ _ _ => 1
  | .concurrentAccess _ _ _ => 2
  | .fifoWriteInactive _ _ => 3
  | .txOverflow _ _ => 4
  | .reconfigureWhileActive _ _ _ => 5
  | .reservedChipSelect _ => 6
  | .transferTimeout _ _ => 7

end Sys2Proof.Machine
end

