-- ==== Sys2Proof/Machine/BusReads.lean ====
section
/-! DEFINITION. The six bus reads issued by the host (spec/40_register_access.md). -/

namespace Sys2Proof.Machine

/-- `rd.cs` (R141). -/
def execRdCs (s : State) : Host.Outcome State Fault Refusal := hostBus (readOf .cs) s

/-- `rd.fifo` (R147). -/
def execRdFifo (s : State) : Host.Outcome State Fault Refusal := hostBus (readOf .fifo) s

/-- `rd.clk` (R149). -/
def execRdClk (s : State) : Host.Outcome State Fault Refusal := hostBus (readOf .clk) s

/-- `rd.dlen` (R151). -/
def execRdDlen (s : State) : Host.Outcome State Fault Refusal := hostBus (readOf .dlen) s

/-- `rd.ltoh` (R153). -/
def execRdLtoh (s : State) : Host.Outcome State Fault Refusal := hostBus (readOf .ltoh) s

/-- `rd.dc` (R155). -/
def execRdDc (s : State) : Host.Outcome State Fault Refusal := hostBus (readOf .dc) s

end Sys2Proof.Machine
end

