-- ==== Sys2Proof/Machine/BusWrites.lean ====
section
/-! DEFINITION. The six bus writes issued by the host (spec/40_register_access.md). -/

namespace Sys2Proof.Machine

/-- `wr.cs V` (R142 to R146). -/
def execWrCs (v : Word) (s : State) : Host.Outcome State Fault Refusal := hostBus (writeOf .cs v) s

/-- `wr.fifo V` (R148). -/
def execWrFifo (v : Word) (s : State) : Host.Outcome State Fault Refusal :=
  hostBus (writeOf .fifo v) s

/-- `wr.clk V` (R150). -/
def execWrClk (v : Word) (s : State) : Host.Outcome State Fault Refusal :=
  hostBus (writeOf .clk v) s

/-- `wr.dlen V` (R152). -/
def execWrDlen (v : Word) (s : State) : Host.Outcome State Fault Refusal :=
  hostBus (writeOf .dlen v) s

/-- `wr.ltoh V` (R154). -/
def execWrLtoh (v : Word) (s : State) : Host.Outcome State Fault Refusal :=
  hostBus (writeOf .ltoh v) s

/-- `wr.dc V` (R156). -/
def execWrDc (v : Word) (s : State) : Host.Outcome State Fault Refusal := hostBus (writeOf .dc v) s

end Sys2Proof.Machine
end

