-- ==== Sys2Proof/Machine/Commands.lean ====
section
/-! DEFINITION. The three commands issued by the host (spec/41_handshake_controller.md). Issuing one
sets the controller going; its transactions are the controller's own steps
(Sys2Proof/Machine/Controller.lean). -/

namespace Sys2Proof.Machine

/-- Command acceptance (R201): only an IDLE controller takes a command. While it is not IDLE the
command has no step, so nothing changes and the host thread waits (log entry 11). -/
def acceptCmd (c : Ctl) (s : State) : State :=
  if s.ctl.phase = .idle then { s with ctl := c } else s

/-- `cfg` (R202): the arguments are held and the first field's read comes next. -/
def execCfg (wordMode : BitVec 1) (cs : BitVec 2) (cpha cpol : BitVec 1) (div : BitVec 16)
    (s : State) : Host.Outcome State Fault Refusal :=
  whenLive s (acceptCmd
    { s.ctl with phase := .cfgRd 0, cmd := some (.cfg wordMode cs cpha cpol div) } s)

/-- `send` (R204, R213): the payload is held and setting TA comes next, also for no byte. -/
def execSend (payload : List Byte) (s : State) : Host.Outcome State Fault Refusal :=
  whenLive s (acceptCmd
    { s.ctl with phase := .setTaRd, cmd := some .send, buf := payload, idx := 0 } s)

/-- `send1` (R212): a send of one byte. -/
def execSend1 (b : Byte) (s : State) : Host.Outcome State Fault Refusal :=
  whenLive s (acceptCmd
    { s.ctl with phase := .setTaRd, cmd := some .send1, buf := [b], idx := 0 } s)

end Sys2Proof.Machine
end

