-- ==== Sys2Proof/Machine/Dispatch.lean ====
section
/-! DEFINITION. One arm per instruction of spec/opcode_table.json. -/

namespace Sys2Proof.Machine

def exec (i : Instr) (s : State) : Host.Outcome State Fault Refusal :=
  match i with
  | .rdCs => Sys2Proof.Machine.execRdCs s
  | .rdFifo => Sys2Proof.Machine.execRdFifo s
  | .rdClk => Sys2Proof.Machine.execRdClk s
  | .rdDlen => Sys2Proof.Machine.execRdDlen s
  | .rdLtoh => Sys2Proof.Machine.execRdLtoh s
  | .rdDc => Sys2Proof.Machine.execRdDc s
  | .wrCs v => Sys2Proof.Machine.execWrCs v s
  | .wrFifo v => Sys2Proof.Machine.execWrFifo v s
  | .wrClk v => Sys2Proof.Machine.execWrClk v s
  | .wrDlen v => Sys2Proof.Machine.execWrDlen v s
  | .wrLtoh v => Sys2Proof.Machine.execWrLtoh v s
  | .wrDc v => Sys2Proof.Machine.execWrDc v s
  | .cfg wordMode cs cpha cpol div => Sys2Proof.Machine.execCfg wordMode cs cpha cpol div s
  | .send payload => Sys2Proof.Machine.execSend payload s
  | .send1 b => Sys2Proof.Machine.execSend1 b s

end Sys2Proof.Machine
end

