-- ==== Sys2Proof/Machine/Controller.lean ====
section
/-! DEFINITION. The handshake controller's step: the phase table of
spec/41_handshake_controller.md R218, one transaction a step. -/

namespace Sys2Proof.Machine

/-- The source's states of a transfer, onto which the phases map (R200, R218). `pushing` is the
source's ACTIVE to DRAINING transition; `complete` is its DONE state (spec/00_scope.md R15). -/
inductive SourceState where
  | idle
  | configure
  | active
  | pushing
  | draining
  | complete
  deriving DecidableEq, Repr

/-- The source state of a phase (R200). -/
def sourceState : Phase → SourceState
  | .idle => .idle
  | .cfgRd _ => .configure
  | .cfgWr _ => .configure
  | .setTaRd => .active
  | .setTaWr => .active
  | .waitTxd => .active
  | .push => .pushing
  | .waitDone => .draining
  | .clrTaRd => .complete
  | .clrTaWr => .complete
  | .clrFifoRd => .complete
  | .clrFifoWr => .complete

/-- The fields `cfg` writes, in order (R203). -/
def cfgField (k : Fin 5) : Field :=
  match k with
  | 0 => .csLenLong
  | 1 => .csCs
  | 2 => .csCpha
  | 3 => .csCpol
  | 4 => .clkCdiv

/-- The argument `cfg` writes to field `k`, zero-extended (R104, R203). -/
def cfgArg (wordMode : BitVec 1) (cs : BitVec 2) (cpha cpol : BitVec 1) (div : BitVec 16)
    (k : Fin 5) : Word :=
  match k with
  | 0 => wordMode.setWidth 32
  | 1 => cs.setWidth 32
  | 2 => cpha.setWidth 32
  | 3 => cpol.setWidth 32
  | 4 => div.setWidth 32

/-- The index after `k`, or none after the last (R203). -/
def cfgNext (k : Fin 5) : Option (Fin 5) :=
  match k with
  | 0 => some 1
  | 1 => some 2
  | 2 => some 3
  | 3 => some 4
  | 4 => none

/-- The controller's phase is set. -/
def toPhase (p : Phase) (s : State) : State := { s with ctl := { s.ctl with phase := p } }

/-- The controller's last read value is held and its phase set. -/
def toPhaseTmp (p : Phase) (v : Word) (s : State) : State :=
  { s with ctl := { s.ctl with phase := p, tmp := v } }

/-- Completion: the controller is IDLE with nothing held, and the completion of its command is
recorded for the thread that issued it (R211, spec/20_memory.md R86; log entry 24). -/
def complete (s : State) : State :=
  { s with
    ctl := idleCtl
    completed := s.completed ++ [⟨s.owner, s.ctl.cmd, s.trace.length⟩] }

/-- A poll that read the flag as 0: `before` is the state before the poll and `after` the one after
its read. The spin limit is tested, and a fault leaves `before` but for its record (R159, R215,
spec/60_exceptions.md R300; log entry 9). -/
def pollFailed (v : Word) (before after : State) : State :=
  let n := before.ctl.spins + 1
  let again := { after with ctl := { after.ctl with tmp := v, spins := n } }
  match before.params.spinLimit with
  | none => again
  | some k => if k ≤ n then raise (.transferTimeout before.ctl.phase n) before else again

/-- The phase after WAIT_TXD: PUSH, or WAIT_DONE for no byte (R206, R213). -/
def pushOrDrain (buf : List Byte) : Phase := if buf = [] then .waitDone else .push

/-- WAIT_TXD after its read (R206). -/
def afterWaitTxd (before : State) (v : Word) (after : State) : State :=
  if getField v .csTxd = 1#32 then
    { after with ctl := { after.ctl with
        tmp := v
        spins := 0
        phase := pushOrDrain after.ctl.buf } }
  else pollFailed v before after

/-- WAIT_DONE after its read (R208). -/
def afterWaitDone (before : State) (v : Word) (after : State) : State :=
  if getField v .csDone = 1#32 then toPhaseTmp .clrTaRd v after else pollFailed v before after

/-- PUSH after its write (R207). -/
def afterPush (_ : Word) (s : State) : State :=
  let n := s.ctl.idx + 1
  if n = s.ctl.buf.length then
    { s with ctl := { s.ctl with idx := n, spins := 0, phase := .waitDone } }
  else { s with ctl := { s.ctl with idx := n } }

/-- SET_TA_WR after its write (R205). -/
def afterSetTa (_ : Word) (s : State) : State :=
  { s with ctl := { s.ctl with spins := 0, phase := .waitTxd } }

/-- CFG_WR(k) after its write (R203). -/
def afterCfgWr (k : Fin 5) (_ : Word) (s : State) : State :=
  match cfgNext k with
  | some j => toPhase (.cfgRd j) s
  | none => complete s

/-- CFG_RD(k) (R203). -/
def stepCfgRd (k : Fin 5) (s : State) : State :=
  ctlBus (readOf (fieldReg (cfgField k))) (toPhaseTmp (.cfgWr k)) s

/-- CFG_WR(k) (R203). The second case is met by no run: the phase is entered by `cfg` only (log
entry 16). -/
def stepCfgWr (k : Fin 5) (s : State) : State :=
  match s.ctl.cmd with
  | some (.cfg wordMode cs cpha cpol div) =>
    ctlBus (writeOf (fieldReg (cfgField k))
      (insField s.ctl.tmp (cfgField k) (cfgArg wordMode cs cpha cpol div k))) (afterCfgWr k) s
  | some .send | some .send1 | none => s

/-- PUSH (R207). The second case is met by no run: PUSH is left when `idx = |buf|` (log
entry 16). -/
def stepPush (s : State) : State :=
  match s.ctl.buf[s.ctl.idx]? with
  | some b => ctlBus (writeOf .fifo (b.setWidth 32)) afterPush s
  | none => toPhase .waitDone s

/-- One step of the controller (R200, R218). In IDLE it has none. -/
def ctlStep (s : State) : State :=
  match s.ctl.phase with
  | .idle => s
  | .cfgRd k => stepCfgRd k s
  | .cfgWr k => stepCfgWr k s
  | .setTaRd => ctlBus (readOf .cs) (toPhaseTmp .setTaWr) s
  | .setTaWr => ctlBus (writeOf .cs (insField s.ctl.tmp .csTa 1#32)) afterSetTa s
  | .waitTxd => ctlBus (readOf .cs) (afterWaitTxd s) s
  | .push => stepPush s
  | .waitDone => ctlBus (readOf .cs) (afterWaitDone s) s
  | .clrTaRd => ctlBus (readOf .cs) (toPhaseTmp .clrTaWr) s
  | .clrTaWr =>
    ctlBus (writeOf .cs (insField s.ctl.tmp .csTa 0#32)) (fun _ => toPhase .clrFifoRd) s
  | .clrFifoRd => ctlBus (readOf .cs) (toPhaseTmp .clrFifoWr) s
  | .clrFifoWr => ctlBus (writeOf .cs (insField s.ctl.tmp .csClear 3#32)) (fun _ => complete) s

/-- The controller has a step: its phase is not IDLE and nothing is recorded (R200). -/
def ctlReady (s : State) : Bool := live s && decide (s.ctl.phase ≠ .idle)

end Sys2Proof.Machine
end

