-- ==== Sys2Proof/Machine/Engine.lean ====
section
/-! DEFINITION. The serial engine's two steps (spec/42_serial_engine.md R250, R254 to R257, R261). -/

namespace Sys2Proof.Machine

/-- The RX stall: no unit is started while the RX FIFO is full (R257). -/
def rxStalled (s : State) : Bool :=
  s.params.rxStallWhenFull && !decide (s.rxq.length < s.params.rxDepth)

/-- SHIFT_START is enabled (R254). -/
def shiftStartReady (s : State) : Bool :=
  live s && (taSet s && (!s.txq.isEmpty && (s.shifter.isNone && !rxStalled s)))

/-- SHIFT_END is enabled (R255). -/
def shiftEndReady (s : State) : Bool := live s && (taSet s && s.shifter.isSome)

/-- SHIFT_START, where it is enabled (R254, R261). -/
def shiftStart (s : State) : State :=
  match s.txq with
  | [] => s
  | u :: left =>
    if chipSelect s = 3#2 then raise (.reservedChipSelect u) s
    else { s with shifter := some u, txq := left }

/-- SHIFT_END, where it is enabled (R255). -/
def shiftEnd (s : State) : State :=
  match s.shifter with
  | some u => finishUnit u s
  | none => s

/-- The engine has a step (R250). -/
def engineReady (s : State) : Bool := shiftStartReady s || shiftEndReady s

/-- One step of the engine: the enabled one of the two, which exclude each other. -/
def engineStep (s : State) : State :=
  if shiftEndReady s then shiftEnd s else if shiftStartReady s then shiftStart s else s

end Sys2Proof.Machine
end

