-- ==== Sys2Proof/Machine/HostAgent.lean ====
section
/-! DEFINITION. The host agent: the next operation of a host thread, when a thread has a step, and
the host's operations that are no rows of the opcode table (spec/41_handshake_controller.md R201,
R217; spec/40_register_access.md R157 to R159; spec/60_exceptions.md R317). -/

namespace Sys2Proof.Machine

/-- A host operation other than one of the fifteen instructions. -/
inductive HostAct where
  | access (x : Access)
  | malformed (r : Reserved)
  | getf (f : Field)
  | setf (f : Field) (x : Word)
  | setfWrite (f : Field) (x v : Word)
  | pollf (f : PollFlag) (spins : Nat)
  | pollTest (f : PollFlag) (spins : Nat) (v : Word)
  deriving DecidableEq, Repr

/-- What a thread's next step is. -/
inductive HostNext where
  | instr (i : Instr)
  | act (a : HostAct)
  deriving DecidableEq, Repr

/-- What is left of a program after an operation was read off a stream. -/
def keepStream (left : List Byte) (rest : List HostOp) : List HostOp :=
  match left with
  | [] => rest
  | b :: bs => .stream (b :: bs) :: rest

/-- The next operation of a program and the program after it; none where no whole operation is
left (log entry 13). -/
def takeOp : List HostOp → Option (HostNext × List HostOp)
  | [] => none
  | .stream [] :: rest => takeOp rest
  | .stream (b :: bs) :: rest =>
    match decode (b :: bs) with
    | (.instr i, left) => some (.instr i, keepStream left rest)
    | (.badAccess dir off, left) =>
      some (.act (.access ⟨dir, off.toNat, 4, 0#32⟩), keepStream left rest)
    | (.reserved r, left) => some (.act (.malformed r), keepStream left rest)
    | (.truncated, _) => none
  | .access x :: rest => some (.act (.access x), rest)
  | .getf f :: rest => some (.act (.getf f), rest)
  | .setf f x :: rest => some (.act (.setf f x), rest)
  | .setfWrite f x v :: rest => some (.act (.setfWrite f x v), rest)
  | .pollf f n :: rest => some (.act (.pollf f n), rest)
  | .pollTest f n v :: rest => some (.act (.pollTest f n v), rest)
  | .push b :: rest => some (.instr (.wrFifo (b.setWidth 32)), rest)

/-- A level-2 command, which only an IDLE controller takes (R201). -/
def isCommand : Instr → Bool
  | .cfg _ _ _ _ _ => true
  | .send _ => true
  | .send1 _ => true
  | .rdCs | .rdFifo | .rdClk | .rdDlen | .rdLtoh | .rdDc => false
  | .wrCs _ | .wrFifo _ | .wrClk _ | .wrDlen _ | .wrLtoh _ | .wrDc _ => false

/-- The operation waits while a command is in progress (R201). -/
def waitsForIdle : HostNext → Bool
  | .instr i => isCommand i
  | .act _ => false

/-- Host thread `k` has a step (R201, spec/90_conflicts.md C6): it has a whole operation left, it is
not the thread whose command is in progress, and its operation is no command while one is. -/
def hostReady (s : State) (k : Nat) : Bool :=
  live s &&
    match s.threads[k]? with
    | none => false
    | some th =>
      match takeOp th.todo with
      | none => false
      | some (op, _) =>
        decide (s.ctl.phase = .idle) || (decide (k ≠ s.owner) && !waitsForIdle op)

/-- The next operation of thread `k`, and the state once the thread has issued it: its program is
moved on, and a command makes the thread the owner (R201). -/
def fetch (k : Nat) (s : State) : Option (HostNext × State) :=
  match s.threads[k]? with
  | none => none
  | some th =>
    match takeOp th.todo with
    | none => none
    | some (op, rest) =>
      some (op, { s with
        threads := s.threads.set k { th with todo := rest }
        owner := if waitsForIdle op then k else s.owner })

/-- An operation put before what thread `k` has left. -/
def putBack (k : Nat) (op : HostOp) (s : State) : State :=
  { s with threads := s.threads.modify k fun th => { th with todo := op :: th.todo } }

/-- The value a `getf` gives thread `k` (R157). -/
def setGot (k : Nat) (x : Word) (s : State) : State :=
  { s with threads := s.threads.modify k fun th => { th with got := x } }

/-- The host's access, and then what the host does with the value. -/
def hostThen (x : Access) (andThen : Word → State → State) (s : State) : State :=
  match transact .host x s with
  | .ok (v, t) => andThen v (giveHost x v t)
  | .error e => recordStop e s

/-- The field a `pollf` waits for (R159). -/
def pollField : PollFlag → Field
  | .txd => .csTxd
  | .done => .csDone

/-- The host's test of a polled value (R159): done, or one more failed poll, the limit, and
around again. It makes no transaction (log entry 9). -/
def pollTestStep (k : Nat) (f : PollFlag) (n : Nat) (v : Word) (s : State) : State :=
  if getField v (pollField f) = 1#32 then s
  else
    match s.params.spinLimit with
    | none => putBack k (.pollf f (n + 1)) s
    | some limit =>
      if limit ≤ n + 1 then raise (.transferTimeout s.ctl.phase (n + 1)) s
      else putBack k (.pollf f (n + 1)) s

/-- One step of thread `k` that is no instruction. -/
def hostAct (k : Nat) (a : HostAct) (s : State) : State :=
  match a with
  | .access x => hostAfter x s
  | .malformed r => refuse (.malformedWord r) s
  | .getf f => hostThen (readOf (fieldReg f)) (fun v => setGot k (getField v f)) s
  | .setf f x => hostThen (readOf (fieldReg f)) (fun v => putBack k (.setfWrite f x v)) s
  | .setfWrite f x v => hostAfter (writeOf (fieldReg f) (insField v f x)) s
  | .pollf f n => hostThen (readOf .cs) (fun v => putBack k (.pollTest f n v)) s
  | .pollTest f n v => pollTestStep k f n v s

/-- A thread's program holds nothing more. -/
def programDone (ops : List HostOp) : Bool :=
  ops.all fun op => decide (op = .stream [])

end Sys2Proof.Machine
end

