-- ==== Sys2Proof/Machine/Schedule.lean ====
section
/-! DEFINITION. Which agent steps next (spec/20_memory.md R81, spec/93_implementation_defined.md
U23): the schedule where it says, a free value where it does not (log entry 1). And the end of a
run (spec/60_exceptions.md R318). -/

namespace Sys2Proof.Machine

/-- The agents that have a step, host threads first. -/
def enabledTurns (s : State) : List Turn :=
  ((List.range s.threads.length).filter (hostReady s)).map Turn.host
    ++ ((if ctlReady s then [.ctl] else []) ++ (if engineReady s then [.engine] else []))

/-- A free choice among the enabled agents; a draw is taken only where there are several. -/
def freeTurn (on : List Turn) (s : State) : Option (Turn × State) :=
  match on with
  | [] => none
  | [t] => some (t, s)
  | t :: u :: more =>
    some ((t :: u :: more).getD (Config.drawTurn s.draws % (more.length + 2)) t, drawn s)

/-- The agent that steps next: the head of the schedule if it has a step, else a free choice. A
scheduled turn is used up either way. -/
def chooseTurn (s : State) : Option (Turn × State) :=
  match s.sched with
  | [] => freeTurn (enabledTurns s) s
  | t :: later =>
    if (enabledTurns s).contains t then some (t, { s with sched := later })
    else freeTurn (enabledTurns s) { s with sched := later }

/-- A final state (R318). -/
def isFinal (s : State) : Bool :=
  live s && (s.threads.all (fun th => programDone th.todo)
    && (decide (s.ctl.phase = .idle) && (s.txq.isEmpty && s.shifter.isNone)))

/-- Bytes placed as what host thread 0 does next, with the next turn its own (log entry 14). -/
def placeBytes (bytes : List Byte) (s : State) : State :=
  { s with
    threads :=
      match s.threads with
      | [] => [⟨[.stream bytes], 0#32⟩]
      | th :: more => { th with todo := .stream bytes :: th.todo } :: more
    sched := .host 0 :: s.sched }

end Sys2Proof.Machine
end

