-- ==== Sys2Proof/Machine/Step.lean ====
section
/-! DEFINITION. One step of the machine: one step of the agent whose turn it is. -/

namespace Sys2Proof.Machine

/-- One step. After a fault or a refusal no agent steps (spec/60_exceptions.md R300, R301). With no
enabled agent a final state stays as it is, waiting for the host (R11's hold), and any other state
is stuck (R318; log entry 10). -/
def step (s : State) : Host.Outcome State Fault Refusal :=
  match s.fault with
  | some k => .fault (.raised k)
  | none =>
    match s.refused with
    | some r => .refused (.recorded r)
    | none =>
      match chooseTurn s with
      | none => if isFinal s then .next s else .fault .stuck
      | some (.ctl, t) => .next (ctlStep t)
      | some (.engine, t) => .next (engineStep t)
      | some (.host k, t) =>
        match fetch k t with
        | none => .fault .stuck
        | some (.instr i, u) => exec i u
        | some (.act a, u) => .next (hostAct k a u)

/-- `s` with an instruction, laid out by `tableBytes`, as what the next step fetches: it stands
first in host thread 0's program, and the next turn is that thread's. -/
def State.withFetchWord (s : State) (nbits w : Nat) : State := placeBytes (tableBytes nbits w) s

end Sys2Proof.Machine
end

