-- ==== Sys2Proof/Safety.lean ====
section
/-! DEFINITION. What the claims are stated in: the premises of spec/70_reset_and_hazards.md R342 and
spec/40_register_access.md R140, the invariants of the machine, the observation of a run
(spec/20_memory.md R86), and runs with the fairness of spec/42_serial_engine.md R258. -/

namespace Sys2Proof.Safety

open Sys2Proof.Machine

/-- No fault and no refusal is recorded. -/
structure Live (s : State) : Prop where
  fault : s.fault = none
  refused : s.refused = none

/-- The host may make a level-1 access (R140, R217). -/
structure HostMayAccess (s : State) : Prop where
  fault : s.fault = none
  refused : s.refused = none
  idle : s.ctl.phase = .idle

/-- The clean-entry launch premise (R342). -/
structure CleanEntry (s : State) : Prop where
  access : HostMayAccess s
  inactive : taSet s = false
  txEmpty : s.txq = []
  rxEmpty : s.rxq = []
  shifterIdle : s.shifter = none
  inScope : s.csRw &&& scopeMask = 0#32
  lineExists : chipSelect s ≠ 3#2

/-- What every register and queue keeps: CS stores only its RW bits (R52), the FIFOs respect their
depths (R49, R50), no transfer is active in a mode of R146, only an active transfer has a unit in
the shifter (R254, R259), and at most one stop is recorded. -/
structure RegInv (s : State) : Prop where
  csStored : s.csRw &&& ~~~ rwMask = 0#32
  txBound : s.txq.length ≤ s.params.txDepth
  rxBound : s.rxq.length ≤ s.params.rxDepth
  inScope : taSet s = true → s.csRw &&& scopeMask = 0#32
  shifterActive : s.shifter ≠ none → taSet s = true
  oneStop : s.fault = none ∨ s.refused = none

/-- The controller's last read is CS as it is stored, with CLEAR reading 0. -/
abbrev TmpIsCs (s : State) : Prop :=
  s.ctl.tmp &&& rwMask = s.csRw ∧ s.ctl.tmp &&& clearMask = 0#32

/-- A `cfg` is in progress. -/
abbrev CfgHeld (s : State) : Prop :=
  ∃ wordMode cs cpha cpol div, s.ctl.cmd = some (.cfg wordMode cs cpha cpol div)

/-- Every unit of the transfer has gone out. -/
abbrev Drained (s : State) : Prop := s.txq = [] ∧ s.shifter = none

/-- What holds in each phase of the controller (R200 to R211). -/
def PhaseInv (s : State) : Prop :=
  match s.ctl.phase with
  | .idle => s.ctl = idleCtl
  | .cfgRd _ => CfgHeld s
  | .cfgWr k =>
    CfgHeld s ∧ (if k = 4 then s.ctl.tmp.extractLsb' 0 16 = s.clkCdiv else TmpIsCs s)
  | .setTaRd => s.ctl.idx = 0
  | .setTaWr => s.ctl.idx = 0 ∧ TmpIsCs s
  | .waitTxd => s.ctl.idx = 0 ∧ taSet s = true
  | .push => s.ctl.idx < s.ctl.buf.length ∧ taSet s = true
  | .waitDone => s.ctl.idx = s.ctl.buf.length ∧ taSet s = true
  | .clrTaRd => Drained s ∧ taSet s = true
  | .clrTaWr => Drained s ∧ taSet s = true ∧ TmpIsCs s
  | .clrFifoRd => Drained s ∧ taSet s = false
  | .clrFifoWr => Drained s ∧ taSet s = false ∧ TmpIsCs s

/-- The chip-select line asserted after one more wire event (R264). -/
def lineAfter (line : Option (BitVec 2)) (e : WireEvent) : Option (BitVec 2) :=
  match e with
  | .select cs => some cs
  | .deselect => none
  | .unit _ => line
  | .aborted _ => line

/-- The chip-select line asserted after a wire log (R264). -/
def assertedLine (w : List WireEvent) : Option (BitVec 2) := w.foldl lineAfter none

/-- A wire log that goes on from an asserted line: a frame opens only where none is open, closes
only where one is, and every unit goes out inside a frame of its own chip select (R264). -/
def framed (line : Option (BitVec 2)) : List WireEvent → Bool
  | [] => true
  | e :: more =>
    (match e with
      | .select _ => line.isNone
      | .deselect => line.isSome
      | .unit u => decide (line = some u.cs)
      | .aborted _ => line.isSome) && framed (lineAfter line e) more

/-- The wire log is a sequence of frames, and the open one is that of the active transfer (R144,
R264). -/
structure WireInv (s : State) : Prop where
  frames : framed none s.wire = true
  line : assertedLine s.wire = if taSet s then some (chipSelect s) else none

/-- The bytes a send has yet to write fit the free space of the TX FIFO (R216, R352). -/
def PushFits (s : State) : Prop :=
  match s.ctl.phase with
  | .setTaRd | .setTaWr | .waitTxd | .push =>
    s.txq.length + (s.ctl.buf.length - s.ctl.idx) ≤ s.params.txDepth
  | .idle | .cfgRd _ | .cfgWr _ | .waitDone => True
  | .clrTaRd | .clrTaWr | .clrFifoRd | .clrFifoWr => True

/-- The units that have gone out whole, oldest first. -/
def sentUnits (w : List WireEvent) : List FifoUnit :=
  w.filterMap fun e =>
    match e with
    | .unit u => some u.sent
    | .select _ | .deselect | .aborted _ => none

/-- The units sent, in the shifter and queued, in the order they were written (R49, R254). -/
def unitsInOrder (s : State) : List FifoUnit := sentUnits s.wire ++ s.shifter.toList ++ s.txq

/-- What a run shows the outside (R86): the two logs, the completion of each command, oldest first,
whether every command issued has completed, and the two marks. -/
structure Observation where
  wire : List WireEvent
  trace : List TraceEntry
  completed : List Completion
  commandDone : Bool
  fault : Option FaultKind
  refused : Option RefusalReason
  deriving DecidableEq, Repr

/-- The observation of a state (R86). -/
def observe (s : State) : Observation where
  wire := s.wire
  trace := s.trace
  completed := s.completed
  commandDone := decide (s.ctl.phase = .idle)
  fault := s.fault
  refused := s.refused

/-- A run. Where `step` answers no next state, after a fault or a refusal (R300, R301) and in a
stuck state (R318), the run has stopped and stays as it is. -/
def Run (r : Nat → State) : Prop :=
  ∀ n, step (r n) = .next (r (n + 1)) ∨ ((∀ t, step (r n) ≠ .next t) ∧ r (n + 1) = r n)

/-- The turn taken from a state is the engine's. -/
def engineTakes (s : State) : Prop := ∃ t, chooseTurn s = some (.engine, t)

/-- Weak fairness of the serial engine (R258): it is not enabled for ever without a step. -/
def FairEngine (r : Nat → State) : Prop :=
  ∀ n, ∃ m, n ≤ m ∧ (engineReady (r m) = false ∨ engineTakes (r m))

/-- The controller is in a busy-wait, WAIT_TXD or WAIT_DONE, and nothing has stopped it (R206,
R208). -/
structure Polls (s : State) : Prop where
  live : Live s
  waits : s.ctl.phase = .waitTxd ∨ s.ctl.phase = .waitDone

/-- A command hangs (R302): from some state of the run on, the controller polls for ever. Only the
engine's steps and a bounded number of the host's can come between two polls. -/
def CommandHangs (r : Nat → State) : Prop := ∃ m, ∀ n, m ≤ n → Polls (r n)

/-- An infinite execution (R318): in every state of the run some agent has a step. -/
def Endless (r : Nat → State) : Prop := ∀ n, enabledTurns (r n) ≠ []

/-- A hang (R318): a weakly fair infinite execution, be it the controller that polls for ever
(R302) or the host. -/
structure Hangs (r : Nat → State) : Prop where
  endless : Endless r
  fair : FairEngine r

/-- A stuck state (R318): it is not final, and no agent has a step. A state with a fault or a
refusal recorded is one (R300, R301). -/
structure Stuck (s : State) : Prop where
  notFinal : isFinal s = false
  noStep : enabledTurns s = []

/-- The run shows `o` when it ends: it reaches a final state, whose observation is `o` (R318). -/
def Shows (r : Nat → State) (o : Observation) : Prop :=
  ∃ n, isFinal (r n) = true ∧ observe (r n) = o

/-- The run refutes the observation (R318): by a fault, by a stuck state, which takes in a refusal,
or by a hang. -/
def Refutes (r : Nat → State) : Prop :=
  (∃ n, (r n).fault ≠ none) ∨ (∃ n, Stuck (r n)) ∨ Hangs r

end Sys2Proof.Safety
end

