-- ==== Sys2Proof/Certificates/Slice0/Obligations.lean ====
section
/-! DEFINITION. The statements for the provers, from the numbered rules of spec/. -/

namespace Sys2Proof.Claims

open Sys2Proof.Machine

/-- CS as R52 writes it, flag by flag, without reserved bits. -/
def csRead (s : State) : Word :=
  s.csRw
    ||| (if s.csRw.getLsbD 7 = true ∧ s.txq = [] ∧ s.shifter = none then 0x00010000#32 else 0#32)
    ||| (if s.rxq = [] then 0#32 else 0x00020000#32)
    ||| (if s.txq.length < s.params.txDepth then 0x00040000#32 else 0#32)
    ||| (if s.csRw.getLsbD 7 = true ∧ s.params.rxrLevel ≤ s.rxq.length then 0x00080000#32
          else 0#32)
    ||| (if s.rxq.length = s.params.rxDepth then 0x00100000#32 else 0#32)

/-- The state after a host read of the value `v` at an offset. -/
def afterHostRead (off : Nat) (v : Word) (s : State) : State :=
  { s with trace := s.trace ++ [⟨.host, .rd, off, v⟩], rdata := v }

/-- The trace after one transaction more. -/
def traced (a : Agent) (dir : Dir) (off : Nat) (v : Word) (s : State) : List TraceEntry :=
  s.trace ++ [⟨a, dir, off, v⟩]

/-- A CS write of `v` would change a frozen field while TA = 1 (R145). -/
abbrev Reconfigures (v : Word) (s : State) : Prop :=
  s.csRw.getLsbD 7 = true ∧ (s.csRw ^^^ (v &&& 0x03E0FFCF#32)) &&& 0x02E0004F#32 ≠ 0#32

/-- A CS write of `v` would leave TA = 1 with a mode of R146 set. -/
abbrev LeavesScope (v : Word) : Prop :=
  v.getLsbD 7 = true ∧ (v &&& 0x03E0FFCF#32) &&& 0x01002F00#32 ≠ 0#32

/-- The wire event of a unit finished in `s` (R53, R255). -/
def finished (u rx : FifoUnit) (s : State) : WireEvent :=
  .unit
    { sent := u
      cs := s.csRw.extractLsb' 0 2
      cpol := s.csRw.getLsbD 3
      cpha := s.csRw.getLsbD 2
      cspol := s.csRw.getLsbD 6
      cspolLine := s.csRw.extractLsb' 21 3
      cdiv := s.clkCdiv
      rx := rx }

/-- A queue that takes a unit unless it holds `depth` units. -/
def pushIfRoom (depth : Nat) (u : FifoUnit) (q : List FifoUnit) : List FifoUnit :=
  if q.length < depth then q ++ [u] else q

/-- The bus instructions, each with its direction and offset (R108). -/
def busForm : Instr → Option (Dir × Nat)
  | .rdCs => some (.rd, 0x00)
  | .rdFifo => some (.rd, 0x04)
  | .rdClk => some (.rd, 0x08)
  | .rdDlen => some (.rd, 0x0C)
  | .rdLtoh => some (.rd, 0x10)
  | .rdDc => some (.rd, 0x14)
  | .wrCs _ => some (.wr, 0x00)
  | .wrFifo _ => some (.wr, 0x04)
  | .wrClk _ => some (.wr, 0x08)
  | .wrDlen _ => some (.wr, 0x0C)
  | .wrLtoh _ => some (.wr, 0x10)
  | .wrDc _ => some (.wr, 0x14)
  | .cfg _ _ _ _ _ => none
  | .send _ => none
  | .send1 _ => none

/-- The state with another record of which command runs. -/
def withCmd (c : Option Cmd) (s : State) : State := { s with ctl := { s.ctl with cmd := c } }

/-- The state without the names of the commands that run and have completed. -/
def forgetCmds (s : State) : State :=
  { withCmd none s with completed := s.completed.map fun c => { c with cmd := none } }

/-- `v` was read from register `r` with the fields as they are in `s`: the stored bits are those of
`s` and CLEAR reads 0, whatever the flags of CS and the reserved bits were when it was read. -/
def ReadEarlier (r : Reg) (v : Word) (s : State) : Prop :=
  match r with
  | .cs => v &&& rwMask = s.csRw ∧ v &&& clearMask = 0#32
  | .fifo | .clk | .dlen | .ltoh | .dc => v &&& ~~~ reservedMask r = regValue s r

/-- The moves a transfer and a configuration make through the source's states (R200, R218). -/
def sourceMoves : List (SourceState × SourceState) :=
  [(.idle, .configure), (.configure, .idle), (.idle, .active), (.active, .pushing),
    (.active, .draining), (.pushing, .draining), (.draining, .complete), (.complete, .idle)]

/-- A host program with nothing left in any thread. -/
abbrev HostDone (s : State) : Prop := s.threads.all (fun th => programDone th.todo) = true

end Sys2Proof.Claims

open Sys2Proof Sys2Proof.Machine Sys2Proof.Safety Sys2Proof.Claims

/-! ## Encoding -/

/-- Decoding an encoded well-formed instruction gives it back, whatever follows (R100, R108,
R109). -/
def Obligations.DecodeUndoesEncode : Prop :=
  ∀ (i : Instr) (after : List Byte), WellFormed i → decode (encode i ++ after) = (.instr i, after)

/-- What decodes to an instruction is that instruction's encoding and nothing else (R108, R109,
R111). -/
def Obligations.EncodeUndoesDecode : Prop :=
  ∀ (bytes after : List Byte) (i : Instr), decode bytes = (.instr i, after) →
    WellFormed i ∧ encode i ++ after = bytes

/-- The words of spec/95_test_vectors.md 2.1. -/
def Obligations.SampleWordsDecode : Prop :=
  decode [0x00, 0x00, 0x00, 0x00, 0x00] = (.instr .rdCs, [])
    ∧ decode [0x80, 0x80, 0x10, 0x04, 0x00] = (.instr (.wrCs 0x00041080#32), [])
    ∧ decode [0x40, 0x00, 0x01, 0x1B, 0x00] = (.instr (.cfg 1#1 2#2 1#1 1#1 0x0100#16), [])
    ∧ decode [0x41, 0x02, 0x00, 0x00, 0x00, 0x0A, 0x0F] = (.instr (.send [0x0A, 0x0F]), [])
    ∧ decode [0x42, 0x55, 0x00, 0x00, 0x00] = (.instr (.send1 0x55#8), [])

/-- R103: the opcode bytes 0xC0 to 0xFF are reserved and decode to `reserved`. -/
def Obligations.ReservedFormatIsNoOperation : Prop :=
  ∀ (w : OpWord) (after : List Byte), (opOf w).extractLsb' 6 2 = 3#2 →
    decodeWord w after = (.reserved .reservedFormat, after)

/-- R110: the other words that spell no operation, class by class. -/
def Obligations.MalformedWordsAreClassified : Prop :=
  ∀ (w : OpWord) (after : List Byte),
    let op := opOf w
    let off := (op.extractLsb' 0 6).toNat
    (op.getLsbD 6 = false → off ∉ [0x00, 0x04, 0x08, 0x0C, 0x10, 0x14] →
      decodeWord w after
        = (.badAccess (if op.getLsbD 7 then .wr else .rd) (op.extractLsb' 0 6), after))
    ∧ (op.getLsbD 6 = false → op.getLsbD 7 = false →
        off ∈ [0x00, 0x04, 0x08, 0x0C, 0x10, 0x14] → opdOf w ≠ 0#32 →
        decodeWord w after = (.reserved .nonZeroReadOperand, after))
    ∧ (op.extractLsb' 6 2 = 1#2 → 3 ≤ off →
        decodeWord w after = (.reserved .reservedCommand, after))
    ∧ (op = 0x40#8 → (opdOf w).extractLsb' 21 11 ≠ 0#11 →
        decodeWord w after = (.reserved .reservedOperandBits, after))
    ∧ (op = 0x42#8 → (opdOf w).extractLsb' 8 24 ≠ 0#24 →
        decodeWord w after = (.reserved .reservedOperandBits, after))

/-! ## The step -/

/-- A step that is host thread `k`'s runs the instruction its stream decodes to (R109, R111). What
the step does around `exec` is the model's choice: it moves the thread's program past the word, also
where `exec` records a fault or a refusal (log entry 12), and a command makes the thread the owner
(log entry 3). -/
def Obligations.StepRunsDecodedInstruction : Prop :=
  ∀ (s t : State) (k : Nat) (th : HostThread) (b : Byte) (bs left : List Byte)
    (rest : List HostOp) (i : Instr),
    Live s → chooseTurn s = some (.host k, t) → t.threads[k]? = some th →
    th.todo = .stream (b :: bs) :: rest → decode (b :: bs) = (.instr i, left) →
    step s = exec i { t with
      threads := t.threads.set k { th with todo := keepStream left rest }
      owner := if isCommand i then k else t.owner }

/-- A step on a word that is no operation: a bad access is made by the host, a reserved word is
refused (R110, R301). That the thread's program is moved past the word although the step records a
stop is the model's choice (log entry 12; threads are log entry 3). -/
def Obligations.StepOnMalformedWords : Prop :=
  ∀ (s t : State) (k : Nat) (th : HostThread) (b : Byte) (bs left : List Byte)
    (rest : List HostOp),
    Live s → chooseTurn s = some (.host k, t) → t.threads[k]? = some th →
    th.todo = .stream (b :: bs) :: rest →
    let u := { t with threads := t.threads.set k { th with todo := keepStream left rest } }
    (∀ dir off, decode (b :: bs) = (.badAccess dir off, left) →
      step s = .next { u with fault := some (
        if s.ctl.phase = .idle then .badAccess .host dir off.toNat
        else .concurrentAccess dir off.toNat s.ctl.phase) })
    ∧ (∀ r, decode (b :: bs) = (.reserved r, left) →
        step s = .next { u with refused := some (.malformedWord r) })

/-- A placed word is what the next step runs, and the placing changes nothing the step leaves
behind but thread 0 standing there (log entry 14). -/
def Obligations.PlacedWordRunsNext : Prop :=
  ∀ (s : State) (nbits w : Nat) (i : Instr), HostMayAccess s →
    decode (tableBytes nbits w) = (.instr i, []) →
    step (s.withFetchWord nbits w) = exec i { s with
      threads := if s.threads = [] then [⟨[], 0#32⟩] else s.threads
      owner := if isCommand i then 0 else s.owner }

/-- A recorded fault or refusal is never cleared, since nothing steps after it (R57, R300, R301).
That `step` and every `exec` answer the very fault or refusal recorded is the model's reading (log
entry 8, DEDUCED). -/
def Obligations.StopsAreNeverCleared : Prop :=
  ∀ (s : State),
    (∀ k, s.fault = some k →
      step s = .fault (.raised k) ∧ ∀ i, exec i s = .fault (.raised k))
    ∧ (∀ r, s.fault = none → s.refused = some r →
        step s = .refused (.recorded r) ∧ ∀ i, exec i s = .refused (.recorded r))

/-- Any agent that has a step can be the next to take it, and only such an agent is (R81; log
entry 1: the schedule is the model's form of the free interleaving). -/
def Obligations.EveryEnabledAgentMayStep : Prop :=
  (∀ (s : State) (τ : Turn) (later : List Turn), τ ∈ enabledTurns s →
    chooseTurn { s with sched := τ :: later } = some (τ, { s with sched := later }))
  ∧ ∀ (s t : State) (τ : Turn), chooseTurn s = some (τ, t) → τ ∈ enabledTurns s

/-- In a final state no agent has a step and the machine waits. A stuck state, one with a recorded
fault or refusal among them, is exactly one from which `step` answers no next state, and with neither
recorded it answers the fault `stuck` (R300, R301, R318; the self-loop and the fault `stuck` are the
model's choice, log entry 10, and the answers after a recorded stop are log entry 8). -/
def Obligations.FinalStateWaits : Prop :=
  ∀ (s : State), (isFinal s = true → enabledTurns s = [] ∧ step s = .next s)
    ∧ (Stuck s ↔ ∀ t, step s ≠ .next t)
    ∧ (Stuck s → Live s → step s = .fault .stuck)
    ∧ (s.fault ≠ none ∨ s.refused ≠ none → Stuck s)

/-! ## Reset -/

/-- The reset values of R59, and CS as the first read gives it. The register values are those the
spec marks as general knowledge (log entry 6). That the parameters meet the bounds of R8 is the
shape the model gives the OPEN ones (log entry 4), that the first read of CS has zero in its reserved
bits is the default RESERVED_READ = zero (log entry 5), and that no completion is recorded is the
model's choice (log entry 24). -/
def Obligations.ResetValues : Prop :=
  State.reset.csRw = 0x00001000#32 ∧ State.reset.clkCdiv = 0#16 ∧ State.reset.dlenLen = 0#16
    ∧ State.reset.ltohToh = 1#4 ∧ State.reset.dc = 0x30201020#32
    ∧ State.reset.txq = [] ∧ State.reset.rxq = [] ∧ State.reset.shifter = none
    ∧ State.reset.wire = [] ∧ State.reset.trace = []
    ∧ State.reset.ctl = ⟨.idle, none, [], 0, 0#32, 0⟩
    ∧ State.reset.fault = none ∧ State.reset.refused = none ∧ State.reset.completed = []
    ∧ State.reset.params.Valid
    ∧ ∃ t, exec .rdCs State.reset = .next t ∧ t.rdata = 0x00041000#32

/-- The reset state satisfies the clean-entry premise (R342). -/
def Obligations.ResetIsCleanEntry : Prop := CleanEntry State.reset

/-! ## Bus reads -/

/-- `rd.cs` completes with the fields and flags of R52, and reserved bits as R43 says. -/
def Obligations.RdCsReturnsFieldsAndFlags : Prop :=
  ∀ (s : State), HostMayAccess s →
    (s.params.reservedRead = .zero →
      exec .rdCs s = .next (afterHostRead 0x00 (csRead s) s))
    ∧ (s.params.reservedRead = .draw → ∃ r : Word,
        exec .rdCs s = .next { afterHostRead 0x00 (csRead s ||| (r &&& 0xFC000000#32)) s with
          draws := s.draws + 1 })

/-- `rd.fifo` completes: it pops the head, or gives an unconstrained value and pops nothing
(R147). -/
def Obligations.RdFifoPopsOrDraws : Prop :=
  ∀ (s : State), HostMayAccess s →
    (∀ b left, s.rxq = .byte b :: left →
      exec .rdFifo s = .next { afterHostRead 0x04 (b.setWidth 32) s with rxq := left })
    ∧ (∀ v left, s.rxq = .word v :: left →
        exec .rdFifo s = .next { afterHostRead 0x04 v s with rxq := left })
    ∧ (s.rxq = [] → ∃ v : Word,
        exec .rdFifo s = .next { afterHostRead 0x04 v s with draws := s.draws + 1 })

/-- `rd.clk`, `rd.dlen`, `rd.ltoh` and `rd.dc` complete with the stored field, and reserved bits as
R43 says (R149, R151, R153, R155). -/
def Obligations.PlainReadsReturnStoredFields : Prop :=
  ∀ (s : State), HostMayAccess s →
    exec .rdDc s = .next (afterHostRead 0x14 s.dc s)
    ∧ (s.params.reservedRead = .zero →
        exec .rdClk s = .next (afterHostRead 0x08 (s.clkCdiv.setWidth 32) s)
        ∧ exec .rdDlen s = .next (afterHostRead 0x0C (s.dlenLen.setWidth 32) s)
        ∧ exec .rdLtoh s = .next (afterHostRead 0x10 (s.ltohToh.setWidth 32) s))
    ∧ (s.params.reservedRead = .draw → ∃ r : Word,
        exec .rdClk s = .next { afterHostRead 0x08
          (s.clkCdiv.setWidth 32 ||| (r &&& 0xFFFF0000#32)) s with draws := s.draws + 1 }
        ∧ exec .rdDlen s = .next { afterHostRead 0x0C
          (s.dlenLen.setWidth 32 ||| (r &&& 0xFFFF0000#32)) s with draws := s.draws + 1 }
        ∧ exec .rdLtoh s = .next { afterHostRead 0x10
          (s.ltohToh.setWidth 32 ||| (r &&& 0xFFFFFFF0#32)) s with draws := s.draws + 1 })

/-- Frame of the six bus reads: but for the popped unit of `rd.fifo`, they leave every register,
queue, log and controller field as it was, and every byte of the window other than CS reads as
before (R76). -/
def Obligations.ReadsFrame : Prop :=
  ∀ (s t : State) (i : Instr), i ∈ [.rdCs, .rdFifo, .rdClk, .rdDlen, .rdLtoh, .rdDc] →
    exec i s = .next t →
    t.csRw = s.csRw ∧ t.clkCdiv = s.clkCdiv ∧ t.dlenLen = s.dlenLen ∧ t.ltohToh = s.ltohToh
      ∧ t.dc = s.dc ∧ t.txq = s.txq ∧ t.shifter = s.shifter ∧ t.wire = s.wire ∧ t.ctl = s.ctl
      ∧ t.refused = s.refused ∧ t.params = s.params ∧ t.threads = s.threads ∧ t.owner = s.owner
      ∧ t.sched = s.sched ∧ t.completed = s.completed
      ∧ (i ≠ .rdFifo → t.rxq = s.rxq ∧ ∀ off, windowByte t off = windowByte s off)
      ∧ (i = .rdFifo → (t.rxq = s.rxq ∨ t.rxq = s.rxq.tail)
          ∧ ∀ off, 4 ≤ off → windowByte t off = windowByte s off)

/-- R252: DONE, as a CS read shows it, and what clears and sets it: a FIFO write and a CS write that
clears TA clear it, by either agent, no read does, and SHIFT_END sets it with nothing queued. -/
def Obligations.DoneFlagFollowsItsFormula : Prop :=
  ∀ (s : State), RegInv s →
    (doneFlag s = true ↔ s.csRw.getLsbD 7 = true ∧ s.txq = [] ∧ s.shifter = none)
    ∧ (HostMayAccess s → ∃ t, exec .rdCs s = .next t ∧ t.rdata.getLsbD 16 = doneFlag s)
    ∧ (∀ a v w t, transact a (writeOf .fifo v) s = .ok (w, t) → doneFlag t = false)
    ∧ (∀ a v w t, transact a (writeOf .cs v) s = .ok (w, t) → v.getLsbD 7 = false →
        doneFlag t = false)
    ∧ (∀ a r w t, transact a (readOf r) s = .ok (w, t) → doneFlag t = doneFlag s)
    ∧ (shiftEndReady s = true → (doneFlag (engineStep s) = true ↔ s.txq = []))

/-! ## Bus writes -/

/-- `wr.cs` completes where no unit in the shifter is at stake: the RW bits are stored, CLEAR acts
first, a TA change puts its event on the wire (R142 to R144). -/
def Obligations.WrCsStoresClearsAndSwitches : Prop :=
  ∀ (s : State) (v : Word), HostMayAccess s → ¬ Reconfigures v s → ¬ LeavesScope v →
    (s.shifter = none ∨
      (v.getLsbD 4 = false ∧ (s.csRw.getLsbD 7 = true → v.getLsbD 7 = true))) →
    exec (.wrCs v) s = .next { s with
      csRw := v &&& 0x03E0FFCF#32
      txq := if v.getLsbD 4 then [] else s.txq
      rxq := if v.getLsbD 5 then [] else s.rxq
      wire := s.wire ++
        (if s.csRw.getLsbD 7 = false ∧ v.getLsbD 7 = true then [.select (v.extractLsb' 0 2)]
         else if s.csRw.getLsbD 7 = true ∧ v.getLsbD 7 = false then [.deselect] else [])
      trace := traced .host .wr 0x00 v s }

/-- A `wr.cs` that clears TA with a unit in the shifter completes: the unit is finished or aborted
before the deselect, by a draw (R259), also where the same write clears the TX FIFO (R260). -/
def Obligations.ClearingTaFinishesOrAborts : Prop :=
  ∀ (s : State) (v : Word) (u : FifoUnit), HostMayAccess s → ¬ Reconfigures v s →
    s.shifter = some u → s.csRw.getLsbD 7 = true → v.getLsbD 7 = false →
    ∃ n, (∃ rx, unitWidth rx = unitWidth u ∧
      exec (.wrCs v) s = .next { s with
        csRw := v &&& 0x03E0FFCF#32
        txq := if v.getLsbD 4 then [] else s.txq
        rxq := pushIfRoom s.params.rxDepth rx (if v.getLsbD 5 then [] else s.rxq)
        shifter := none
        wire := s.wire ++ [finished u rx s, .deselect]
        trace := traced .host .wr 0x00 v s
        draws := n })
      ∨ exec (.wrCs v) s = .next { s with
        csRw := v &&& 0x03E0FFCF#32
        txq := if v.getLsbD 4 then [] else s.txq
        rxq := if v.getLsbD 5 then [] else s.rxq
        shifter := none
        wire := s.wire ++ [.aborted (unitValue u), .deselect]
        trace := traced .host .wr 0x00 v s
        draws := n }

/-- A `wr.cs` that clears the TX FIFO while TA stays 1, with a unit in the shifter, completes: the
unit is kept or discarded, by a draw (R260). -/
def Obligations.TxClearKeepsOrDiscards : Prop :=
  ∀ (s : State) (v : Word) (u : FifoUnit), HostMayAccess s → ¬ Reconfigures v s →
    ¬ LeavesScope v → s.shifter = some u → s.csRw.getLsbD 7 = true → v.getLsbD 7 = true →
    v.getLsbD 4 = true →
    exec (.wrCs v) s = .next { s with
        csRw := v &&& 0x03E0FFCF#32
        txq := []
        rxq := if v.getLsbD 5 then [] else s.rxq
        trace := traced .host .wr 0x00 v s
        draws := s.draws + 1 }
      ∨ exec (.wrCs v) s = .next { s with
        csRw := v &&& 0x03E0FFCF#32
        txq := []
        rxq := if v.getLsbD 5 then [] else s.rxq
        shifter := none
        wire := s.wire ++ [.aborted (unitValue u)]
        trace := traced .host .wr 0x00 v s
        draws := s.draws + 1 }

/-- A CS write that changes a frozen field while TA = 1 faults, by the host or by the controller,
and changes no other state; the mask covers bits 25, 23:21, 6 and 3:0 (R145, R300). That the fault
records the whole word written, and not its stored bits, is the model's reading (log entry 15,
DEDUCED). -/
def Obligations.ReconfigureWhileActiveFaults : Prop :=
  (∀ (s : State) (v : Word), Reconfigures v s →
    (HostMayAccess s → exec (.wrCs v) s = .next { s with
      fault := some (.reconfigureWhileActive .cs s.csRw v) })
    ∧ ∀ k, ctlBus (writeOf .cs v) k s = { s with
        fault := some (.reconfigureWhileActive .cs s.csRw v) })
  ∧ ∀ i, (0x02E0004F#32).getLsbD i = true ↔ i ∈ [25, 23, 22, 21, 6, 3, 2, 1, 0]

/-- R146: a CS write that leaves TA = 1 with an out-of-scope mode set is refused, unless R145 faults
it first; with TA = 0 before and after, such bits are only stored. -/
def Obligations.OutOfScopeModeIsRefused : Prop :=
  ∀ (s : State) (v : Word), ¬ Reconfigures v s →
    (LeavesScope v →
      (HostMayAccess s → exec (.wrCs v) s = .next { s with refused := some .outOfScopeMode })
      ∧ ∀ k, ctlBus (writeOf .cs v) k s = { s with refused := some .outOfScopeMode })
    ∧ (HostMayAccess s → s.csRw.getLsbD 7 = false → v.getLsbD 7 = false →
        v.extractLsb' 4 2 = 0#2 →
        exec (.wrCs v) s = .next { s with
          csRw := v &&& 0x03E0FFCF#32, trace := traced .host .wr 0x00 v s })

/-- Frame of `wr.cs`: CLK, DLEN, LTOH, DC, the controller, the parameters, the host's side and the
window's bytes from CLK on are as before (R77, R142). -/
def Obligations.WrCsFrame : Prop :=
  ∀ (s t : State) (v : Word), exec (.wrCs v) s = .next t →
    t.clkCdiv = s.clkCdiv ∧ t.dlenLen = s.dlenLen ∧ t.ltohToh = s.ltohToh ∧ t.dc = s.dc
      ∧ t.ctl = s.ctl ∧ t.params = s.params ∧ t.rdata = s.rdata ∧ t.threads = s.threads
      ∧ t.owner = s.owner ∧ t.sched = s.sched ∧ t.completed = s.completed
      ∧ ∀ off, 4 ≤ off → windowByte t off = windowByte s off

/-- `wr.fifo` completes with TA = 1 and a free slot: it pushes the low byte, or the word with
LEN_LONG = 1 (R148). -/
def Obligations.WrFifoPushesOneUnit : Prop :=
  ∀ (s : State) (v : Word), HostMayAccess s → s.csRw.getLsbD 7 = true →
    s.txq.length < s.params.txDepth →
    exec (.wrFifo v) s = .next { s with
      txq := s.txq ++ [if s.csRw.getLsbD 25 then .word v else .byte (v.extractLsb' 0 8)]
      trace := traced .host .wr 0x04 v s }

/-- `wr.fifo` faults with TA = 0, else with a full TX FIFO, and changes nothing else (R148, R307,
R350). -/
def Obligations.WrFifoFaultsInactiveOrFull : Prop :=
  ∀ (s : State) (v : Word), HostMayAccess s →
    (s.csRw.getLsbD 7 = false →
      exec (.wrFifo v) s = .next { s with fault := some (.fifoWriteInactive .host v) })
    ∧ (s.csRw.getLsbD 7 = true → s.txq.length = s.params.txDepth →
        exec (.wrFifo v) s = .next { s with fault := some (.txOverflow .host v) })

/-- `wr.clk` stores bits 15:0, unless it would change CDIV while TA = 1, which faults (R150). That
the fault records CDIV zero-extended and the whole word written is the model's reading (log entry 15,
DEDUCED). -/
def Obligations.WrClkStoresOrFaults : Prop :=
  ∀ (s : State) (v : Word), HostMayAccess s →
    ((s.csRw.getLsbD 7 = true → v.extractLsb' 0 16 = s.clkCdiv) →
      exec (.wrClk v) s = .next { s with
        clkCdiv := v.extractLsb' 0 16, trace := traced .host .wr 0x08 v s })
    ∧ (s.csRw.getLsbD 7 = true → v.extractLsb' 0 16 ≠ s.clkCdiv →
        exec (.wrClk v) s = .next { s with
          fault := some (.reconfigureWhileActive .clk (s.clkCdiv.setWidth 32) v) })

/-- R152, R154, R156: `wr.dlen`, `wr.ltoh` and `wr.dc` complete, store their field and do nothing
else; their encodings and examples. -/
def Obligations.WrDlenLtohDcOnlyStore : Prop :=
  (∀ (s : State) (v : Word), HostMayAccess s →
    exec (.wrDlen v) s = .next { s with
      dlenLen := v.extractLsb' 0 16, trace := traced .host .wr 0x0C v s }
    ∧ exec (.wrLtoh v) s = .next { s with
        ltohToh := v.extractLsb' 0 4, trace := traced .host .wr 0x10 v s }
    ∧ exec (.wrDc v) s = .next { s with dc := v, trace := traced .host .wr 0x14 v s })
  ∧ (∀ v : Word, encodeWord (.wrDlen v) = opWord 0x8C#8 v
      ∧ encodeWord (.wrLtoh v) = opWord 0x90#8 v ∧ encodeWord (.wrDc v) = opWord 0x94#8 v)
  ∧ (0xFFFF0002#32).extractLsb' 0 16 = 0x0002#16 ∧ (0x1F#32).extractLsb' 0 4 = 0xF#4
  ∧ ∀ s : State, HostMayAccess s → ∃ t u, exec (.wrDc 0#32) s = .next t
      ∧ exec .rdDc t = .next u ∧ u.rdata = 0#32

/-- Frame of the other bus writes: each leaves every register but its own, the RX FIFO, the
shifter, the wire, the controller and the host's side as they were (R77). -/
def Obligations.OtherWritesFrame : Prop :=
  ∀ (s t : State) (v : Word) (i : Instr),
    i ∈ [.wrFifo v, .wrClk v, .wrDlen v, .wrLtoh v, .wrDc v] → exec i s = .next t →
    t.csRw = s.csRw ∧ t.rxq = s.rxq ∧ t.shifter = s.shifter ∧ t.wire = s.wire ∧ t.ctl = s.ctl
      ∧ t.refused = s.refused ∧ t.params = s.params ∧ t.rdata = s.rdata ∧ t.threads = s.threads
      ∧ t.owner = s.owner ∧ t.sched = s.sched ∧ t.draws = s.draws ∧ t.completed = s.completed
      ∧ (i ≠ .wrFifo v → t.txq = s.txq) ∧ (i ≠ .wrClk v → t.clkCdiv = s.clkCdiv)
      ∧ (i ≠ .wrDlen v → t.dlenLen = s.dlenLen) ∧ (i ≠ .wrLtoh v → t.ltohToh = s.ltohToh)
      ∧ (i ≠ .wrDc v → t.dc = s.dc)

/-! ## Admission -/

/-- While the controller is not IDLE a level-1 transaction by the host raises ConcurrentAccess,
whatever it is, and a second command is not taken; while it is IDLE no transaction does (R201, R217).
That `exec` of a command at a busy controller answers the unchanged state is the model's form of 'has
no step' (log entry 11, DEDUCED). -/
def Obligations.SingleOwner : Prop :=
  ∀ (s : State), Live s →
    (s.ctl.phase ≠ .idle →
      (∀ x, hostBus x s = .next { s with
        fault := some (.concurrentAccess x.dir x.off s.ctl.phase) })
      ∧ (∀ i dir off, busForm i = some (dir, off) → exec i s = .next { s with
          fault := some (.concurrentAccess dir off s.ctl.phase) })
      ∧ ∀ i, busForm i = none → exec i s = .next s)
    ∧ (s.ctl.phase = .idle → ∀ x t, hostBus x s = .next t →
        ∀ dir off p, t.fault ≠ some (.concurrentAccess dir off p))

/-- A host access at no register's offset, or of a width other than 4 bytes, raises BadAccess and
changes nothing else (R71, R73, R74, R140). -/
def Obligations.BadAccessFaults : Prop :=
  ∀ (s : State) (x : Access), HostMayAccess s →
    (x.width ≠ 4 ∨ x.off ∉ [0x00, 0x04, 0x08, 0x0C, 0x10, 0x14]) →
    hostBus x s = .next { s with fault := some (.badAccess .host x.dir x.off) }

/-! ## Commands -/

/-- `cfg`, `send` and `send1` complete their issue at an IDLE controller: the operands are held and
the phase is the command's first (R201, R202, R204, R212). -/
def Obligations.CommandsStartTheController : Prop :=
  ∀ (s : State), HostMayAccess s →
    (∀ wordMode cs cpha cpol div,
      exec (.cfg wordMode cs cpha cpol div) s = .next { s with ctl := { s.ctl with
        phase := .cfgRd 0, cmd := some (.cfg wordMode cs cpha cpol div) } })
    ∧ (∀ payload, exec (.send payload) s = .next { s with ctl := { s.ctl with
        phase := .setTaRd, cmd := some .send, buf := payload, idx := 0 } })
    ∧ (∀ b, exec (.send1 b) s = .next { s with ctl := { s.ctl with
        phase := .setTaRd, cmd := some .send1, buf := [b], idx := 0 } })

/-- Frame of the commands: issuing one changes the controller and nothing else, at once (R201). That
`exec` of a command at a busy controller answers the unchanged state is the model's form of 'has no
step' (log entry 11, DEDUCED). -/
def Obligations.CommandsFrame : Prop :=
  ∀ (s t : State) (i : Instr), busForm i = none → exec i s = .next t →
    t = { s with ctl := t.ctl } ∧ (s.ctl.phase ≠ .idle → t = s)

/-- A `send1` runs as a `send` of one byte: no step of the controller but those of a `cfg` depends
on which command is recorded, but for the name in its completion (R212). -/
def Obligations.Send1RunsAsSend : Prop :=
  (∀ (s : State) (b : Byte) (t u : State), exec (.send1 b) s = .next t →
    exec (.send [b]) s = .next u → forgetCmds t = forgetCmds u)
  ∧ ∀ (s : State) (c : Option Cmd), (∀ k, s.ctl.phase ≠ .cfgWr k) →
    forgetCmds (ctlStep (withCmd c s)) = forgetCmds (ctlStep s)

/-! ## The controller -/

/-- WAIT_TXD reads CS once: with TXD = 1 it goes on to PUSH, or to WAIT_DONE for no byte; with
TXD = 0 it stays, one failed poll more (R206), within the spin limit. What it holds of the read, and
what the trace logs, is CS as R52 gives it, but for the reserved bits of R43. -/
def Obligations.WaitTxdPolls : Prop :=
  ∀ (s : State), RegInv s → s.ctl.phase = .waitTxd →
    ∃ v n, v &&& 0x03FFFFFF#32 = csRead s ∧
      v.getLsbD 18 = decide (s.txq.length < s.params.txDepth) ∧
      (s.txq.length < s.params.txDepth → ctlStep s = { s with
        ctl := { s.ctl with
          tmp := v, spins := 0, phase := if s.ctl.buf = [] then .waitDone else .push }
        trace := traced .ctl .rd 0x00 v s
        draws := n })
      ∧ (¬ s.txq.length < s.params.txDepth → (∀ k, s.params.spinLimit = some k →
          s.ctl.spins + 1 < k) → ctlStep s = { s with
            ctl := { s.ctl with tmp := v, spins := s.ctl.spins + 1 }
            trace := traced .ctl .rd 0x00 v s
            draws := n })

/-- WAIT_DONE reads CS once: with DONE = 1 it goes on to clear TA; with DONE = 0 it stays, one failed
poll more (R208), within the spin limit. What it holds of the read, and what the trace logs, is CS as
R52 gives it, but for the reserved bits of R43. -/
def Obligations.WaitDonePolls : Prop :=
  ∀ (s : State), RegInv s → s.ctl.phase = .waitDone →
    let done := s.csRw.getLsbD 7 = true ∧ s.txq = [] ∧ s.shifter = none
    ∃ v n, v &&& 0x03FFFFFF#32 = csRead s ∧ (v.getLsbD 16 = true ↔ done) ∧
      (done → ctlStep s = { s with
        ctl := { s.ctl with tmp := v, phase := .clrTaRd }
        trace := traced .ctl .rd 0x00 v s
        draws := n })
      ∧ (¬ done → (∀ k, s.params.spinLimit = some k → s.ctl.spins + 1 < k) →
          ctlStep s = { s with
            ctl := { s.ctl with tmp := v, spins := s.ctl.spins + 1 }
            trace := traced .ctl .rd 0x00 v s
            draws := n })

/-- With SPIN_LIMIT = k the k-th failed poll of a wait raises TransferTimeout, and the step leaves
nothing else behind (R215, R300; log entry 9 on what it leaves). -/
def Obligations.SpinLimitFaults : Prop :=
  ∀ (s : State) (k : Nat), RegInv s → s.params.spinLimit = some k → k ≤ s.ctl.spins + 1 →
    (s.ctl.phase = .waitTxd ∧ ¬ s.txq.length < s.params.txDepth)
      ∨ (s.ctl.phase = .waitDone
          ∧ ¬(s.csRw.getLsbD 7 = true ∧ s.txq = [] ∧ s.shifter = none)) →
    ctlStep s = { s with
      fault := some (.transferTimeout s.ctl.phase (s.ctl.spins + 1)) }

/-- PUSH writes one byte and counts it, going on to WAIT_DONE after the last; into a full TX FIFO it
faults (R207, R216). -/
def Obligations.PushWritesOneByte : Prop :=
  ∀ (s : State) (b : Byte), s.ctl.phase = .push → s.ctl.buf[s.ctl.idx]? = some b →
    s.csRw.getLsbD 7 = true →
    (s.txq.length ≠ s.params.txDepth → ctlStep s = { s with
      txq := s.txq ++ [if s.csRw.getLsbD 25 then .word (b.setWidth 32) else .byte b]
      trace := traced .ctl .wr 0x04 (b.setWidth 32) s
      ctl := if s.ctl.idx + 1 = s.ctl.buf.length
        then { s.ctl with idx := s.ctl.idx + 1, spins := 0, phase := .waitDone }
        else { s.ctl with idx := s.ctl.idx + 1 } })
    ∧ (s.txq.length = s.params.txDepth → ctlStep s = { s with
        fault := some (.txOverflow .ctl (b.setWidth 32)) })

/-- The controller enters PUSH only from a WAIT_TXD step that found a free slot, and the phases that
clear TA only from a WAIT_DONE step that found DONE = 1 (R206, R208, R351, R353). -/
def Obligations.PushAfterTxdAndClearAfterDone : Prop :=
  ∀ (s t : State), RegInv s → step s = .next t →
    (t.ctl.phase = .push → s.ctl.phase = .push
      ∨ (s.ctl.phase = .waitTxd ∧ s.txq.length < s.params.txDepth))
    ∧ (t.ctl.phase = .clrTaRd → s.ctl.phase = .clrTaRd
        ∨ (s.ctl.phase = .waitDone ∧ s.csRw.getLsbD 7 = true ∧ s.txq = []
            ∧ s.shifter = none))
    ∧ (t.ctl.phase = .clrTaWr → s.ctl.phase = .clrTaWr ∨ s.ctl.phase = .clrTaRd)

/-- Every step moves the controller along the source's states IDLE, ACTIVE, DRAINING, COMPLETE or
through a configuration (R200, R218), and a command completes exactly where the controller goes back
to IDLE (R86, R201, R211; what is recorded of it is the model's choice, log entry 24). -/
def Obligations.ControllerFollowsTheProtocol : Prop :=
  ∀ (s t : State), step s = .next t →
    (sourceState t.ctl.phase = sourceState s.ctl.phase
      ∨ (sourceState s.ctl.phase, sourceState t.ctl.phase) ∈ sourceMoves)
    ∧ t.completed = s.completed
      ++ (if s.ctl.phase ≠ .idle ∧ t.ctl.phase = .idle
          then [⟨s.owner, s.ctl.cmd, t.trace.length⟩] else [])

/-- A `cfg` run of ten controller steps with TA = 0 sets its five fields, changes no other bit of CS
and no other state, and makes ten transactions, after which it has completed (R202, R203, R211, R218;
the record of the completion is log entry 24). -/
def Obligations.CfgSetsItsFiveFields : Prop :=
  ∀ (s : State) (wordMode : BitVec 1) (cs : BitVec 2) (cpha cpol : BitVec 1) (div : BitVec 16),
    RegInv s → s.csRw.getLsbD 7 = false → s.ctl.phase = .cfgRd 0 →
    s.ctl.cmd = some (.cfg wordMode cs cpha cpol div) →
    ∃ r : State, ctlStep^[10] s = { s with
        csRw := r.csRw, clkCdiv := div, ctl := idleCtl, trace := r.trace, draws := r.draws
        completed := s.completed ++ [⟨s.owner, s.ctl.cmd, r.trace.length⟩] }
      ∧ r.csRw.extractLsb' 25 1 = wordMode ∧ r.csRw.extractLsb' 0 2 = cs
      ∧ r.csRw.extractLsb' 2 1 = cpha ∧ r.csRw.extractLsb' 3 1 = cpol
      ∧ r.csRw &&& 0xFDFFFFF0#32 = s.csRw &&& 0xFDFFFFF0#32
      ∧ s.trace <+: r.trace ∧ r.trace.length = s.trace.length + 10

/-- An empty send from a clean entry ends after eight controller steps with no FIFO write and an
empty frame on the wire, and has then completed (R211, R213; the record of the completion is log
entry 24). -/
def Obligations.EmptySendEndsAfterEight : Prop :=
  ∀ (s : State), RegInv s → 1 ≤ s.params.txDepth →
    s.csRw.getLsbD 7 = false → s.txq = [] → s.shifter = none →
    s.csRw &&& 0x01002F00#32 = 0#32 → s.ctl.phase = .setTaRd → s.ctl.buf = [] →
    s.ctl.idx = 0 →
    ∃ added n, ctlStep^[8] s = { s with
        rxq := [], ctl := idleCtl, trace := s.trace ++ added, draws := n
        wire := s.wire ++ [.select (s.csRw.extractLsb' 0 2), .deselect]
        completed := s.completed ++ [⟨s.owner, s.ctl.cmd, s.trace.length + 8⟩] }
      ∧ added.length = 8 ∧ ∀ e ∈ added, e.agent = .ctl ∧ e.off = 0x00

/-- What a completed send leaves: TA = 0, both FIFOs empty, the shifter idle, DONE = 0, TXD = 1 and
an IDLE controller with the completion recorded, with no RW field of CS changed by the last step
(R210, R211; the record's form is log entry 24). -/
def Obligations.CompletionLeavesACleanBlock : Prop :=
  ∀ (s : State), RegInv s → PhaseInv s → s.ctl.phase = .clrFifoWr → 1 ≤ s.params.txDepth →
    let t := ctlStep s
    t.ctl = idleCtl ∧ t.csRw = s.csRw ∧ t.csRw.getLsbD 7 = false ∧ t.txq = [] ∧ t.rxq = []
      ∧ t.shifter = none ∧ doneFlag t = false ∧ txd t = true ∧ t.wire = s.wire
      ∧ t.fault = s.fault ∧ t.refused = s.refused
      ∧ t.completed = s.completed ++ [⟨s.owner, s.ctl.cmd, t.trace.length⟩]

/-- A `send` never reconfigures: no step of the controller in a phase of a send raises
ReconfigureWhileActive (R204, R205). -/
def Obligations.SendNeverReconfigures : Prop :=
  ∀ (s : State), RegInv s → PhaseInv s → s.fault = none → (∀ k, s.ctl.phase ≠ .cfgWr k) →
    ∀ r old new, (ctlStep s).fault ≠ some (.reconfigureWhileActive r old new)

/-! ## The serial engine -/

/-- SHIFT_START takes the head of the TX FIFO, or faults with CS.CS = 3 (R254, R261). -/
def Obligations.ShiftStartTakesTheHead : Prop :=
  ∀ (s : State) (u : FifoUnit) (left : List FifoUnit), Live s → s.csRw.getLsbD 7 = true →
    s.shifter = none → s.txq = u :: left →
    (s.params.rxStallWhenFull = true → s.rxq.length < s.params.rxDepth) →
    engineReady s = true
    ∧ (s.csRw.extractLsb' 0 2 ≠ 3#2 →
        engineStep s = { s with shifter := some u, txq := left })
    ∧ (s.csRw.extractLsb' 0 2 = 3#2 →
        engineStep s = { s with fault := some (.reservedChipSelect u) })

/-- SHIFT_END logs the unit with what was received, whose value nothing fixes, and the RX FIFO takes
that unless it is full (R255, R256). -/
def Obligations.ShiftEndLogsTheUnit : Prop :=
  ∀ (s : State) (u : FifoUnit), Live s → s.csRw.getLsbD 7 = true → s.shifter = some u →
    engineReady s = true
    ∧ ∃ rx, unitWidth rx = unitWidth u ∧ engineStep s = { s with
        shifter := none
        wire := s.wire ++ [finished u rx s]
        rxq := pushIfRoom s.params.rxDepth rx s.rxq
        draws := s.draws + 1 }

/-- The engine has no step while TA = 0, nor with nothing to send, nor to start a unit with the RX
FIFO full under RX_STALL_WHEN_FULL (R254, R255, R257). -/
def Obligations.EngineHoldsWithoutTaOrRoom : Prop :=
  ∀ (s : State),
    (s.csRw.getLsbD 7 = false → engineReady s = false)
    ∧ (s.txq = [] → s.shifter = none → engineReady s = false)
    ∧ (s.params.rxStallWhenFull = true → s.rxq.length = s.params.rxDepth → s.shifter = none →
        engineReady s = false)

/-- The engine keeps the order of the units: what has gone out, what is in the shifter and what is
queued, one after the other, is the sequence of units written (R49, R254); a FIFO write puts its
unit at the end. -/
def Obligations.UnitsKeepTheirOrder : Prop :=
  (∀ s : State, unitsInOrder (engineStep s) = unitsInOrder s)
  ∧ ∀ (s t : State) (v : Word), exec (.wrFifo v) s = .next t → t.fault = none →
    unitsInOrder t = unitsInOrder s
      ++ [if s.csRw.getLsbD 25 then .word v else .byte (v.extractLsb' 0 8)]

/-- An engine step writes no register, no controller field, no trace and no completion: of the
spec's state only the two queues, the shifter, the wire and the fault record (R250, R261). -/
def Obligations.EngineFrame : Prop :=
  ∀ (s : State), let t := engineStep s
    t.csRw = s.csRw ∧ t.clkCdiv = s.clkCdiv ∧ t.dlenLen = s.dlenLen ∧ t.ltohToh = s.ltohToh
      ∧ t.dc = s.dc ∧ t.trace = s.trace ∧ t.ctl = s.ctl ∧ t.refused = s.refused
      ∧ t.params = s.params ∧ t.rdata = s.rdata ∧ t.threads = s.threads ∧ t.owner = s.owner
      ∧ t.sched = s.sched ∧ t.completed = s.completed
      ∧ ∀ off, 4 ≤ off → windowByte t off = windowByte s off

/-! ## Field primitives -/

/-- A field write of an RW field reads back truncated to the field's width, for every field of every
register, whatever reserved bits and flags the word read holds: the engine may have stepped since
the read (R158, R160, R355). -/
def Obligations.FieldWriteReadsBackTruncated : Prop :=
  ∀ (s : State) (f : Field) (x v : Word) (k : Nat), RegInv s → HostMayAccess s →
    fieldClass f = .rw → ReadEarlier (fieldReg f) v s →
    let t := hostAct k (.setfWrite f x v) s
    t.fault = none → t.refused = none →
    getField (regValue t (fieldReg f)) f = truncTo (fieldWidth f) x

/-- A field write leaves every other RW field of every register as it was, whatever reserved bits
and flags the word read holds: the engine may have stepped since the read (R158, R161, R355). -/
def Obligations.FieldWritePreservesOtherFields : Prop :=
  ∀ (s : State) (f g : Field) (x v : Word) (k : Nat), RegInv s → HostMayAccess s →
    fieldClass g = .rw → g ≠ f → ReadEarlier (fieldReg f) v s →
    let t := hostAct k (.setfWrite f x v) s
    t.fault = none → t.refused = none →
    getField (regValue t (fieldReg g)) g = getField (regValue s (fieldReg g)) g

/-- CLEAR reads 0 in every state the machine keeps, and a field write of 3 to it empties both FIFOs,
with or without a unit in the shifter (R26, R143, R158, R355). -/
def Obligations.ClearIsOneShot : Prop :=
  ∀ (s : State), RegInv s →
    getField (csValue s) .csClear = 0#32
    ∧ ∀ (x v : Word) (k : Nat), HostMayAccess s → ReadEarlier .cs v s → truncTo 2 x = 3#32 →
        let t := hostAct k (.setfWrite .csClear x v) s
        t.txq = [] ∧ t.rxq = [] ∧ t.csRw = s.csRw ∧ getField (csValue t) .csClear = 0#32

/-! ## Invariants -/

/-- The register, phase and wire invariants hold at reset (R59). -/
def Obligations.InvariantsAtReset : Prop :=
  RegInv State.reset ∧ PhaseInv State.reset ∧ WireInv State.reset

/-- Every step keeps the register invariant: CS stores RW bits only, the FIFOs respect their depths,
no active transfer is out of scope, and only an active transfer has a unit in the shifter (R49,
R50, R52, R146, R259). -/
def Obligations.RegInvKept : Prop :=
  ∀ (s t : State), RegInv s → step s = .next t → RegInv t

/-- Every step keeps the controller's phase invariant (R200 to R211, R355: no engine step and no
host step disturbs a read-modify-write in progress, and the block stays drained from DONE on). -/
def Obligations.PhaseInvKept : Prop :=
  ∀ (s t : State), RegInv s → PhaseInv s → step s = .next t → PhaseInv t

/-- Every step keeps the wire a sequence of frames, each unit inside a frame of its own chip select,
the open frame that of the active transfer (R144, R214, R264). -/
def Obligations.WireInvKept : Prop :=
  ∀ (s t : State), RegInv s → WireInv s → step s = .next t → WireInv t

/-- A send that fits the free space never overflows: while one runs, each step keeps the bytes left
within the free space and raises no TxOverflow (R216, R352). -/
def Obligations.FittingSendNeverOverflows : Prop :=
  ∀ (s t : State), RegInv s → PhaseInv s → PushFits s → s.ctl.phase ≠ .idle →
    step s = .next t → PushFits t ∧ ∀ a v, t.fault ≠ some (.txOverflow a v)

/-- While TA stays 1, no step changes a frozen field of CS or CDIV (R145, R150, R359). -/
def Obligations.ActiveTransferIsNotReconfigured : Prop :=
  ∀ (s t : State), step s = .next t → s.csRw.getLsbD 7 = true → t.csRw.getLsbD 7 = true →
    t.csRw &&& 0x02E0004F#32 = s.csRw &&& 0x02E0004F#32 ∧ t.clkCdiv = s.clkCdiv

/-- A step makes at most one transaction, only adds to the two logs, and changes no parameter
(R53, R54, R75, R200). -/
def Obligations.LogsGrowByOneTransaction : Prop :=
  ∀ (s t : State), step s = .next t →
    (t.trace = s.trace ∨ ∃ e, t.trace = s.trace ++ [e]) ∧ s.wire <+: t.wire
      ∧ t.params = s.params

/-- A send from a clean entry that fits both FIFOs completes without a fault, in every run with a
fair engine and no other host operation; a run may stop (R302, R258). -/
def Obligations.FittingSendCompletes : Prop :=
  ∀ (r : Nat → State), Run r → FairEngine r → Live (r 0) →
    (r 0).ctl.phase = .setTaRd → (r 0).ctl.idx = 0 →
    (r 0).ctl.buf.length ≤ min (r 0).params.txDepth (r 0).params.rxDepth →
    1 ≤ (r 0).params.txDepth → RegInv (r 0) → (r 0).csRw.getLsbD 7 = false →
    (r 0).txq = [] → (r 0).rxq = [] → (r 0).shifter = none →
    (r 0).csRw &&& 0x01002F00#32 = 0#32 → (r 0).csRw.extractLsb' 0 2 ≠ 3#2 →
    (r 0).params.spinLimit = none → HostDone (r 0) →
    ∃ n, (r n).ctl.phase = .idle ∧ (r n).fault = none ∧ (r n).refused = none
end

