-- ==== Sys2Proof/Laws/Bits.lean ====
section
/-! SUPPORT. Facts about words: the masks of spec/10_state.md R22, field insertion, and what a CS
value is made of. -/

namespace Sys2Proof.Machine

/-- A word with no bit outside a mask is that word masked. -/
theorem and_mask_of_stored (a m : Word) (h : a &&& ~~~ m = 0#32) : a &&& m = a := by
  apply BitVec.eq_of_getLsbD_eq
  intro i hi
  have hb := congrArg (fun w : Word => w.getLsbD i) h
  simp only [BitVec.getLsbD_and, BitVec.getLsbD_not, hi, decide_true, Bool.true_and,
    BitVec.getLsbD_zero] at hb ⊢
  cases ha : a.getLsbD i <;> cases hm : m.getLsbD i <;> simp_all

/-- Masking twice by disjoint masks leaves nothing. -/
theorem and_mask_disjoint (a m n : Word) (h : a &&& ~~~ m = 0#32) (hd : m &&& n = 0#32) :
    a &&& n = 0#32 := by
  rw [← and_mask_of_stored a m h, BitVec.and_assoc, hd, BitVec.and_zero]

/-- What is masked is stored within the mask. -/
theorem masked_stored (a m : Word) : (a &&& m) &&& ~~~ m = 0#32 := by
  rw [BitVec.and_assoc]
  simp

/-- The flags of CS lie in bits 20:16. -/
theorem csFlags_and_rwMask (s : State) : csFlags s &&& rwMask = 0#32 := by
  have h : ∀ a b c d e : Bool, (flagBit a 16 ||| flagBit b 17 ||| flagBit c 18 ||| flagBit d 19
      ||| flagBit e 20) &&& rwMask = 0#32 := by decide
  exact h _ _ _ _ _

theorem csFlags_and_clearMask (s : State) : csFlags s &&& clearMask = 0#32 := by
  have h : ∀ a b c d e : Bool, (flagBit a 16 ||| flagBit b 17 ||| flagBit c 18 ||| flagBit d 19
      ||| flagBit e 20) &&& clearMask = 0#32 := by decide
  exact h _ _ _ _ _

/-- The TXD bit among the flags. -/
theorem getField_csFlags_txd (s : State) :
    getField (csFlags s) .csTxd = if txd s then 1#32 else 0#32 := by
  have h : ∀ a b c d e : Bool, getField (flagBit a 16 ||| flagBit b 17 ||| flagBit c 18
      ||| flagBit d 19 ||| flagBit e 20) .csTxd = if c then 1#32 else 0#32 := by decide
  exact h _ _ _ _ _

/-- The DONE bit among the flags. -/
theorem getField_csFlags_done (s : State) :
    getField (csFlags s) .csDone = if doneFlag s then 1#32 else 0#32 := by
  have h : ∀ a b c d e : Bool, getField (flagBit a 16 ||| flagBit b 17 ||| flagBit c 18
      ||| flagBit d 19 ||| flagBit e 20) .csDone = if a then 1#32 else 0#32 := by decide
  exact h _ _ _ _ _

theorem getField_or (v w : Word) (f : Field) :
    getField (v ||| w) f = getField v f ||| getField w f := by
  apply BitVec.eq_of_getLsbD_eq
  intro i _
  simp only [getField, BitVec.getLsbD_ushiftRight, BitVec.getLsbD_and, BitVec.getLsbD_or,
    Bool.and_or_distrib_right]

/-- A word with no bit in a field reads it as zero. -/
theorem getField_of_disjoint (v : Word) (f : Field) (h : v &&& fieldMask f = 0#32) :
    getField v f = 0#32 := by
  simp [getField, h]

end Sys2Proof.Machine
end

