-- ==== Sys2Proof/Laws/State.lean ====
section
/-! SUPPORT. What each named update of State does to each field, by unfolding, so that no later proof
unfolds a record update. -/

namespace Sys2Proof.Machine

@[simp] theorem raise_csRw (k : FaultKind) (s : State) : (raise k s).csRw = s.csRw := rfl
@[simp] theorem raise_clkCdiv (k : FaultKind) (s : State) : (raise k s).clkCdiv = s.clkCdiv := rfl
@[simp] theorem raise_dlenLen (k : FaultKind) (s : State) : (raise k s).dlenLen = s.dlenLen := rfl
@[simp] theorem raise_ltohToh (k : FaultKind) (s : State) : (raise k s).ltohToh = s.ltohToh := rfl
@[simp] theorem raise_dc (k : FaultKind) (s : State) : (raise k s).dc = s.dc := rfl
@[simp] theorem raise_txq (k : FaultKind) (s : State) : (raise k s).txq = s.txq := rfl
@[simp] theorem raise_rxq (k : FaultKind) (s : State) : (raise k s).rxq = s.rxq := rfl
@[simp] theorem raise_shifter (k : FaultKind) (s : State) : (raise k s).shifter = s.shifter := rfl
@[simp] theorem raise_wire (k : FaultKind) (s : State) : (raise k s).wire = s.wire := rfl
@[simp] theorem raise_trace (k : FaultKind) (s : State) : (raise k s).trace = s.trace := rfl
@[simp] theorem raise_ctl (k : FaultKind) (s : State) : (raise k s).ctl = s.ctl := rfl
@[simp] theorem raise_fault (k : FaultKind) (s : State) : (raise k s).fault = some k := rfl
@[simp] theorem raise_refused (k : FaultKind) (s : State) : (raise k s).refused = s.refused := rfl
@[simp] theorem raise_params (k : FaultKind) (s : State) : (raise k s).params = s.params := rfl
@[simp] theorem raise_completed (k : FaultKind) (s : State) :
    (raise k s).completed = s.completed := rfl
@[simp] theorem raise_rdata (k : FaultKind) (s : State) : (raise k s).rdata = s.rdata := rfl
@[simp] theorem raise_threads (k : FaultKind) (s : State) : (raise k s).threads = s.threads := rfl
@[simp] theorem raise_owner (k : FaultKind) (s : State) : (raise k s).owner = s.owner := rfl
@[simp] theorem raise_sched (k : FaultKind) (s : State) : (raise k s).sched = s.sched := rfl
@[simp] theorem raise_draws (k : FaultKind) (s : State) : (raise k s).draws = s.draws := rfl

@[simp] theorem refuse_csRw (r : RefusalReason) (s : State) : (refuse r s).csRw = s.csRw := rfl
@[simp] theorem refuse_clkCdiv (r : RefusalReason) (s : State) :
    (refuse r s).clkCdiv = s.clkCdiv := rfl
@[simp] theorem refuse_dlenLen (r : RefusalReason) (s : State) :
    (refuse r s).dlenLen = s.dlenLen := rfl
@[simp] theorem refuse_ltohToh (r : RefusalReason) (s : State) :
    (refuse r s).ltohToh = s.ltohToh := rfl
@[simp] theorem refuse_dc (r : RefusalReason) (s : State) : (refuse r s).dc = s.dc := rfl
@[simp] theorem refuse_txq (r : RefusalReason) (s : State) : (refuse r s).txq = s.txq := rfl
@[simp] theorem refuse_rxq (r : RefusalReason) (s : State) : (refuse r s).rxq = s.rxq := rfl
@[simp] theorem refuse_shifter (r : RefusalReason) (s : State) :
    (refuse r s).shifter = s.shifter := rfl
@[simp] theorem refuse_wire (r : RefusalReason) (s : State) : (refuse r s).wire = s.wire := rfl
@[simp] theorem refuse_trace (r : RefusalReason) (s : State) : (refuse r s).trace = s.trace := rfl
@[simp] theorem refuse_ctl (r : RefusalReason) (s : State) : (refuse r s).ctl = s.ctl := rfl
@[simp] theorem refuse_fault (r : RefusalReason) (s : State) : (refuse r s).fault = s.fault := rfl
@[simp] theorem refuse_refused (r : RefusalReason) (s : State) :
    (refuse r s).refused = some r := rfl
@[simp] theorem refuse_params (r : RefusalReason) (s : State) :
    (refuse r s).params = s.params := rfl
@[simp] theorem refuse_completed (r : RefusalReason) (s : State) :
    (refuse r s).completed = s.completed := rfl
@[simp] theorem refuse_rdata (r : RefusalReason) (s : State) : (refuse r s).rdata = s.rdata := rfl
@[simp] theorem refuse_threads (r : RefusalReason) (s : State) :
    (refuse r s).threads = s.threads := rfl
@[simp] theorem refuse_owner (r : RefusalReason) (s : State) : (refuse r s).owner = s.owner := rfl
@[simp] theorem refuse_sched (r : RefusalReason) (s : State) : (refuse r s).sched = s.sched := rfl
@[simp] theorem refuse_draws (r : RefusalReason) (s : State) : (refuse r s).draws = s.draws := rfl

@[simp] theorem drawn_csRw (s : State) : (drawn s).csRw = s.csRw := rfl
@[simp] theorem drawn_clkCdiv (s : State) : (drawn s).clkCdiv = s.clkCdiv := rfl
@[simp] theorem drawn_dlenLen (s : State) : (drawn s).dlenLen = s.dlenLen := rfl
@[simp] theorem drawn_ltohToh (s : State) : (drawn s).ltohToh = s.ltohToh := rfl
@[simp] theorem drawn_dc (s : State) : (drawn s).dc = s.dc := rfl
@[simp] theorem drawn_txq (s : State) : (drawn s).txq = s.txq := rfl
@[simp] theorem drawn_rxq (s : State) : (drawn s).rxq = s.rxq := rfl
@[simp] theorem drawn_shifter (s : State) : (drawn s).shifter = s.shifter := rfl
@[simp] theorem drawn_wire (s : State) : (drawn s).wire = s.wire := rfl
@[simp] theorem drawn_trace (s : State) : (drawn s).trace = s.trace := rfl
@[simp] theorem drawn_ctl (s : State) : (drawn s).ctl = s.ctl := rfl
@[simp] theorem drawn_fault (s : State) : (drawn s).fault = s.fault := rfl
@[simp] theorem drawn_refused (s : State) : (drawn s).refused = s.refused := rfl
@[simp] theorem drawn_params (s : State) : (drawn s).params = s.params := rfl
@[simp] theorem drawn_completed (s : State) : (drawn s).completed = s.completed := rfl
@[simp] theorem drawn_rdata (s : State) : (drawn s).rdata = s.rdata := rfl
@[simp] theorem drawn_threads (s : State) : (drawn s).threads = s.threads := rfl
@[simp] theorem drawn_owner (s : State) : (drawn s).owner = s.owner := rfl
@[simp] theorem drawn_sched (s : State) : (drawn s).sched = s.sched := rfl
@[simp] theorem drawn_draws (s : State) : (drawn s).draws = s.draws + 1 := rfl

@[simp] theorem logAccess_csRw (a : Agent) (x : Access) (v : Word) (s : State) :
    (logAccess a x v s).csRw = s.csRw := rfl
@[simp] theorem logAccess_clkCdiv (a : Agent) (x : Access) (v : Word) (s : State) :
    (logAccess a x v s).clkCdiv = s.clkCdiv := rfl
@[simp] theorem logAccess_dlenLen (a : Agent) (x : Access) (v : Word) (s : State) :
    (logAccess a x v s).dlenLen = s.dlenLen := rfl
@[simp] theorem logAccess_ltohToh (a : Agent) (x : Access) (v : Word) (s : State) :
    (logAccess a x v s).ltohToh = s.ltohToh := rfl
@[simp] theorem logAccess_dc (a : Agent) (x : Access) (v : Word) (s : State) :
    (logAccess a x v s).dc = s.dc := rfl
@[simp] theorem logAccess_txq (a : Agent) (x : Access) (v : Word) (s : State) :
    (logAccess a x v s).txq = s.txq := rfl
@[simp] theorem logAccess_rxq (a : Agent) (x : Access) (v : Word) (s : State) :
    (logAccess a x v s).rxq = s.rxq := rfl
@[simp] theorem logAccess_shifter (a : Agent) (x : Access) (v : Word) (s : State) :
    (logAccess a x v s).shifter = s.shifter := rfl
@[simp] theorem logAccess_wire (a : Agent) (x : Access) (v : Word) (s : State) :
    (logAccess a x v s).wire = s.wire := rfl
@[simp] theorem logAccess_trace (a : Agent) (x : Access) (v : Word) (s : State) :
    (logAccess a x v s).trace = s.trace ++ [⟨a, x.dir, x.off, v⟩] := rfl
@[simp] theorem logAccess_ctl (a : Agent) (x : Access) (v : Word) (s : State) :
    (logAccess a x v s).ctl = s.ctl := rfl
@[simp] theorem logAccess_fault (a : Agent) (x : Access) (v : Word) (s : State) :
    (logAccess a x v s).fault = s.fault := rfl
@[simp] theorem logAccess_refused (a : Agent) (x : Access) (v : Word) (s : State) :
    (logAccess a x v s).refused = s.refused := rfl
@[simp] theorem logAccess_params (a : Agent) (x : Access) (v : Word) (s : State) :
    (logAccess a x v s).params = s.params := rfl
@[simp] theorem logAccess_completed (a : Agent) (x : Access) (v : Word) (s : State) :
    (logAccess a x v s).completed = s.completed := rfl
@[simp] theorem logAccess_rdata (a : Agent) (x : Access) (v : Word) (s : State) :
    (logAccess a x v s).rdata = s.rdata := rfl
@[simp] theorem logAccess_threads (a : Agent) (x : Access) (v : Word) (s : State) :
    (logAccess a x v s).threads = s.threads := rfl
@[simp] theorem logAccess_owner (a : Agent) (x : Access) (v : Word) (s : State) :
    (logAccess a x v s).owner = s.owner := rfl
@[simp] theorem logAccess_sched (a : Agent) (x : Access) (v : Word) (s : State) :
    (logAccess a x v s).sched = s.sched := rfl
@[simp] theorem logAccess_draws (a : Agent) (x : Access) (v : Word) (s : State) :
    (logAccess a x v s).draws = s.draws := rfl

@[simp] theorem abortUnit_csRw (u : FifoUnit) (s : State) : (abortUnit u s).csRw = s.csRw := rfl
@[simp] theorem abortUnit_clkCdiv (u : FifoUnit) (s : State) :
    (abortUnit u s).clkCdiv = s.clkCdiv := rfl
@[simp] theorem abortUnit_dlenLen (u : FifoUnit) (s : State) :
    (abortUnit u s).dlenLen = s.dlenLen := rfl
@[simp] theorem abortUnit_ltohToh (u : FifoUnit) (s : State) :
    (abortUnit u s).ltohToh = s.ltohToh := rfl
@[simp] theorem abortUnit_dc (u : FifoUnit) (s : State) : (abortUnit u s).dc = s.dc := rfl
@[simp] theorem abortUnit_txq (u : FifoUnit) (s : State) : (abortUnit u s).txq = s.txq := rfl
@[simp] theorem abortUnit_rxq (u : FifoUnit) (s : State) : (abortUnit u s).rxq = s.rxq := rfl
@[simp] theorem abortUnit_shifter (u : FifoUnit) (s : State) : (abortUnit u s).shifter = none := rfl
@[simp] theorem abortUnit_wire (u : FifoUnit) (s : State) :
    (abortUnit u s).wire = s.wire ++ [.aborted (unitValue u)] := rfl
@[simp] theorem abortUnit_trace (u : FifoUnit) (s : State) : (abortUnit u s).trace = s.trace := rfl
@[simp] theorem abortUnit_ctl (u : FifoUnit) (s : State) : (abortUnit u s).ctl = s.ctl := rfl
@[simp] theorem abortUnit_fault (u : FifoUnit) (s : State) : (abortUnit u s).fault = s.fault := rfl
@[simp] theorem abortUnit_refused (u : FifoUnit) (s : State) :
    (abortUnit u s).refused = s.refused := rfl
@[simp] theorem abortUnit_params (u : FifoUnit) (s : State) :
    (abortUnit u s).params = s.params := rfl
@[simp] theorem abortUnit_completed (u : FifoUnit) (s : State) :
    (abortUnit u s).completed = s.completed := rfl
@[simp] theorem abortUnit_rdata (u : FifoUnit) (s : State) : (abortUnit u s).rdata = s.rdata := rfl
@[simp] theorem abortUnit_threads (u : FifoUnit) (s : State) :
    (abortUnit u s).threads = s.threads := rfl
@[simp] theorem abortUnit_owner (u : FifoUnit) (s : State) : (abortUnit u s).owner = s.owner := rfl
@[simp] theorem abortUnit_sched (u : FifoUnit) (s : State) : (abortUnit u s).sched = s.sched := rfl
@[simp] theorem abortUnit_draws (u : FifoUnit) (s : State) : (abortUnit u s).draws = s.draws := rfl

@[simp] theorem finishUnit_csRw (u : FifoUnit) (s : State) : (finishUnit u s).csRw = s.csRw := rfl
@[simp] theorem finishUnit_clkCdiv (u : FifoUnit) (s : State) :
    (finishUnit u s).clkCdiv = s.clkCdiv := rfl
@[simp] theorem finishUnit_dlenLen (u : FifoUnit) (s : State) :
    (finishUnit u s).dlenLen = s.dlenLen := rfl
@[simp] theorem finishUnit_ltohToh (u : FifoUnit) (s : State) :
    (finishUnit u s).ltohToh = s.ltohToh := rfl
@[simp] theorem finishUnit_dc (u : FifoUnit) (s : State) : (finishUnit u s).dc = s.dc := rfl
@[simp] theorem finishUnit_txq (u : FifoUnit) (s : State) : (finishUnit u s).txq = s.txq := rfl
@[simp] theorem finishUnit_shifter (u : FifoUnit) (s : State) :
    (finishUnit u s).shifter = none := rfl
@[simp] theorem finishUnit_trace (u : FifoUnit) (s : State) :
    (finishUnit u s).trace = s.trace := rfl
@[simp] theorem finishUnit_ctl (u : FifoUnit) (s : State) : (finishUnit u s).ctl = s.ctl := rfl
@[simp] theorem finishUnit_fault (u : FifoUnit) (s : State) :
    (finishUnit u s).fault = s.fault := rfl
@[simp] theorem finishUnit_refused (u : FifoUnit) (s : State) :
    (finishUnit u s).refused = s.refused := rfl
@[simp] theorem finishUnit_params (u : FifoUnit) (s : State) :
    (finishUnit u s).params = s.params := rfl
@[simp] theorem finishUnit_completed (u : FifoUnit) (s : State) :
    (finishUnit u s).completed = s.completed := rfl
@[simp] theorem finishUnit_rdata (u : FifoUnit) (s : State) :
    (finishUnit u s).rdata = s.rdata := rfl
@[simp] theorem finishUnit_threads (u : FifoUnit) (s : State) :
    (finishUnit u s).threads = s.threads := rfl
@[simp] theorem finishUnit_owner (u : FifoUnit) (s : State) :
    (finishUnit u s).owner = s.owner := rfl
@[simp] theorem finishUnit_sched (u : FifoUnit) (s : State) :
    (finishUnit u s).sched = s.sched := rfl
@[simp] theorem finishUnit_draws (u : FifoUnit) (s : State) :
    (finishUnit u s).draws = s.draws + 1 := rfl

@[simp] theorem toPhase_csRw (p : Phase) (s : State) : (toPhase p s).csRw = s.csRw := rfl
@[simp] theorem toPhase_clkCdiv (p : Phase) (s : State) : (toPhase p s).clkCdiv = s.clkCdiv := rfl
@[simp] theorem toPhase_dlenLen (p : Phase) (s : State) : (toPhase p s).dlenLen = s.dlenLen := rfl
@[simp] theorem toPhase_ltohToh (p : Phase) (s : State) : (toPhase p s).ltohToh = s.ltohToh := rfl
@[simp] theorem toPhase_dc (p : Phase) (s : State) : (toPhase p s).dc = s.dc := rfl
@[simp] theorem toPhase_txq (p : Phase) (s : State) : (toPhase p s).txq = s.txq := rfl
@[simp] theorem toPhase_rxq (p : Phase) (s : State) : (toPhase p s).rxq = s.rxq := rfl
@[simp] theorem toPhase_shifter (p : Phase) (s : State) : (toPhase p s).shifter = s.shifter := rfl
@[simp] theorem toPhase_wire (p : Phase) (s : State) : (toPhase p s).wire = s.wire := rfl
@[simp] theorem toPhase_trace (p : Phase) (s : State) : (toPhase p s).trace = s.trace := rfl
@[simp] theorem toPhase_ctl (p : Phase) (s : State) :
    (toPhase p s).ctl = { s.ctl with phase := p } := rfl
@[simp] theorem toPhase_fault (p : Phase) (s : State) : (toPhase p s).fault = s.fault := rfl
@[simp] theorem toPhase_refused (p : Phase) (s : State) : (toPhase p s).refused = s.refused := rfl
@[simp] theorem toPhase_params (p : Phase) (s : State) : (toPhase p s).params = s.params := rfl
@[simp] theorem toPhase_completed (p : Phase) (s : State) :
    (toPhase p s).completed = s.completed := rfl
@[simp] theorem toPhase_rdata (p : Phase) (s : State) : (toPhase p s).rdata = s.rdata := rfl
@[simp] theorem toPhase_threads (p : Phase) (s : State) : (toPhase p s).threads = s.threads := rfl
@[simp] theorem toPhase_owner (p : Phase) (s : State) : (toPhase p s).owner = s.owner := rfl
@[simp] theorem toPhase_sched (p : Phase) (s : State) : (toPhase p s).sched = s.sched := rfl
@[simp] theorem toPhase_draws (p : Phase) (s : State) : (toPhase p s).draws = s.draws := rfl

@[simp] theorem toPhaseTmp_csRw (p : Phase) (v : Word) (s : State) :
    (toPhaseTmp p v s).csRw = s.csRw := rfl
@[simp] theorem toPhaseTmp_clkCdiv (p : Phase) (v : Word) (s : State) :
    (toPhaseTmp p v s).clkCdiv = s.clkCdiv := rfl
@[simp] theorem toPhaseTmp_dlenLen (p : Phase) (v : Word) (s : State) :
    (toPhaseTmp p v s).dlenLen = s.dlenLen := rfl
@[simp] theorem toPhaseTmp_ltohToh (p : Phase) (v : Word) (s : State) :
    (toPhaseTmp p v s).ltohToh = s.ltohToh := rfl
@[simp] theorem toPhaseTmp_dc (p : Phase) (v : Word) (s : State) :
    (toPhaseTmp p v s).dc = s.dc := rfl
@[simp] theorem toPhaseTmp_txq (p : Phase) (v : Word) (s : State) :
    (toPhaseTmp p v s).txq = s.txq := rfl
@[simp] theorem toPhaseTmp_rxq (p : Phase) (v : Word) (s : State) :
    (toPhaseTmp p v s).rxq = s.rxq := rfl
@[simp] theorem toPhaseTmp_shifter (p : Phase) (v : Word) (s : State) :
    (toPhaseTmp p v s).shifter = s.shifter := rfl
@[simp] theorem toPhaseTmp_wire (p : Phase) (v : Word) (s : State) :
    (toPhaseTmp p v s).wire = s.wire := rfl
@[simp] theorem toPhaseTmp_trace (p : Phase) (v : Word) (s : State) :
    (toPhaseTmp p v s).trace = s.trace := rfl
@[simp] theorem toPhaseTmp_ctl (p : Phase) (v : Word) (s : State) :
    (toPhaseTmp p v s).ctl = { s.ctl with phase := p, tmp := v } := rfl
@[simp] theorem toPhaseTmp_fault (p : Phase) (v : Word) (s : State) :
    (toPhaseTmp p v s).fault = s.fault := rfl
@[simp] theorem toPhaseTmp_refused (p : Phase) (v : Word) (s : State) :
    (toPhaseTmp p v s).refused = s.refused := rfl
@[simp] theorem toPhaseTmp_params (p : Phase) (v : Word) (s : State) :
    (toPhaseTmp p v s).params = s.params := rfl
@[simp] theorem toPhaseTmp_completed (p : Phase) (v : Word) (s : State) :
    (toPhaseTmp p v s).completed = s.completed := rfl
@[simp] theorem toPhaseTmp_rdata (p : Phase) (v : Word) (s : State) :
    (toPhaseTmp p v s).rdata = s.rdata := rfl
@[simp] theorem toPhaseTmp_threads (p : Phase) (v : Word) (s : State) :
    (toPhaseTmp p v s).threads = s.threads := rfl
@[simp] theorem toPhaseTmp_owner (p : Phase) (v : Word) (s : State) :
    (toPhaseTmp p v s).owner = s.owner := rfl
@[simp] theorem toPhaseTmp_sched (p : Phase) (v : Word) (s : State) :
    (toPhaseTmp p v s).sched = s.sched := rfl
@[simp] theorem toPhaseTmp_draws (p : Phase) (v : Word) (s : State) :
    (toPhaseTmp p v s).draws = s.draws := rfl

@[simp] theorem complete_csRw (s : State) : (complete s).csRw = s.csRw := rfl
@[simp] theorem complete_clkCdiv (s : State) : (complete s).clkCdiv = s.clkCdiv := rfl
@[simp] theorem complete_dlenLen (s : State) : (complete s).dlenLen = s.dlenLen := rfl
@[simp] theorem complete_ltohToh (s : State) : (complete s).ltohToh = s.ltohToh := rfl
@[simp] theorem complete_dc (s : State) : (complete s).dc = s.dc := rfl
@[simp] theorem complete_txq (s : State) : (complete s).txq = s.txq := rfl
@[simp] theorem complete_rxq (s : State) : (complete s).rxq = s.rxq := rfl
@[simp] theorem complete_shifter (s : State) : (complete s).shifter = s.shifter := rfl
@[simp] theorem complete_wire (s : State) : (complete s).wire = s.wire := rfl
@[simp] theorem complete_trace (s : State) : (complete s).trace = s.trace := rfl
@[simp] theorem complete_ctl (s : State) : (complete s).ctl = idleCtl := rfl
@[simp] theorem complete_fault (s : State) : (complete s).fault = s.fault := rfl
@[simp] theorem complete_refused (s : State) : (complete s).refused = s.refused := rfl
@[simp] theorem complete_params (s : State) : (complete s).params = s.params := rfl
@[simp] theorem complete_completed (s : State) :
    (complete s).completed = s.completed ++ [⟨s.owner, s.ctl.cmd, s.trace.length⟩] := rfl
@[simp] theorem complete_rdata (s : State) : (complete s).rdata = s.rdata := rfl
@[simp] theorem complete_threads (s : State) : (complete s).threads = s.threads := rfl
@[simp] theorem complete_owner (s : State) : (complete s).owner = s.owner := rfl
@[simp] theorem complete_sched (s : State) : (complete s).sched = s.sched := rfl
@[simp] theorem complete_draws (s : State) : (complete s).draws = s.draws := rfl

@[simp] theorem putBack_csRw (k : Nat) (op : HostOp) (s : State) :
    (putBack k op s).csRw = s.csRw := rfl
@[simp] theorem putBack_clkCdiv (k : Nat) (op : HostOp) (s : State) :
    (putBack k op s).clkCdiv = s.clkCdiv := rfl
@[simp] theorem putBack_dlenLen (k : Nat) (op : HostOp) (s : State) :
    (putBack k op s).dlenLen = s.dlenLen := rfl
@[simp] theorem putBack_ltohToh (k : Nat) (op : HostOp) (s : State) :
    (putBack k op s).ltohToh = s.ltohToh := rfl
@[simp] theorem putBack_dc (k : Nat) (op : HostOp) (s : State) : (putBack k op s).dc = s.dc := rfl
@[simp] theorem putBack_txq (k : Nat) (op : HostOp) (s : State) :
    (putBack k op s).txq = s.txq := rfl
@[simp] theorem putBack_rxq (k : Nat) (op : HostOp) (s : State) :
    (putBack k op s).rxq = s.rxq := rfl
@[simp] theorem putBack_shifter (k : Nat) (op : HostOp) (s : State) :
    (putBack k op s).shifter = s.shifter := rfl
@[simp] theorem putBack_wire (k : Nat) (op : HostOp) (s : State) :
    (putBack k op s).wire = s.wire := rfl
@[simp] theorem putBack_trace (k : Nat) (op : HostOp) (s : State) :
    (putBack k op s).trace = s.trace := rfl
@[simp] theorem putBack_ctl (k : Nat) (op : HostOp) (s : State) :
    (putBack k op s).ctl = s.ctl := rfl
@[simp] theorem putBack_fault (k : Nat) (op : HostOp) (s : State) :
    (putBack k op s).fault = s.fault := rfl
@[simp] theorem putBack_refused (k : Nat) (op : HostOp) (s : State) :
    (putBack k op s).refused = s.refused := rfl
@[simp] theorem putBack_params (k : Nat) (op : HostOp) (s : State) :
    (putBack k op s).params = s.params := rfl
@[simp] theorem putBack_completed (k : Nat) (op : HostOp) (s : State) :
    (putBack k op s).completed = s.completed := rfl
@[simp] theorem putBack_rdata (k : Nat) (op : HostOp) (s : State) :
    (putBack k op s).rdata = s.rdata := rfl
@[simp] theorem putBack_owner (k : Nat) (op : HostOp) (s : State) :
    (putBack k op s).owner = s.owner := rfl
@[simp] theorem putBack_sched (k : Nat) (op : HostOp) (s : State) :
    (putBack k op s).sched = s.sched := rfl
@[simp] theorem putBack_draws (k : Nat) (op : HostOp) (s : State) :
    (putBack k op s).draws = s.draws := rfl

@[simp] theorem setGot_csRw (k : Nat) (x : Word) (s : State) : (setGot k x s).csRw = s.csRw := rfl
@[simp] theorem setGot_clkCdiv (k : Nat) (x : Word) (s : State) :
    (setGot k x s).clkCdiv = s.clkCdiv := rfl
@[simp] theorem setGot_dlenLen (k : Nat) (x : Word) (s : State) :
    (setGot k x s).dlenLen = s.dlenLen := rfl
@[simp] theorem setGot_ltohToh (k : Nat) (x : Word) (s : State) :
    (setGot k x s).ltohToh = s.ltohToh := rfl
@[simp] theorem setGot_dc (k : Nat) (x : Word) (s : State) : (setGot k x s).dc = s.dc := rfl
@[simp] theorem setGot_txq (k : Nat) (x : Word) (s : State) : (setGot k x s).txq = s.txq := rfl
@[simp] theorem setGot_rxq (k : Nat) (x : Word) (s : State) : (setGot k x s).rxq = s.rxq := rfl
@[simp] theorem setGot_shifter (k : Nat) (x : Word) (s : State) :
    (setGot k x s).shifter = s.shifter := rfl
@[simp] theorem setGot_wire (k : Nat) (x : Word) (s : State) : (setGot k x s).wire = s.wire := rfl
@[simp] theorem setGot_trace (k : Nat) (x : Word) (s : State) :
    (setGot k x s).trace = s.trace := rfl
@[simp] theorem setGot_ctl (k : Nat) (x : Word) (s : State) : (setGot k x s).ctl = s.ctl := rfl
@[simp] theorem setGot_fault (k : Nat) (x : Word) (s : State) :
    (setGot k x s).fault = s.fault := rfl
@[simp] theorem setGot_refused (k : Nat) (x : Word) (s : State) :
    (setGot k x s).refused = s.refused := rfl
@[simp] theorem setGot_params (k : Nat) (x : Word) (s : State) :
    (setGot k x s).params = s.params := rfl
@[simp] theorem setGot_completed (k : Nat) (x : Word) (s : State) :
    (setGot k x s).completed = s.completed := rfl
@[simp] theorem setGot_rdata (k : Nat) (x : Word) (s : State) :
    (setGot k x s).rdata = s.rdata := rfl
@[simp] theorem setGot_owner (k : Nat) (x : Word) (s : State) :
    (setGot k x s).owner = s.owner := rfl
@[simp] theorem setGot_sched (k : Nat) (x : Word) (s : State) :
    (setGot k x s).sched = s.sched := rfl
@[simp] theorem setGot_draws (k : Nat) (x : Word) (s : State) :
    (setGot k x s).draws = s.draws := rfl

end Sys2Proof.Machine
end

