-- ==== Sys2Proof/Laws/Ops.lean ====
section
/-! SUPPORT. What each shared operation can do, said once. -/

namespace Sys2Proof.Machine

theorem whenLive_of_live {s t : State} (hf : s.fault = none) (hr : s.refused = none) :
    whenLive s t = .next t := by
  simp [whenLive, hf, hr]

/-- A meaning answers a next state only where nothing is recorded. -/
theorem whenLive_eq_next {s t u : State} (h : whenLive s t = .next u) :
    s.fault = none ∧ s.refused = none ∧ u = t := by
  unfold whenLive at h
  split at h
  · cases h
  · split at h
    · cases h
    · cases h
      exact ⟨‹_›, ‹_›, rfl⟩

theorem live_iff (s : State) : live s = true ↔ s.fault = none ∧ s.refused = none := by
  simp [live]

/-- What no rule for a register touches: everything but the registers, the queues, the shifter, the
wire and the count of draws. -/
structure SameOutside (s t : State) : Prop where
  ctl : t.ctl = s.ctl
  fault : t.fault = s.fault
  refused : t.refused = s.refused
  params : t.params = s.params
  rdata : t.rdata = s.rdata
  threads : t.threads = s.threads
  owner : t.owner = s.owner
  sched : t.sched = s.sched
  trace : t.trace = s.trace
  completed : t.completed = s.completed

theorem SameOutside.refl (s : State) : SameOutside s s := by constructor <;> rfl

theorem SameOutside.trans {s t u : State} (h : SameOutside s t) (k : SameOutside t u) :
    SameOutside s u :=
  ⟨k.ctl.trans h.ctl, k.fault.trans h.fault, k.refused.trans h.refused, k.params.trans h.params,
    k.rdata.trans h.rdata, k.threads.trans h.threads, k.owner.trans h.owner, k.sched.trans h.sched,
    k.trace.trans h.trace, k.completed.trans h.completed⟩

theorem finishUnit_outside (u : FifoUnit) (s : State) : SameOutside s (finishUnit u s) := by
  constructor <;> rfl

theorem abortUnit_outside (u : FifoUnit) (s : State) : SameOutside s (abortUnit u s) := by
  constructor <;> rfl

theorem drawn_outside (s : State) : SameOutside s (drawn s) := by
  constructor <;> rfl

/-- What a TX clear does to the shifter (R260). -/
theorem shifterOnClear_cases (s : State) :
    (s.shifter = none ∧ shifterOnClear s = s)
      ∨ ∃ u, s.shifter = some u ∧ (shifterOnClear s = drawn s
        ∨ shifterOnClear s = abortUnit u (drawn s)) := by
  unfold shifterOnClear
  cases h : s.shifter with
  | none => exact .inl ⟨rfl, rfl⟩
  | some u => by_cases hb : nextBit s = true <;> simp [hb]

/-- What clearing TA does to the shifter (R259). -/
theorem shifterOnStop_cases (s : State) :
    (s.shifter = none ∧ shifterOnStop s = s)
      ∨ ∃ u, s.shifter = some u ∧ (shifterOnStop s = finishUnit u (drawn s)
        ∨ shifterOnStop s = abortUnit u (drawn s)) := by
  unfold shifterOnStop
  cases h : s.shifter with
  | none => exact .inl ⟨rfl, rfl⟩
  | some u => by_cases hb : nextBit s = true <;> simp [hb]

theorem shifterOnClear_outside (s : State) : SameOutside s (shifterOnClear s) := by
  rcases shifterOnClear_cases s with ⟨_, h⟩ | ⟨u, _, h | h⟩ <;> rw [h]
  · exact .refl s
  · exact drawn_outside s
  · exact (drawn_outside s).trans (abortUnit_outside u _)

theorem shifterOnStop_outside (s : State) : SameOutside s (shifterOnStop s) := by
  rcases shifterOnStop_cases s with ⟨_, h⟩ | ⟨u, _, h | h⟩ <;> rw [h]
  · exact .refl s
  · exact (drawn_outside s).trans (finishUnit_outside u _)
  · exact (drawn_outside s).trans (abortUnit_outside u _)

theorem clearAction_outside (v : Word) (s : State) : SameOutside s (clearAction v s) := by
  have h1 : SameOutside s (shifterOnClear { s with txq := [] }) :=
    SameOutside.trans (by constructor <;> rfl) (shifterOnClear_outside _)
  unfold clearAction
  by_cases h4 : v.getLsbD 4 = true <;> by_cases h5 : v.getLsbD 5 = true <;> simp only [h4, h5, if_true]
  · exact h1.trans (by constructor <;> rfl)
  · simpa using h1
  · constructor <;> rfl
  · simpa using SameOutside.refl s

theorem taTransition_outside (a b : Bool) (s : State) : SameOutside s (taTransition a b s) := by
  cases a <;> cases b
  · exact .refl s
  · constructor <;> rfl
  · exact (shifterOnStop_outside s).trans (by constructor <;> rfl)
  · exact .refl s

/-- A CS write that stands answers its effect, and was neither a reconfiguration nor out of
scope (R142, R145, R146). -/
theorem writeCs_ok {v : Word} {s t : State} (h : writeCs v s = .ok t) :
    t = csWriteEffect v s
      ∧ (taSet s = true → (s.csRw ^^^ (v &&& rwMask)) &&& reconfigureMask = 0#32)
      ∧ ((v &&& rwMask).getLsbD 7 = true → (v &&& rwMask) &&& scopeMask = 0#32) := by
  unfold writeCs at h
  simp only at h
  split at h
  · cases h
  · split at h
    · cases h
    · cases h
      refine ⟨rfl, ?_, ?_⟩
      · intro ht
        by_contra hc
        exact ‹¬(taSet s = true ∧ _)› ⟨ht, hc⟩
      · intro ht
        by_contra hc
        exact ‹¬((v &&& rwMask).getLsbD 7 = true ∧ _)› ⟨ht, hc⟩

theorem csWriteEffect_outside (v : Word) (s : State) : SameOutside s (csWriteEffect v s) := by
  have h : SameOutside s { clearAction v s with csRw := v &&& rwMask } :=
    (clearAction_outside v s).trans (by constructor <;> rfl)
  exact h.trans (taTransition_outside _ _ _)

theorem writeFifo_ok {a : Agent} {v : Word} {s t : State} (h : writeFifo a v s = .ok t) :
    taSet s = true ∧ s.txq.length ≠ s.params.txDepth
      ∧ t = { s with txq := s.txq ++ [unitOfWrite (lenLongSet s) v] } := by
  unfold writeFifo at h
  split at h
  · cases h
  · split at h
    · cases h
    · cases h
      exact ⟨by simpa using ‹¬ taSet s = false›, ‹_›, rfl⟩

theorem writeClk_ok {v : Word} {s t : State} (h : writeClk v s = .ok t) :
    (taSet s = true → v.extractLsb' 0 16 = s.clkCdiv)
      ∧ t = { s with clkCdiv := v.extractLsb' 0 16 } := by
  unfold writeClk at h
  split at h
  · cases h
  · cases h
    refine ⟨fun ht => ?_, rfl⟩
    by_contra hc
    exact ‹¬(taSet s = true ∧ _)› ⟨ht, hc⟩

theorem writeReg_outside {a : Agent} {r : Reg} {v : Word} {s t : State}
    (h : writeReg a r v s = .ok t) : SameOutside s t := by
  cases r with
  | cs => rw [(writeCs_ok h).1]; exact csWriteEffect_outside v s
  | fifo => rw [(writeFifo_ok h).2.2]; constructor <;> rfl
  | clk => rw [(writeClk_ok h).2]; constructor <;> rfl
  | dlen => cases h; constructor <;> rfl
  | ltoh => cases h; constructor <;> rfl
  | dc => cases h; constructor <;> rfl

/-- A plain read leaves the state but for a draw, and gives the defined bits and reserved ones
(R43). -/
theorem readPlain_cases (r : Reg) (s : State) :
    readPlain r s = (regValue s r, s)
      ∨ ∃ w, readPlain r s = (regValue s r ||| (w &&& reservedMask r), drawn s) := by
  unfold readPlain
  cases s.params.reservedRead
  · exact .inl rfl
  · exact .inr ⟨_, rfl⟩

/-- What a read does to the state: nothing, one draw, or one unit popped (R76). -/
theorem readReg_state (r : Reg) (s : State) :
    (readReg r s).2 = s ∨ (readReg r s).2 = drawn s
      ∨ (r = .fifo ∧ ∃ u left, s.rxq = u :: left ∧ (readReg r s).2 = { s with rxq := left }) := by
  have plain : ∀ q, (readPlain q s).2 = s ∨ (readPlain q s).2 = drawn s := fun q => by
    rcases readPlain_cases q s with h | ⟨w, h⟩ <;> simp [h]
  cases r with
  | fifo =>
    cases hq : s.rxq with
    | nil => right; left; simp [readReg, readFifo, hq]
    | cons u left => right; right; exact ⟨rfl, u, left, rfl, by simp [readReg, readFifo, hq]⟩
  | dc => exact .inl rfl
  | cs => exact (plain .cs).imp_right .inl
  | clk => exact (plain .clk).imp_right .inl
  | dlen => exact (plain .dlen).imp_right .inl
  | ltoh => exact (plain .ltoh).imp_right .inl

theorem readReg_outside (r : Reg) (s : State) : SameOutside s (readReg r s).2 := by
  rcases readReg_state r s with h | h | ⟨_, u, left, _, h⟩ <;> rw [h]
  · exact .refl s
  · exact drawn_outside s
  · constructor <;> rfl

/-- What a register's rule can answer. -/
theorem perform_ok {a : Agent} {x : Access} {r : Reg} {s t : State} {v : Word}
    (h : perform a x r s = .ok (v, t)) :
    (x.dir = .rd ∧ (v, t) = readReg r s) ∨ (x.dir = .wr ∧ v = x.data ∧ writeReg a r v s = .ok t) := by
  unfold perform at h
  cases hd : x.dir with
  | rd => simp only [hd] at h; exact .inl ⟨rfl, (Except.ok.inj h).symm⟩
  | wr =>
    simp only [hd] at h
    cases hw : writeReg a r x.data s with
    | ok u => simp only [hw] at h; cases h; exact .inr ⟨rfl, rfl, hw⟩
    | error e => simp only [hw] at h; cases h

theorem perform_outside {a : Agent} {x : Access} {r : Reg} {s t : State} {v : Word}
    (h : perform a x r s = .ok (v, t)) : SameOutside s t := by
  rcases perform_ok h with ⟨_, e⟩ | ⟨_, _, e⟩
  · rw [show t = (readReg r s).2 from congrArg Prod.snd e]; exact readReg_outside r s
  · exact writeReg_outside e

/-- A transaction that stands was admitted, did its register's rule and was traced (R140). -/
theorem transact_ok {a : Agent} {x : Access} {s t : State} {v : Word}
    (h : transact a x s = .ok (v, t)) :
    ∃ r u, accessReg x = some r ∧ ¬(a = .host ∧ s.ctl.phase ≠ .idle)
      ∧ perform a x r s = .ok (v, u) ∧ t = logAccess a x v u := by
  unfold transact at h
  split at h
  · cases h
  · cases hr : accessReg x with
    | none => simp only [hr] at h; cases h
    | some r =>
      simp only [hr] at h
      cases hp : perform a x r s with
      | error e => simp only [hp] at h; cases h
      | ok p =>
        obtain ⟨w, u⟩ := p
        simp only [hp] at h
        cases h
        exact ⟨r, u, rfl, ‹_›, hp, rfl⟩

/-- The host's access either records a stop or stands and gives the host its value. -/
theorem hostAfter_cases (x : Access) (s : State) :
    (∃ e, transact .host x s = .error e ∧ hostAfter x s = recordStop e s)
      ∨ ∃ v t, transact .host x s = .ok (v, t) ∧ hostAfter x s = giveHost x v t := by
  unfold hostAfter
  cases h : transact .host x s with
  | error e => exact .inl ⟨e, rfl, rfl⟩
  | ok p => exact .inr ⟨p.1, p.2, rfl, rfl⟩

/-- The controller's transaction either records a stop or stands and is carried on with. -/
theorem ctlBus_cases (x : Access) (k : Word → State → State) (s : State) :
    (∃ e, transact .ctl x s = .error e ∧ ctlBus x k s = recordStop e s)
      ∨ ∃ v t, transact .ctl x s = .ok (v, t) ∧ ctlBus x k s = k v t := by
  unfold ctlBus
  cases h : transact .ctl x s with
  | error e => exact .inl ⟨e, rfl, rfl⟩
  | ok p => exact .inr ⟨p.1, p.2, rfl, rfl⟩

/-- The host's access with a continuation, likewise. -/
theorem hostThen_cases (x : Access) (k : Word → State → State) (s : State) :
    (∃ e, transact .host x s = .error e ∧ hostThen x k s = recordStop e s)
      ∨ ∃ v t, transact .host x s = .ok (v, t) ∧ hostThen x k s = k v (giveHost x v t) := by
  unfold hostThen
  cases h : transact .host x s with
  | error e => exact .inl ⟨e, rfl, rfl⟩
  | ok p => exact .inr ⟨p.1, p.2, rfl, rfl⟩

theorem accessReg_readOf (r : Reg) : accessReg (readOf r) = some r := by cases r <;> rfl

theorem accessReg_writeOf (r : Reg) (v : Word) : accessReg (writeOf r v) = some r := by
  cases r <;> rfl

/-- An admitted whole-word read stands. -/
theorem transact_readOf {a : Agent} {s : State} (r : Reg)
    (h : ¬(a = .host ∧ s.ctl.phase ≠ .idle)) :
    transact a (readOf r) s
      = .ok ((readReg r s).1, logAccess a (readOf r) (readReg r s).1 (readReg r s).2) := by
  unfold transact
  rw [if_neg h, accessReg_readOf]
  rfl

/-- An admitted whole-word write, by what the register's rule answers. -/
theorem transact_writeOf {a : Agent} {s : State} (r : Reg) (w : Word)
    (h : ¬(a = .host ∧ s.ctl.phase ≠ .idle)) :
    transact a (writeOf r w) s
      = match writeReg a r w s with
        | .ok t => .ok (w, logAccess a (writeOf r w) w t)
        | .error e => .error e := by
  unfold transact
  rw [if_neg h, accessReg_writeOf]
  unfold perform
  simp only [show (writeOf r w).dir = .wr from rfl, show (writeOf r w).data = w from rfl]
  cases writeReg a r w s <;> rfl

/-- A controller read stands always (R200). -/
theorem ctlBus_readOf (r : Reg) (k : Word → State → State) (s : State) :
    ctlBus (readOf r) k s
      = k (readReg r s).1 (logAccess .ctl (readOf r) (readReg r s).1 (readReg r s).2) := by
  unfold ctlBus
  rw [transact_readOf r (by simp)]

/-- A controller write, by what the register's rule answers. -/
theorem ctlBus_writeOf (r : Reg) (w : Word) (k : Word → State → State) (s : State) :
    ctlBus (writeOf r w) k s
      = match writeReg .ctl r w s with
        | .ok t => k w (logAccess .ctl (writeOf r w) w t)
        | .error e => recordStop e s := by
  unfold ctlBus
  rw [transact_writeOf r w (by simp)]
  cases writeReg .ctl r w s <;> rfl

/-- A host read of a register by a host that may access (R140). -/
theorem hostAfter_readOf {s : State} (r : Reg) (hi : s.ctl.phase = .idle) :
    hostAfter (readOf r) s
      = { logAccess .host (readOf r) (readReg r s).1 (readReg r s).2 with
          rdata := (readReg r s).1 } := by
  unfold hostAfter
  rw [transact_readOf r (by simp [hi])]
  rfl

/-- A host write of a register by a host that may access (R140). -/
theorem hostAfter_writeOf {s : State} (r : Reg) (w : Word) (hi : s.ctl.phase = .idle) :
    hostAfter (writeOf r w) s
      = match writeReg .host r w s with
        | .ok t => logAccess .host (writeOf r w) w t
        | .error e => recordStop e s := by
  unfold hostAfter
  rw [transact_writeOf r w (by simp [hi])]
  cases writeReg .host r w s <;> rfl

/-- A host access during a command records ConcurrentAccess (R217). -/
theorem hostAfter_busy {s : State} (x : Access) (h : s.ctl.phase ≠ .idle) :
    hostAfter x s = raise (.concurrentAccess x.dir x.off s.ctl.phase) s := by
  simp [hostAfter, transact, h, recordStop]

end Sys2Proof.Machine
end

