-- ==== Sys2Proof/Laws/CsAccess.lean ====
section
/-! SUPPORT. What a CS write and a CS read do, field by field (spec/40_register_access.md R141 to
R146). -/

namespace Sys2Proof.Machine

/-- `t` has the registers other than CS of `s`. -/
structure SameRegs (s t : State) : Prop where
  clkCdiv : t.clkCdiv = s.clkCdiv
  dlenLen : t.dlenLen = s.dlenLen
  ltohToh : t.ltohToh = s.ltohToh
  dc : t.dc = s.dc

theorem SameRegs.trans {s t u : State} (h : SameRegs s t) (k : SameRegs t u) : SameRegs s u :=
  ⟨k.clkCdiv.trans h.clkCdiv, k.dlenLen.trans h.dlenLen, k.ltohToh.trans h.ltohToh, k.dc.trans h.dc⟩

theorem shifterOnStop_regs (s : State) :
    SameRegs s (shifterOnStop s) ∧ (shifterOnStop s).csRw = s.csRw
      ∧ (shifterOnStop s).txq = s.txq ∧ (shifterOnStop s).shifter = none := by
  rcases shifterOnStop_cases s with ⟨h0, h⟩ | ⟨u, h0, h | h⟩ <;> rw [h] <;>
    exact ⟨⟨rfl, rfl, rfl, rfl⟩, rfl, rfl, by first | rfl | exact h0⟩

theorem shifterOnClear_regs (s : State) :
    SameRegs s (shifterOnClear s) ∧ (shifterOnClear s).csRw = s.csRw
      ∧ (shifterOnClear s).txq = s.txq ∧ (shifterOnClear s).rxq = s.rxq := by
  rcases shifterOnClear_cases s with ⟨h0, h⟩ | ⟨u, h0, h | h⟩ <;> rw [h] <;>
    exact ⟨⟨rfl, rfl, rfl, rfl⟩, rfl, rfl, rfl⟩

/-- The CLEAR action empties what it names and touches no register (R143). -/
theorem clearAction_regs (v : Word) (s : State) :
    SameRegs s (clearAction v s) ∧ (clearAction v s).csRw = s.csRw
      ∧ (clearAction v s).txq = (if v.getLsbD 4 then [] else s.txq)
      ∧ (clearAction v s).rxq = (if v.getLsbD 5 then [] else s.rxq) := by
  unfold clearAction
  obtain ⟨⟨a, b, c, d⟩, e, f, g⟩ := shifterOnClear_regs { s with txq := [] }
  cases v.getLsbD 4 <;> cases v.getLsbD 5 <;> refine ⟨⟨?_, ?_, ?_, ?_⟩, ?_, ?_, ?_⟩ <;> simp [*]

/-- The CLEAR action keeps the shifter and the wire, or cuts the unit off (R143, R260). -/
theorem clearAction_shifter (v : Word) (s : State) :
    ((clearAction v s).shifter = s.shifter ∧ (clearAction v s).wire = s.wire)
      ∨ ∃ u, s.shifter = some u ∧ (clearAction v s).shifter = none
        ∧ (clearAction v s).wire = s.wire ++ [.aborted (unitValue u)] := by
  unfold clearAction
  rcases shifterOnClear_cases { s with txq := [] } with ⟨h0, h⟩ | ⟨u, h0, h | h⟩ <;> rw [h] <;>
    cases v.getLsbD 4 <;> cases v.getLsbD 5 <;> simp [abortUnit, drawn] <;> exact ⟨_, h0, rfl⟩

/-- A TA transition touches no register and no TX FIFO, and a stop empties the shifter (R144,
R259). -/
theorem taTransition_regs (a b : Bool) (s : State) :
    SameRegs s (taTransition a b s) ∧ (taTransition a b s).csRw = s.csRw
      ∧ (taTransition a b s).txq = s.txq
      ∧ (taTransition a b s).shifter = if a && !b then none else s.shifter := by
  cases a <;> cases b
  · exact ⟨⟨rfl, rfl, rfl, rfl⟩, rfl, rfl, rfl⟩
  · exact ⟨⟨rfl, rfl, rfl, rfl⟩, rfl, rfl, rfl⟩
  · obtain ⟨⟨a, b, c, d⟩, e, f, g⟩ := shifterOnStop_regs s
    exact ⟨⟨a, b, c, d⟩, e, f, g⟩
  · exact ⟨⟨rfl, rfl, rfl, rfl⟩, rfl, rfl, rfl⟩

/-- A CS write stores the RW bits, clears the TX FIFO by CLEAR only, and touches no other
register (R142). -/
theorem csWriteEffect_regs (v : Word) (s : State) :
    SameRegs s (csWriteEffect v s) ∧ (csWriteEffect v s).csRw = v &&& rwMask
      ∧ (csWriteEffect v s).txq = (if v.getLsbD 4 then [] else s.txq) := by
  obtain ⟨r, _, f, _⟩ := clearAction_regs v s
  obtain ⟨r', e', f', _⟩ := taTransition_regs (taSet s) ((v &&& rwMask).getLsbD 7)
    { clearAction v s with csRw := v &&& rwMask }
  exact ⟨r.trans ⟨r'.clkCdiv, r'.dlenLen, r'.ltohToh, r'.dc⟩, e', f'.trans f⟩

/-- A CS write leaves the shifter, or empties it; a stop always empties it (R142, R259, R260). -/
theorem csWriteEffect_shifter (v : Word) (s : State) :
    ((csWriteEffect v s).shifter = s.shifter ∨ (csWriteEffect v s).shifter = none)
      ∧ (taSet s = true → (v &&& rwMask).getLsbD 7 = false → (csWriteEffect v s).shifter = none) := by
  have h := (taTransition_regs (taSet s) ((v &&& rwMask).getLsbD 7)
    { clearAction v s with csRw := v &&& rwMask }).2.2.2
  change (csWriteEffect v s).shifter = _ at h
  rw [h]
  refine ⟨?_, fun ha hb => by rw [ha, hb]; rfl⟩
  split
  · exact .inr rfl
  · rcases clearAction_shifter v s with ⟨e, _⟩ | ⟨u, _, e, _⟩
    · exact .inl e
    · exact .inr e

/-- A bit inside a mask survives the masking. -/
theorem getLsbD_and_mask (v m : Word) (n : Nat) (h : m.getLsbD n = true) :
    (v &&& m).getLsbD n = v.getLsbD n := by
  simp only [BitVec.getLsbD_and, h, Bool.and_true]

/-- What a CS write that was no reconfiguration stores in a frozen bit is what stood there
(R145). -/
theorem frozen_bit {old new : Word} (h : (old ^^^ new) &&& reconfigureMask = 0#32) (n : Nat)
    (hm : reconfigureMask.getLsbD n = true) : new.getLsbD n = old.getLsbD n := by
  have hb := congrArg (fun w : Word => w.getLsbD n) h
  simp only [BitVec.getLsbD_and, BitVec.getLsbD_xor, hm, Bool.and_true, BitVec.getLsbD_zero] at hb
  cases h1 : old.getLsbD n <;> cases h2 : new.getLsbD n <;> simp_all

/-- A flag of CS read out of the flag bits. -/
theorem csFlags_bits (s : State) :
    (csFlags s).getLsbD 16 = doneFlag s ∧ (csFlags s).getLsbD 17 = rxd s
      ∧ (csFlags s).getLsbD 18 = txd s ∧ (csFlags s).getLsbD 19 = rxr s
      ∧ (csFlags s).getLsbD 20 = rxf s := by
  have h : ∀ a b c d e : Bool, ∀ w : Word, w = (flagBit a 16 ||| flagBit b 17 ||| flagBit c 18
      ||| flagBit d 19 ||| flagBit e 20) → w.getLsbD 16 = a ∧ w.getLsbD 17 = b ∧ w.getLsbD 18 = c ∧ w.getLsbD 19 = d
        ∧ w.getLsbD 20 = e := by
    rintro a b c d e w rfl
    revert a b c d e
    decide
  exact h _ _ _ _ _ _ rfl

/-- The flags of CS are no reserved bits. -/
theorem csFlags_and_rzMask (s : State) : csFlags s &&& rzMask = 0#32 := by
  have h : ∀ a b c d e : Bool, (flagBit a 16 ||| flagBit b 17 ||| flagBit c 18 ||| flagBit d 19
      ||| flagBit e 20) &&& rzMask = 0#32 := by decide
  exact h _ _ _ _ _

/-- Masking distributes over a union. -/
theorem or_and_mask (a b m : Word) : (a ||| b) &&& m = (a &&& m) ||| (b &&& m) := by
  rw [BitVec.and_comm, BitVec.and_or_distrib_left, BitVec.and_comm, BitVec.and_comm m b]

/-- What a CS read gives where CS stores RW bits only: the state is as before but for the count of
draws; the RW bits are those stored, CLEAR is 0, and the flags are their formulas (R141). -/
theorem readReg_cs (s : State) (h : s.csRw &&& ~~~ rwMask = 0#32) :
    ∃ v n, readReg .cs s = (v, { s with draws := n })
      ∧ v &&& rwMask = s.csRw ∧ v &&& clearMask = 0#32 ∧ v &&& ~~~ rzMask = csValue s
      ∧ v.getLsbD 16 = doneFlag s ∧ v.getLsbD 18 = txd s
      ∧ getField v .csTxd = (if txd s then 1#32 else 0#32)
      ∧ getField v .csDone = (if doneFlag s then 1#32 else 0#32) := by
  have stored := and_mask_of_stored _ _ h
  have zero : ∀ m : Word, rwMask &&& m = 0#32 → s.csRw &&& m = 0#32 := fun m hm =>
    and_mask_disjoint _ _ _ h hm
  have zbit : ∀ i, rwMask.getLsbD i = false → s.csRw.getLsbD i = false := fun i hi => by
    rw [← stored]
    simp [BitVec.getLsbD_and, hi]
  have vrz : csValue s &&& rzMask = 0#32 := by
    rw [csValue, or_and_mask, zero _ (by decide), csFlags_and_rzMask]
    rfl
  have main : ∀ r : Word, ∀ v, v = csValue s ||| (r &&& rzMask) →
      v &&& rwMask = s.csRw ∧ v &&& clearMask = 0#32 ∧ v &&& ~~~ rzMask = csValue s
      ∧ v.getLsbD 16 = doneFlag s ∧ v.getLsbD 18 = txd s
      ∧ getField v .csTxd = (if txd s then 1#32 else 0#32)
      ∧ getField v .csDone = (if doneFlag s then 1#32 else 0#32) := by
    rintro r v rfl
    have off : ∀ m : Word, rzMask &&& m = 0#32 → (r &&& rzMask) &&& m = 0#32 := fun m hm => by
      rw [BitVec.and_assoc, hm, BitVec.and_zero]
    have bit : ∀ i, rzMask.getLsbD i = false → (r &&& rzMask).getLsbD i = false := fun i hi => by
      simp [BitVec.getLsbD_and, hi]
    obtain ⟨f16, _, f18, _⟩ := csFlags_bits s
    refine ⟨?_, ?_, ?_, ?_, ?_, ?_, ?_⟩
    · rw [or_and_mask, off _ (by decide), csValue, or_and_mask, stored, csFlags_and_rwMask]
      simp
    · rw [or_and_mask, off _ (by decide), csValue, or_and_mask, zero _ (by decide),
        csFlags_and_clearMask]
      rfl
    · rw [or_and_mask, off _ (by decide), BitVec.or_zero]
      exact and_mask_of_stored _ _ (by simpa using vrz)
    · rw [BitVec.getLsbD_or, bit _ (by decide), csValue, BitVec.getLsbD_or, zbit _ (by decide), f16]
      simp
    · rw [BitVec.getLsbD_or, bit _ (by decide), csValue, BitVec.getLsbD_or, zbit _ (by decide), f18]
      simp
    · rw [getField_or, getField_of_disjoint _ _ (off _ (by decide)), csValue, getField_or,
        getField_of_disjoint s.csRw _ (zero _ (by decide)), getField_csFlags_txd]
      simp
    · rw [getField_or, getField_of_disjoint _ _ (off _ (by decide)), csValue, getField_or,
        getField_of_disjoint s.csRw _ (zero _ (by decide)), getField_csFlags_done]
      simp
  rcases readPlain_cases .cs s with e | ⟨w, e⟩
  · exact ⟨csValue s, s.draws, e, main 0#32 _ (by simp)⟩
  · exact ⟨_, s.draws + 1, e, main w _ rfl⟩

end Sys2Proof.Machine
end

