-- ==== Sys2Proof/Laws/PerInstr.lean ====
section
/-! SUPPORT. What holds of every instruction as syntax, one lemma per constructor: its encoding is
one 5-byte word and its payload, and its opcode byte is a BUS or a CMD one, never a reserved one
(spec/30_encoding.md R100 to R103, R111). -/

namespace Sys2Proof.Laws.EncodedShape

/-- The encoded length, and an opcode byte outside the reserved space. -/
def Statement (i : Instr) : Prop :=
  (encode i).length = 5 + (payloadOf i).length
    ∧ (opOf (encodeWord i)).extractLsb' 6 2 ≠ 3#2

theorem opOf_opWord (op : Byte) (opd : Word) : opOf (opWord op opd) = op := by
  apply BitVec.eq_of_getLsbD_eq
  intro i hi
  simp only [opOf, opWord, BitVec.getLsbD_extractLsb', BitVec.getLsbD_append, Nat.zero_add]
  simp [hi]

theorem of_op {i : Instr} {op : Byte} {opd : Word} (h : encodeWord i = opWord op opd)
    (ho : op.extractLsb' 6 2 ≠ 3#2) : Statement i := by
  refine ⟨?_, by rw [h, opOf_opWord]; exact ho⟩
  simp [encode, wordBytes]
  omega

theorem rdCs : Statement (.rdCs) := of_op rfl (by decide)

theorem rdFifo : Statement (.rdFifo) := of_op rfl (by decide)

theorem rdClk : Statement (.rdClk) := of_op rfl (by decide)

theorem rdDlen : Statement (.rdDlen) := of_op rfl (by decide)

theorem rdLtoh : Statement (.rdLtoh) := of_op rfl (by decide)

theorem rdDc : Statement (.rdDc) := of_op rfl (by decide)

theorem wrCs (v : Word) : Statement (.wrCs v) := of_op rfl (by decide)

theorem wrFifo (v : Word) : Statement (.wrFifo v) := of_op rfl (by decide)

theorem wrClk (v : Word) : Statement (.wrClk v) := of_op rfl (by decide)

theorem wrDlen (v : Word) : Statement (.wrDlen v) := of_op rfl (by decide)

theorem wrLtoh (v : Word) : Statement (.wrLtoh v) := of_op rfl (by decide)

theorem wrDc (v : Word) : Statement (.wrDc v) := of_op rfl (by decide)

theorem cfg (wordMode : BitVec 1) (cs : BitVec 2) (cpha cpol : BitVec 1) (div : BitVec 16) :
    Statement (.cfg wordMode cs cpha cpol div) := of_op rfl (by decide)

theorem send (payload : List Byte) : Statement (.send payload) := of_op rfl (by decide)

theorem send1 (b : Byte) : Statement (.send1 b) := of_op rfl (by decide)

end Sys2Proof.Laws.EncodedShape
end

