-- ==== Sys2Proof/Laws/Step.lean ====
section
/-! SUPPORT. What a step can do, said once: whose step it is and what it calls. -/

namespace Sys2Proof.Machine

/-- `u` is `s` but for the model's schedule and count of draws. -/
def SchedMoved (s u : State) : Prop := u = { s with sched := u.sched, draws := u.draws }

theorem freeTurn_some {on : List Turn} {s u : State} {τ : Turn}
    (h : freeTurn on s = some (τ, u)) : τ ∈ on ∧ SchedMoved s u := by
  match on with
  | [] => cases h
  | [t] => cases h; exact ⟨by simp, rfl⟩
  | t :: v :: more =>
    simp only [freeTurn, Option.some.injEq, Prod.mk.injEq] at h
    obtain ⟨h1, h2⟩ := h
    have hlt : Config.drawTurn s.draws % (more.length + 2) < (t :: v :: more).length := by
      have := Nat.mod_lt (Config.drawTurn s.draws) (show 0 < more.length + 2 by omega)
      simp only [List.length_cons]
      omega
    rw [List.getD_eq_getElem _ _ hlt] at h1
    exact ⟨h1 ▸ List.getElem_mem hlt, h2 ▸ rfl⟩

/-- The agent chosen has a step, and choosing moves the schedule and the draws only. -/
theorem chooseTurn_some {s u : State} {τ : Turn} (h : chooseTurn s = some (τ, u)) :
    τ ∈ enabledTurns s ∧ SchedMoved s u := by
  unfold chooseTurn at h
  split at h
  · exact freeTurn_some h
  · split at h
    · cases h
      exact ⟨by simpa using ‹(enabledTurns s).contains _ = true›, rfl⟩
    · obtain ⟨h1, h2⟩ := freeTurn_some h
      exact ⟨h1, by rw [SchedMoved, h2]⟩

theorem mem_enabledTurns_ctl {s : State} : Turn.ctl ∈ enabledTurns s ↔ ctlReady s = true := by
  simp [enabledTurns]

theorem mem_enabledTurns_engine {s : State} :
    Turn.engine ∈ enabledTurns s ↔ engineReady s = true := by
  simp [enabledTurns]

theorem mem_enabledTurns_host {s : State} {k : Nat} :
    Turn.host k ∈ enabledTurns s ↔ hostReady s k = true := by
  simp only [enabledTurns, List.mem_append, List.mem_map, List.mem_filter, List.mem_range]
  constructor
  · rintro (⟨j, ⟨_, hj⟩, e⟩ | h | h)
    · cases e; exact hj
    · split at h <;> simp at h
    · split at h <;> simp at h
  · intro h
    refine .inl ⟨k, ⟨?_, h⟩, rfl⟩
    by_contra hk
    have hn : s.threads[k]? = none := List.getElem?_eq_none (by omega)
    simp [hostReady, hn] at h

/-- Fetching moves the thread's program and the owner only. -/
theorem fetch_some {k : Nat} {s w : State} {op : HostNext} (h : fetch k s = some (op, w)) :
    w = { s with threads := w.threads, owner := w.owner } := by
  unfold fetch at h
  split at h
  · cases h
  · split at h
    · cases h
    · cases h; rfl

/-- Everything a step can be. -/
theorem step_cases {s t : State} (h : step s = .next t) :
    s.fault = none ∧ s.refused = none ∧
      ((chooseTurn s = none ∧ isFinal s = true ∧ t = s)
        ∨ (∃ u, chooseTurn s = some (.ctl, u) ∧ t = ctlStep u)
        ∨ (∃ u, chooseTurn s = some (.engine, u) ∧ t = engineStep u)
        ∨ (∃ k u i w, chooseTurn s = some (.host k, u) ∧ fetch k u = some (.instr i, w)
            ∧ exec i w = .next t)
        ∨ (∃ k u a w, chooseTurn s = some (.host k, u) ∧ fetch k u = some (.act a, w)
            ∧ t = hostAct k a w)) := by
  unfold step at h
  split at h
  · cases h
  · split at h
    · cases h
    · refine ⟨‹_›, ‹_›, ?_⟩
      split at h
      · split at h
        · cases h; exact .inl ⟨‹_›, ‹_›, rfl⟩
        · cases h
      · cases h; exact .inr (.inl ⟨_, ‹_›, rfl⟩)
      · cases h; exact .inr (.inr (.inl ⟨_, ‹_›, rfl⟩))
      · split at h
        · cases h
        · exact .inr (.inr (.inr (.inl ⟨_, _, _, _, ‹_›, ‹_›, h⟩)))
        · cases h; exact .inr (.inr (.inr (.inr ⟨_, _, _, _, ‹_›, ‹_›, rfl⟩)))

/-- Every meaning is the host's access or a command, taken where nothing is recorded. -/
theorem exec_cases (i : Instr) (s : State) :
    (∃ r, exec i s = whenLive s (hostAfter (readOf r) s))
      ∨ (∃ r v, exec i s = whenLive s (hostAfter (writeOf r v) s))
      ∨ ∃ c, exec i s = whenLive s (acceptCmd c s) := by
  cases i
  · exact .inl ⟨.cs, rfl⟩
  · exact .inl ⟨.fifo, rfl⟩
  · exact .inl ⟨.clk, rfl⟩
  · exact .inl ⟨.dlen, rfl⟩
  · exact .inl ⟨.ltoh, rfl⟩
  · exact .inl ⟨.dc, rfl⟩
  · exact .inr (.inl ⟨.cs, _, rfl⟩)
  · exact .inr (.inl ⟨.fifo, _, rfl⟩)
  · exact .inr (.inl ⟨.clk, _, rfl⟩)
  · exact .inr (.inl ⟨.dlen, _, rfl⟩)
  · exact .inr (.inl ⟨.ltoh, _, rfl⟩)
  · exact .inr (.inl ⟨.dc, _, rfl⟩)
  · exact .inr (.inr ⟨_, rfl⟩)
  · exact .inr (.inr ⟨_, rfl⟩)
  · exact .inr (.inr ⟨_, rfl⟩)

end Sys2Proof.Machine
end

