-- ==== Sys2Proof/Laws/Preserve.lean ====
section
/-! SUPPORT. When a step keeps a predicate on the block: it is enough that each transaction, each
recorded stop and each engine step keeps it. -/

namespace Sys2Proof.Machine

/-- `t` has the block of `s`: CS, CDIV, the queues, the shifter, the wire, the stops and the
parameters. -/
structure SameBlock (s t : State) : Prop where
  csRw : t.csRw = s.csRw
  clkCdiv : t.clkCdiv = s.clkCdiv
  txq : t.txq = s.txq
  rxq : t.rxq = s.rxq
  shifter : t.shifter = s.shifter
  wire : t.wire = s.wire
  fault : t.fault = s.fault
  refused : t.refused = s.refused
  params : t.params = s.params

theorem SameBlock.trans {s t u : State} (h : SameBlock s t) (k : SameBlock t u) : SameBlock s u :=
  ⟨k.csRw.trans h.csRw, k.clkCdiv.trans h.clkCdiv, k.txq.trans h.txq, k.rxq.trans h.rxq,
    k.shifter.trans h.shifter, k.wire.trans h.wire, k.fault.trans h.fault,
    k.refused.trans h.refused, k.params.trans h.params⟩

/-- A predicate on the block that transactions, stops and engine steps keep. -/
structure KeptByOps (P : State → Prop) : Prop where
  block : ∀ s t, SameBlock s t → P s → P t
  stop : ∀ s e, s.fault = none → s.refused = none → P s → P (recordStop e s)
  transact : ∀ a x s v t, s.fault = none → s.refused = none → P s → transact a x s = .ok (v, t) →
    P t
  engine : ∀ s, s.fault = none → s.refused = none → P s → P (engineStep s)

variable {P : State → Prop} {s t u : State}

theorem SchedMoved.block (h : SchedMoved s u) : SameBlock s u := by
  rw [h]
  constructor <;> rfl

theorem giveHost_block (x : Access) (v : Word) (s : State) : SameBlock s (giveHost x v s) := by
  unfold giveHost
  split <;> constructor <;> rfl

theorem hostAfter_keeps (hP : KeptByOps P) (hf : s.fault = none) (hr : s.refused = none) (h : P s)
    (x : Access) : P (hostAfter x s) := by
  rcases hostAfter_cases x s with ⟨e, _, h1⟩ | ⟨v, t, he, h1⟩ <;> rw [h1]
  · exact hP.stop _ _ hf hr h
  · exact hP.block _ _ (giveHost_block _ _ _) (hP.transact _ _ _ _ _ hf hr h he)

theorem hostThen_keeps (hP : KeptByOps P) (hf : s.fault = none) (hr : s.refused = none) (h : P s)
    (x : Access) (k : Word → State → State) (hk : ∀ v t, SameBlock t (k v t)) :
    P (hostThen x k s) := by
  rcases hostThen_cases x k s with ⟨e, _, h1⟩ | ⟨v, t, he, h1⟩ <;> rw [h1]
  · exact hP.stop _ _ hf hr h
  · exact hP.block _ _ ((giveHost_block _ _ _).trans (hk _ _)) (hP.transact _ _ _ _ _ hf hr h he)

theorem ctlBus_keeps (hP : KeptByOps P) (hf : s.fault = none) (hr : s.refused = none) (h : P s)
    (x : Access) (k : Word → State → State)
    (hk : ∀ v t, SameBlock t (k v t) ∨ ∃ e, k v t = recordStop e s) : P (ctlBus x k s) := by
  rcases ctlBus_cases x k s with ⟨e, _, h1⟩ | ⟨v, t, he, h1⟩ <;> rw [h1]
  · exact hP.stop _ _ hf hr h
  · rcases hk v t with k | ⟨e, k⟩
    · exact hP.block _ _ k (hP.transact _ _ _ _ _ hf hr h he)
    · rw [k]
      exact hP.stop _ _ hf hr h

theorem pollFailed_block (v : Word) (s t : State) :
    SameBlock t (pollFailed v s t) ∨ ∃ e, pollFailed v s t = recordStop e s := by
  unfold pollFailed
  simp only
  split
  · left
    constructor <;> rfl
  · split
    · exact .inr ⟨.fault _, rfl⟩
    · left
      constructor <;> rfl

/-- A controller step keeps what transactions and stops keep. -/
theorem ctlStep_keeps (hP : KeptByOps P) (hf : s.fault = none) (hr : s.refused = none) (h : P s) :
    P (ctlStep s) := by
  have plain : ∀ x (k : Word → State → State), (∀ v t, SameBlock t (k v t)) → P (ctlBus x k s) :=
    fun x k hk => ctlBus_keeps hP hf hr h x k fun v t => .inl (hk v t)
  unfold ctlStep
  split
  · exact h
  · exact plain _ _ fun v t => by constructor <;> rfl
  · unfold stepCfgWr
    split
    · refine plain _ _ fun v t => ?_
      unfold afterCfgWr
      split <;> constructor <;> rfl
    all_goals exact h
  · exact plain _ _ fun v t => by constructor <;> rfl
  · exact plain _ _ fun v t => by constructor <;> rfl
  · refine ctlBus_keeps hP hf hr h _ _ fun v t => ?_
    unfold afterWaitTxd
    split
    · left
      constructor <;> rfl
    · exact pollFailed_block _ _ _
  · unfold stepPush
    split
    · refine plain _ _ fun v t => ?_
      unfold afterPush
      simp only
      split <;> constructor <;> rfl
    · exact hP.block _ _ (by constructor <;> rfl) h
  · refine ctlBus_keeps hP hf hr h _ _ fun v t => ?_
    unfold afterWaitDone
    split
    · left
      constructor <;> rfl
    · exact pollFailed_block _ _ _
  · exact plain _ _ fun v t => by constructor <;> rfl
  · exact plain _ _ fun v t => by constructor <;> rfl
  · exact plain _ _ fun v t => by constructor <;> rfl
  · exact plain _ _ fun v t => by constructor <;> rfl

/-- A host operation keeps what transactions and stops keep. -/
theorem hostAct_keeps (hP : KeptByOps P) (hf : s.fault = none) (hr : s.refused = none) (h : P s)
    (k : Nat) (a : HostAct) : P (hostAct k a s) := by
  unfold hostAct
  split
  · exact hostAfter_keeps hP hf hr h _
  · exact hP.stop _ (.refuse _) hf hr h
  · exact hostThen_keeps hP hf hr h _ _ fun v t => by constructor <;> rfl
  · exact hostThen_keeps hP hf hr h _ _ fun v t => by constructor <;> rfl
  · exact hostAfter_keeps hP hf hr h _
  · exact hostThen_keeps hP hf hr h _ _ fun v t => by constructor <;> rfl
  · unfold pollTestStep
    split
    · exact h
    · split
      · exact hP.block _ _ (by constructor <;> rfl) h
      · split
        · exact hP.stop _ (.fault _) hf hr h
        · exact hP.block _ _ (by constructor <;> rfl) h

/-- A meaning keeps what transactions and stops keep. -/
theorem exec_keeps (hP : KeptByOps P) (h : P s) (i : Instr) (he : exec i s = .next t) : P t := by
  rcases exec_cases i s with ⟨r, e⟩ | ⟨r, v, e⟩ | ⟨c, e⟩ <;> rw [e] at he <;>
    obtain ⟨hf, hr, rfl⟩ := whenLive_eq_next he
  · exact hostAfter_keeps hP hf hr h _
  · exact hostAfter_keeps hP hf hr h _
  · refine hP.block _ _ ?_ h
    unfold acceptCmd
    split <;> constructor <;> rfl

/-- A step keeps what transactions, stops and engine steps keep. -/
theorem step_keeps (hP : KeptByOps P) (h : P s) (hs : step s = .next t) : P t := by
  obtain ⟨hf, hr, h3⟩ := step_cases hs
  rcases h3 with ⟨_, _, rfl⟩ | ⟨u, hu, rfl⟩ | ⟨u, hu, rfl⟩ | ⟨k, u, i, w, hu, hw, he⟩
    | ⟨k, u, a, w, hu, hw, rfl⟩
  · exact h
  all_goals
    have hm := (chooseTurn_some hu).2
    have hfu : u.fault = none := by rw [hm]; exact hf
    have hru : u.refused = none := by rw [hm]; exact hr
    have hpu : P u := hP.block _ _ hm.block h
  · exact ctlStep_keeps hP hfu hru hpu
  · exact hP.engine _ hfu hru hpu
  · have hpw : P w := hP.block _ _ (by rw [fetch_some hw]; constructor <;> rfl) hpu
    exact exec_keeps hP hpw i he
  · have hpw : P w := hP.block _ _ (by rw [fetch_some hw]; constructor <;> rfl) hpu
    exact hostAct_keeps hP (by rw [fetch_some hw]; exact hfu) (by rw [fetch_some hw]; exact hru) hpw
      _ _

end Sys2Proof.Machine
end

