-- ==== Sys2Proof/Tests/Slice0.lean ====
section
/-! SUPPORT. Small tests, with the values of spec/95_test_vectors.md, and a witness for the
hypotheses of each statement that has some. -/

namespace Sys2Proof.Tests

open Sys2Proof Sys2Proof.Machine Sys2Proof.Safety Sys2Proof.Claims

/-- The example instantiation of spec/95_test_vectors.md section 0. -/
def ex : Config.Params where
  periphBase := 0x20000000
  txDepth := 16
  rxDepth := 16
  rxrLevel := 12
  coreClock := 0

/-- Reset with the example instantiation. -/
def s0 : State := resetWith ex

/-- TA = 1 with nothing queued. -/
def sTa : State := { s0 with csRw := 0x00001080#32, wire := [.select 0#2] }

/-- TA = 1 with one unit in the shifter. -/
def sShift : State := { sTa with shifter := some (.byte 0x0A#8) }

/-- TA = 1 with one unit queued. -/
def sQueued : State := { sTa with txq := [.byte 0x0A#8] }

/-- The state after an outcome. -/
def nextOf (o : Host.Outcome State Fault Refusal) : Option State :=
  match o with
  | .next t => some t
  | .fault _ => none
  | .refused _ => none

/-- The outcome is a next state with no stop recorded. -/
def clean (o : Host.Outcome State Fault Refusal) : Bool :=
  match o with
  | .next t => live t
  | .fault _ => false
  | .refused _ => false

/-- The fault an outcome records. -/
def faultOf (o : Host.Outcome State Fault Refusal) : Option FaultKind :=
  (nextOf o).bind State.fault

/-! ## Well-formedness -/

theorem illformed_of_length {payload : List Byte} (h : payload.length = 2 ^ 32) :
    ¬ WellFormed (.send payload) := by
  intro hw
  have := of_decide_eq_true hw
  omega

/-- A payload of 2^32 bytes has no encoding (R105). -/
theorem test_illformed_send : ¬ WellFormed (.send (List.replicate (2 ^ 32) 0#8)) :=
  illformed_of_length List.length_replicate

theorem test_wellformed_send : WellFormed (.send [0x0A#8, 0x0F#8]) := by decide

/-! ## Decoding, with the words of 95_test_vectors.md 2.1 -/

theorem test_decode_reads :
    decode [0x00, 0, 0, 0, 0] = (.instr .rdCs, []) ∧ decode [0x04, 0, 0, 0, 0] = (.instr .rdFifo, [])
      ∧ decode [0x08, 0, 0, 0, 0] = (.instr .rdClk, [])
      ∧ decode [0x0C, 0, 0, 0, 0] = (.instr .rdDlen, [])
      ∧ decode [0x10, 0, 0, 0, 0] = (.instr .rdLtoh, [])
      ∧ decode [0x14, 0, 0, 0, 0] = (.instr .rdDc, []) := by decide

theorem test_decode_writes :
    decode [0x80, 0x80, 0x10, 0x04, 0x00] = (.instr (.wrCs 0x00041080#32), [])
      ∧ decode [0x84, 0x55, 0x00, 0x00, 0x00] = (.instr (.wrFifo 0x00000055#32), [])
      ∧ decode [0x88, 0x00, 0x80, 0x00, 0x00] = (.instr (.wrClk 0x00008000#32), [])
      ∧ decode [0x8C, 0x02, 0x00, 0xFF, 0xFF] = (.instr (.wrDlen 0xFFFF0002#32), [])
      ∧ decode [0x90, 0x1F, 0x00, 0x00, 0x00] = (.instr (.wrLtoh 0x0000001F#32), [])
      ∧ decode [0x94, 0xFF, 0xFF, 0xFF, 0xFF] = (.instr (.wrDc 0xFFFFFFFF#32), []) := by decide

theorem test_decode_cfg :
    decode [0x40, 0x00, 0x80, 0x00, 0x00] = (.instr (.cfg 0#1 0#2 0#1 0#1 0x8000#16), [])
      ∧ decode [0x40, 0x00, 0x01, 0x1B, 0x00] = (.instr (.cfg 1#1 2#2 1#1 1#1 0x0100#16), [])
      ∧ decode [0x40, 0xFF, 0xFF, 0x1F, 0x00] = (.instr (.cfg 1#1 3#2 1#1 1#1 0xFFFF#16), []) := by
  decide

/-- `clock_phase` is `opd[16]` and `clock_polarity` is `opd[17]` (R104). -/
theorem test_decode_cfg_phase_polarity :
    decode [0x40, 0x00, 0x00, 0x01, 0x00] = (.instr (.cfg 0#1 0#2 1#1 0#1 0#16), [])
      ∧ decode [0x40, 0x00, 0x00, 0x02, 0x00] = (.instr (.cfg 0#1 0#2 0#1 1#1 0#16), []) := by decide

theorem test_decode_send :
    decode [0x41, 0, 0, 0, 0, 0x77] = (.instr (.send []), [0x77])
      ∧ decode [0x41, 0x02, 0, 0, 0, 0x0A, 0x0F] = (.instr (.send [0x0A, 0x0F]), [])
      ∧ (decode [0x41, 0x02, 0, 0, 0, 0x0A]).1 = .truncated := by decide

theorem test_decode_send1 :
    decode [0x42, 0x55, 0x00, 0x00, 0x00] = (.instr (.send1 0x55#8), []) := by decide

theorem test_decode_malformed :
    decode [0x00, 0x01, 0, 0, 0] = (.reserved .nonZeroReadOperand, [])
      ∧ decode [0x02, 0, 0, 0, 0] = (.badAccess .rd 0x02#6, [])
      ∧ decode [0x98, 0, 0, 0, 0] = (.badAccess .wr 0x18#6, [])
      ∧ decode [0xA0, 0, 0, 0, 0] = (.badAccess .wr 0x20#6, [])
      ∧ decode [0x40, 0, 0, 0x20, 0] = (.reserved .reservedOperandBits, [])
      ∧ decode [0x42, 0, 0x01, 0, 0] = (.reserved .reservedOperandBits, [])
      ∧ decode [0x43, 0, 0, 0, 0] = (.reserved .reservedCommand, [])
      ∧ decode [0x7F, 0, 0, 0, 0] = (.reserved .reservedCommand, [])
      ∧ decode [0xC0, 0, 0, 0, 0] = (.reserved .reservedFormat, [])
      ∧ decode [0xFF, 0x78, 0x56, 0x34, 0x12] = (.reserved .reservedFormat, []) := by decide

/-! ## Bus reads (95_test_vectors.md 2.3 to 2.5) -/

theorem test_rd_cs : (nextOf (exec .rdCs s0)).map State.rdata = some 0x00041000#32 := by decide

/-- `RXR_LEVEL = 1`: DONE, RXD, TXD and RXR are set (2.7). -/
theorem test_rd_cs_flags :
    (nextOf (exec .rdCs { sTa with params := { ex with rxrLevel := 1 }
                                   rxq := [.byte 0#8] })).map State.rdata
      = some 0x000F1080#32 := by decide

theorem test_rd_fifo :
    (nextOf (exec .rdFifo { s0 with rxq := [.byte 0xFF#8] })).map (fun t => (t.rdata, t.rxq))
      = some (0x000000FF#32, []) := by decide

theorem test_rd_fifo_empty :
    (nextOf (exec .rdFifo s0)).map (fun t => (t.rxq, t.fault)) = some ([], none) := by decide

theorem test_rd_clk :
    (nextOf (exec .rdClk { s0 with clkCdiv := 0x8000#16 })).map State.rdata
      = some 0x00008000#32 := by decide

theorem test_rd_dlen : (nextOf (exec .rdDlen s0)).map State.rdata = some 0#32 := by decide

theorem test_rd_ltoh : (nextOf (exec .rdLtoh s0)).map State.rdata = some 1#32 := by decide

theorem test_rd_dc : (nextOf (exec .rdDc s0)).map State.rdata = some 0x30201020#32 := by decide

/-! ## Bus writes (95_test_vectors.md 2.3 to 2.5) -/

/-- The clear comes before the new frame: TA 0 to 1 with CLEAR = 3. -/
theorem test_wr_cs :
    (nextOf (exec (.wrCs 0x000010B0#32) { s0 with txq := [.byte 1#8], rxq := [.byte 2#8] })).map
        (fun t => (t.csRw, t.txq, t.rxq, t.wire))
      = some (0x00001080#32, [], [], [.select 0#2]) := by decide

/-- DMA_LEN with TA = 1 is out of scope and is no reconfiguration (90_conflicts.md C7). -/
theorem test_wr_cs_stops :
    (nextOf (exec (.wrCs 0x01001080#32) sTa)).map State.refused = some (some .outOfScopeMode)
      ∧ faultOf (exec (.wrCs 0x00001081#32) sTa)
        = some (.reconfigureWhileActive .cs 0x00001080#32 0x00001081#32) := by decide

theorem test_wr_fifo :
    (nextOf (exec (.wrFifo 0x00001234#32) sTa)).map State.txq = some [.byte 0x34#8] := by decide

theorem test_wr_fifo_word :
    (nextOf (exec (.wrFifo 0x12345678#32) { sTa with csRw := 0x02001080#32 })).map State.txq
      = some [.word 0x12345678#32] := by decide

theorem test_wr_clk :
    (nextOf (exec (.wrClk 0x00018000#32) s0)).map State.clkCdiv = some 0x8000#16
      ∧ faultOf (exec (.wrClk 0x00000100#32) { sTa with clkCdiv := 0x8000#16 })
        = some (.reconfigureWhileActive .clk 0x00008000#32 0x00000100#32) := by decide

theorem test_wr_dlen :
    (nextOf (exec (.wrDlen 0xFFFF0002#32) s0)).map State.dlenLen = some 2#16 := by decide

theorem test_wr_ltoh :
    (nextOf (exec (.wrLtoh 0x0000001F#32) s0)).map State.ltohToh = some 0xF#4 := by decide

theorem test_wr_dc :
    (nextOf (exec (.wrDc 0xDEADBEEF#32) s0)).map State.dc = some 0xDEADBEEF#32 := by decide

/-! ## Commands and the controller -/

theorem test_cfg :
    (nextOf (exec (.cfg 1#1 2#2 1#1 1#1 0x0100#16) s0)).map (fun t => t.ctl.phase)
      = some (.cfgRd 0) := by decide

/-- P1's fourth transaction with CPOL = 1: CPOL is bit 3, and REN stays (L1.2). -/
theorem test_cfg_writes_cpol :
    (ctlStep { s0 with ctl := ⟨.cfgWr 3, some (.cfg 0#1 0#2 0#1 1#1 0#16), [], 0, 0x00041000#32, 0⟩
      }).csRw = 0x00001008#32 := by decide

theorem test_send :
    (nextOf (exec (.send [0x0A#8, 0x0F#8]) s0)).map (fun t => (t.ctl.phase, t.ctl.buf))
      = some (.setTaRd, [0x0A#8, 0x0F#8]) := by decide

/-- P2's second transaction. -/
theorem test_send_sets_ta :
    let t := ctlStep { s0 with ctl := ⟨.setTaWr, some .send, [0x0A#8], 0, 0x00041000#32, 0⟩ }
    (t.csRw, t.wire, t.ctl.phase, t.trace)
      = (0x00001080#32, [.select 0#2], .waitTxd, [⟨.ctl, .wr, 0, 0x00041080#32⟩]) := by decide

theorem test_send1 :
    (nextOf (exec (.send1 0x55#8) s0)).map (fun t => (t.ctl.phase, t.ctl.buf))
      = some (.setTaRd, [0x55#8]) := by decide

/-- A second command waits (R201). -/
theorem test_send1_waits :
    let s : State := { sTa with ctl := ⟨.waitDone, some .send, [], 0, 0#32, 0⟩ }
    nextOf (exec (.send1 0x55#8) s) = some s := by decide

/-! ## The serial engine (95_test_vectors.md 2.7) -/

theorem test_shift_start :
    ((engineStep sQueued).shifter, (engineStep sQueued).txq) = (some (.byte 0x0A#8), []) := by
  decide

theorem test_shift_end :
    ((engineStep sShift).shifter, (engineStep sShift).wire.length, (engineStep sShift).rxq.length)
      = (none, 2, 1) := by decide

theorem test_reserved_chip_select :
    (engineStep { sQueued with csRw := 0x00001083#32 }).fault
      = some (.reservedChipSelect (.byte 0x0A#8)) := by decide

/-! ## Host operations that are no rows of the table (95_test_vectors.md 2.2 and 2.6) -/

theorem test_getf :
    (hostAct 0 (.getf .csTxd) { s0 with threads := [⟨[], 0#32⟩] }).threads = [⟨[], 1#32⟩] := by
  decide

theorem test_setf_truncates :
    (hostAct 0 (.setfWrite .csCs 7#32 0x00041000#32) s0).trace
      = [⟨.host, .wr, 0, 0x00041003#32⟩] := by decide

theorem test_pollf_times_out :
    let s : State := { s0 with params := { ex with spinLimit := some 3 } }
    (hostAct 0 (.pollTest .done 2 0x00041000#32) s).fault = some (.transferTimeout .idle 3) := by
  decide

theorem test_narrow_access :
    faultOf (hostBus ⟨.rd, 0, 2, 0#32⟩ s0) = some (.badAccess .host .rd 0) := by decide

/-! ## Witnesses: states and operands that meet each statement's hypotheses -/

/-- A controller in a phase of a send of two bytes, the first `idx` of them written. -/
def sendCtl (p : Phase) (idx : Nat) : Ctl := ⟨p, some .send, [0x0A#8, 0x0F#8], idx, 0x00041080#32, 0⟩

/-- TA = 1, a send of two bytes in a phase. -/
def sSend (p : Phase) (idx : Nat) : State := { sTa with ctl := sendCtl p idx }

/-- A full TX FIFO. -/
def sFull : State := { sTa with txq := List.replicate 16 (.byte 0#8) }

/-- One host thread with a stream to run. -/
def sHost (bytes : List Byte) : State := { s0 with threads := [⟨[.stream bytes], 0#32⟩] }

/-- A busy controller, its command issued by thread 1, and thread 0 about to act. -/
def sBusy (bytes : List Byte) : State :=
  { sHost bytes with owner := 1, sched := [.host 0], ctl := sendCtl .waitTxd 0 }

/-- RESERVED_READ = draw. -/
def sDraw : State := { s0 with params := { ex with reservedRead := .draw } }

theorem access_s0 : HostMayAccess s0 := ⟨rfl, rfl, rfl⟩

theorem access_sTa : HostMayAccess sTa := ⟨rfl, rfl, rfl⟩

theorem access_sShift : HostMayAccess sShift := ⟨rfl, rfl, rfl⟩

theorem regInv_s0 : RegInv s0 :=
  ⟨by decide, by decide, by decide, by decide, by decide, .inl rfl⟩

theorem regInv_sTa : RegInv sTa :=
  ⟨by decide, by decide, by decide, by decide, by decide, .inl rfl⟩

theorem regInv_sShift : RegInv sShift :=
  ⟨by decide, by decide, by decide, by decide, by decide, .inl rfl⟩

theorem regInv_sQueued : RegInv sQueued :=
  ⟨by decide, by decide, by decide, by decide, by decide, .inl rfl⟩

theorem regInv_sFull : RegInv sFull :=
  ⟨by decide, by decide, by decide, by decide, by decide, .inl rfl⟩

theorem witness_DecodeUndoesEncode : WellFormed (.send [0x0A#8]) := by decide

theorem witness_EncodeUndoesDecode :
    decode [0x42, 0x55, 0, 0, 0, 0x77] = (.instr (.send1 0x55#8), [0x77]) := by decide

theorem witness_ReservedFormatIsNoOperation :
    (opOf 0x00000000C0#40).extractLsb' 6 2 = 3#2 ∧ (opOf 0x12345678FF#40).extractLsb' 6 2 = 3#2 := by
  decide

/-- Each clause at the ends of its range. -/
theorem witness_MalformedWordsAreClassified :
    (∀ w ∈ [0x0000000001#40, 0x000000003F#40, 0x0000000098#40, 0x00000000BF#40],
      (opOf w).getLsbD 6 = false
        ∧ ((opOf w).extractLsb' 0 6).toNat ∉ [0x00, 0x04, 0x08, 0x0C, 0x10, 0x14])
    ∧ (∀ w ∈ [0x0000000100#40, 0xFFFFFFFF14#40], (opOf w).getLsbD 6 = false
        ∧ (opOf w).getLsbD 7 = false
        ∧ ((opOf w).extractLsb' 0 6).toNat ∈ [0x00, 0x04, 0x08, 0x0C, 0x10, 0x14]
        ∧ opdOf w ≠ 0#32)
    ∧ (∀ w ∈ [0x0000000043#40, 0x000000007F#40], (opOf w).extractLsb' 6 2 = 1#2
        ∧ 3 ≤ ((opOf w).extractLsb' 0 6).toNat)
    ∧ (∀ w ∈ [0x0020000040#40, 0x8000000040#40], opOf w = 0x40#8
        ∧ (opdOf w).extractLsb' 21 11 ≠ 0#11)
    ∧ (∀ w ∈ [0x0000010042#40, 0x8000000042#40], opOf w = 0x42#8
        ∧ (opdOf w).extractLsb' 8 24 ≠ 0#24) := by
  refine ⟨?_, ?_, ?_, ?_, ?_⟩ <;> intro w hw <;>
    simp only [List.mem_cons, List.not_mem_nil, or_false] at hw
  · rcases hw with rfl | rfl | rfl | rfl <;> decide
  all_goals rcases hw with rfl | rfl <;> decide

theorem witness_StepRunsDecodedInstruction :
    Live (sHost [0, 0, 0, 0, 0]) ∧ chooseTurn (sHost [0, 0, 0, 0, 0])
        = some (.host 0, sHost [0, 0, 0, 0, 0])
      ∧ (sHost [0, 0, 0, 0, 0]).threads[0]? = some ⟨[.stream [0, 0, 0, 0, 0]], 0#32⟩
      ∧ decode [0, 0, 0, 0, 0] = (.instr .rdCs, []) :=
  ⟨⟨rfl, rfl⟩, rfl, rfl, by decide⟩

theorem witness_StepOnMalformedWords_badAccess :
    Live (sHost [0x98, 0, 0, 0, 0]) ∧ chooseTurn (sHost [0x98, 0, 0, 0, 0])
        = some (.host 0, sHost [0x98, 0, 0, 0, 0])
      ∧ decode [0x98, 0, 0, 0, 0] = (.badAccess .wr 0x18#6, []) :=
  ⟨⟨rfl, rfl⟩, rfl, by decide⟩

theorem witness_StepOnMalformedWords_busy :
    Live (sBusy [0x98, 0, 0, 0, 0]) ∧ (sBusy [0x98, 0, 0, 0, 0]).ctl.phase ≠ .idle
      ∧ chooseTurn (sBusy [0x98, 0, 0, 0, 0])
        = some (.host 0, { sBusy [0x98, 0, 0, 0, 0] with sched := [] }) :=
  ⟨⟨rfl, rfl⟩, by decide, rfl⟩

theorem witness_StepOnMalformedWords_reserved :
    Live (sHost [0xC0, 0, 0, 0, 0]) ∧ chooseTurn (sHost [0xC0, 0, 0, 0, 0])
        = some (.host 0, sHost [0xC0, 0, 0, 0, 0])
      ∧ decode [0xC0, 0, 0, 0, 0] = (.reserved .reservedFormat, []) :=
  ⟨⟨rfl, rfl⟩, rfl, by decide⟩

theorem witness_PlacedWordRunsNext :
    HostMayAccess s0 ∧ decode (tableBytes 40 0x0000005584) = (.instr (.wrFifo 0x55#32), [])
      ∧ decode (tableBytes 8 0x41) = (.instr (.send []), []) :=
  ⟨access_s0, by decide, by decide⟩

theorem witness_StopsAreNeverCleared :
    (raise (.badAccess .host .rd 1) s0).fault = some (.badAccess .host .rd 1)
      ∧ (refuse .outOfScopeMode s0).fault = none
      ∧ (refuse .outOfScopeMode s0).refused = some .outOfScopeMode := by decide

theorem witness_EveryEnabledAgentMayStep :
    enabledTurns { sQueued with threads := [⟨[.getf .csTxd], 0#32⟩] } = [.host 0, .engine]
      ∧ enabledTurns (sSend .push 1) = [.ctl]
      ∧ chooseTurn (sSend .push 1) = some (.ctl, sSend .push 1) :=
  ⟨by decide, by decide, rfl⟩

theorem witness_FinalStateWaits :
    isFinal s0 = true ∧ Stuck { s0 with txq := [.byte 0x0A#8] }
      ∧ Live { s0 with txq := [.byte 0x0A#8] } ∧ (refuse .outOfScopeMode s0).refused ≠ none
      ∧ (raise (.badAccess .host .rd 1) s0).fault ≠ none :=
  ⟨by decide, ⟨by decide, by decide⟩, ⟨rfl, rfl⟩, by decide, by decide⟩

/-- R301, R318: a run that stops in a refusal refutes the observation and shows none. -/
theorem test_refusal_refutes :
    let s := refuse .outOfScopeMode s0
    Run (fun _ => s) ∧ Refutes (fun _ => s) ∧ ∀ o, ¬ Shows (fun _ => s) o := by
  refine ⟨fun _ => .inr ⟨?_, rfl⟩, .inr (.inl ⟨0, by decide, by decide⟩), ?_⟩
  · intro t h
    cases h
  · rintro o ⟨_, h, _⟩
    cases h

theorem witness_RdCsReturnsFieldsAndFlags :
    HostMayAccess s0 ∧ s0.params.reservedRead = .zero ∧ HostMayAccess sDraw
      ∧ sDraw.params.reservedRead = .draw :=
  ⟨access_s0, rfl, ⟨rfl, rfl, rfl⟩, rfl⟩

theorem witness_RdFifoPopsOrDraws :
    HostMayAccess { s0 with rxq := [.byte 0xFF#8] }
      ∧ HostMayAccess { s0 with rxq := [.word 0xFFFFFFFF#32] }
      ∧ HostMayAccess s0 ∧ s0.rxq = [] :=
  ⟨⟨rfl, rfl, rfl⟩, ⟨rfl, rfl, rfl⟩, access_s0, rfl⟩

theorem witness_PlainReadsReturnStoredFields :
    HostMayAccess s0 ∧ s0.params.reservedRead = .zero ∧ HostMayAccess sDraw
      ∧ sDraw.params.reservedRead = .draw :=
  witness_RdCsReturnsFieldsAndFlags

theorem witness_ReadsFrame :
    clean (exec .rdCs s0) = true ∧ clean (exec .rdFifo { s0 with rxq := [.byte 1#8] }) = true := by
  decide

/-- A transaction stands. -/
def stands (r : Except Stop (Word × State)) : Bool :=
  match r with
  | .ok _ => true
  | .error _ => false

theorem witness_DoneFlagFollowsItsFormula :
    RegInv sTa ∧ HostMayAccess sTa ∧ stands (transact .ctl (writeOf .fifo 0x55#32) sTa) = true
      ∧ stands (transact .host (writeOf .cs 0x00001000#32) sTa) = true
      ∧ stands (transact .host (readOf .fifo) sTa) = true
      ∧ RegInv sShift ∧ shiftEndReady sShift = true :=
  ⟨regInv_sTa, access_sTa, by decide, by decide, by decide, regInv_sShift, by decide⟩

theorem witness_WrCsStoresClearsAndSwitches :
    HostMayAccess s0 ∧ ¬ Reconfigures 0x000010B0#32 s0 ∧ ¬ LeavesScope 0x000010B0#32
      ∧ s0.shifter = none
      ∧ HostMayAccess sShift ∧ ¬ Reconfigures 0x000010A0#32 sShift ∧ ¬ LeavesScope 0x000010A0#32
      ∧ (0x000010A0#32).getLsbD 4 = false
      ∧ (sShift.csRw.getLsbD 7 = true → (0x000010A0#32).getLsbD 7 = true) :=
  ⟨access_s0, by decide, by decide, rfl, access_sShift, by decide, by decide, by decide, by decide⟩

theorem witness_ClearingTaFinishesOrAborts :
    HostMayAccess sShift ∧ ¬ Reconfigures 0x00001030#32 sShift
      ∧ sShift.shifter = some (.byte 0x0A#8) ∧ sShift.csRw.getLsbD 7 = true
      ∧ (0x00001030#32).getLsbD 7 = false :=
  ⟨access_sShift, by decide, rfl, by decide, by decide⟩

theorem witness_TxClearKeepsOrDiscards :
    HostMayAccess sShift ∧ ¬ Reconfigures 0x00001090#32 sShift ∧ ¬ LeavesScope 0x00001090#32
      ∧ sShift.shifter = some (.byte 0x0A#8) ∧ sShift.csRw.getLsbD 7 = true
      ∧ (0x00001090#32).getLsbD 7 = true ∧ (0x00001090#32).getLsbD 4 = true :=
  ⟨access_sShift, by decide, by decide, rfl, by decide, by decide, by decide⟩

/-- A change of each frozen field, CS and LEN_LONG at the mask's ends. -/
theorem witness_ReconfigureWhileActiveFaults :
    HostMayAccess sTa ∧ Reconfigures 0x00001081#32 sTa ∧ Reconfigures 0x02001080#32 sTa :=
  ⟨access_sTa, by decide, by decide⟩

theorem witness_OutOfScopeModeIsRefused :
    HostMayAccess s0 ∧ ¬ Reconfigures 0x00001180#32 s0 ∧ LeavesScope 0x00001180#32
      ∧ HostMayAccess sTa ∧ ¬ Reconfigures 0x01001080#32 sTa ∧ LeavesScope 0x01001080#32
      ∧ ¬ Reconfigures 0x00001100#32 s0 ∧ s0.csRw.getLsbD 7 = false
      ∧ (0x00001100#32).getLsbD 7 = false ∧ (0x00001100#32).extractLsb' 4 2 = 0#2 :=
  ⟨access_s0, by decide, by decide, access_sTa, by decide, by decide, by decide, by decide,
    by decide, by decide⟩

theorem witness_WrCsFrame : clean (exec (.wrCs 0x00001080#32) s0) = true := by decide

theorem witness_WrFifoPushesOneUnit :
    HostMayAccess { sTa with txq := List.replicate 15 (.byte 0#8) }
      ∧ sTa.csRw.getLsbD 7 = true
      ∧ (List.replicate 15 (FifoUnit.byte 0#8)).length < sTa.params.txDepth :=
  ⟨⟨rfl, rfl, rfl⟩, by decide, by decide⟩

theorem witness_WrFifoFaultsInactiveOrFull :
    HostMayAccess s0 ∧ s0.csRw.getLsbD 7 = false ∧ HostMayAccess sFull
      ∧ sFull.csRw.getLsbD 7 = true ∧ sFull.txq.length = sFull.params.txDepth :=
  ⟨access_s0, by decide, ⟨rfl, rfl, rfl⟩, by decide, by decide⟩

theorem witness_WrClkStoresOrFaults :
    HostMayAccess sTa ∧ (0xFFFF0000#32).extractLsb' 0 16 = sTa.clkCdiv
      ∧ sTa.csRw.getLsbD 7 = true ∧ (0x00000001#32).extractLsb' 0 16 ≠ sTa.clkCdiv :=
  ⟨access_sTa, by decide, by decide, by decide⟩

theorem witness_WrDlenLtohDcOnlyStore : HostMayAccess s0 := access_s0

theorem witness_OtherWritesFrame :
    clean (exec (.wrFifo 1#32) sTa) = true ∧ clean (exec (.wrClk 1#32) s0) = true
      ∧ clean (exec (.wrDlen 1#32) s0) = true ∧ clean (exec (.wrLtoh 1#32) s0) = true
      ∧ clean (exec (.wrDc 1#32) s0) = true := by decide

theorem witness_SingleOwner :
    Live (sSend .waitDone 2) ∧ (sSend .waitDone 2).ctl.phase ≠ .idle
      ∧ busForm (.wrDc 0#32) = some (.wr, 0x14) ∧ busForm (.send []) = none
      ∧ Live s0 ∧ s0.ctl.phase = .idle ∧ clean (hostBus (readOf .cs) s0) = true :=
  ⟨⟨rfl, rfl⟩, by decide, rfl, rfl, ⟨rfl, rfl⟩, rfl, by decide⟩

theorem witness_BadAccessFaults :
    HostMayAccess s0 ∧ (2 : Nat) ≠ 4 ∧ 0x01 ∉ [0x00, 0x04, 0x08, 0x0C, 0x10, 0x14]
      ∧ 0x18 ∉ [0x00, 0x04, 0x08, 0x0C, 0x10, 0x14] :=
  ⟨access_s0, by decide, by decide, by decide⟩

theorem witness_CommandsStartTheController : HostMayAccess s0 := access_s0

theorem witness_CommandsFrame :
    busForm (.send1 0#8) = none ∧ clean (exec (.send1 0#8) s0) = true
      ∧ clean (exec (.send1 0#8) (sSend .push 0)) = true
      ∧ (sSend .push 0).ctl.phase ≠ .idle := by decide

theorem witness_Send1RunsAsSend :
    clean (exec (.send1 0x55#8) s0) = true ∧ clean (exec (.send [0x55#8]) s0) = true
      ∧ ∀ k, (sSend .push 0).ctl.phase ≠ .cfgWr k := by decide

theorem witness_WaitTxdPolls :
    RegInv (sSend .waitTxd 0) ∧ (sSend .waitTxd 0).ctl.phase = .waitTxd
      ∧ (sSend .waitTxd 0).txq.length < (sSend .waitTxd 0).params.txDepth
      ∧ RegInv { sFull with ctl := sendCtl .waitTxd 0 }
      ∧ ¬ sFull.txq.length < sFull.params.txDepth ∧ sFull.params.spinLimit = none :=
  ⟨⟨by decide, by decide, by decide, by decide, by decide, .inl rfl⟩, rfl, by decide,
    ⟨by decide, by decide, by decide, by decide, by decide, .inl rfl⟩, by decide, rfl⟩

theorem witness_WaitDonePolls :
    RegInv (sSend .waitDone 2) ∧ (sSend .waitDone 2).ctl.phase = .waitDone
      ∧ (sSend .waitDone 2).csRw.getLsbD 7 = true ∧ (sSend .waitDone 2).txq = []
      ∧ (sSend .waitDone 2).shifter = none
      ∧ RegInv { sShift with ctl := sendCtl .waitDone 2 } ∧ sShift.shifter ≠ none :=
  ⟨⟨by decide, by decide, by decide, by decide, by decide, .inl rfl⟩, rfl, by decide, rfl, rfl,
    ⟨by decide, by decide, by decide, by decide, by decide, .inl rfl⟩, by decide⟩

/-- The first failed poll with SPIN_LIMIT = 1, in each of the two waits. -/
theorem witness_SpinLimitFaults :
    RegInv { sShift with params := { ex with spinLimit := some 1 }, ctl := sendCtl .waitDone 2 }
      ∧ sShift.shifter ≠ none
      ∧ RegInv { sFull with params := { ex with spinLimit := some 1 }, ctl := sendCtl .waitTxd 0 }
      ∧ ¬ sFull.txq.length < ex.txDepth ∧ 1 ≤ (sendCtl .waitTxd 0).spins + 1 :=
  ⟨⟨by decide, by decide, by decide, by decide, by decide, .inl rfl⟩, by decide,
    ⟨by decide, by decide, by decide, by decide, by decide, .inl rfl⟩, by decide, by decide⟩

theorem witness_PushWritesOneByte :
    (sSend .push 1).ctl.phase = .push
      ∧ (sSend .push 1).ctl.buf[(sSend .push 1).ctl.idx]? = some 0x0F#8
      ∧ (sSend .push 1).csRw.getLsbD 7 = true
      ∧ (sSend .push 1).txq.length ≠ (sSend .push 1).params.txDepth
      ∧ sFull.csRw.getLsbD 7 = true ∧ sFull.txq.length = sFull.params.txDepth := by decide

theorem witness_PushAfterTxdAndClearAfterDone :
    RegInv (sSend .waitTxd 0)
      ∧ (nextOf (step (sSend .waitTxd 0))).map (fun t => t.ctl.phase) = some .push
      ∧ (nextOf (step (sSend .waitDone 2))).map (fun t => t.ctl.phase) = some .clrTaRd
      ∧ (nextOf (step (sSend .clrTaRd 2))).map (fun t => t.ctl.phase) = some .clrTaWr :=
  ⟨⟨by decide, by decide, by decide, by decide, by decide, .inl rfl⟩, by decide, by decide,
    by decide⟩

theorem witness_ControllerFollowsTheProtocol : clean (step (sSend .push 1)) = true := by decide

theorem witness_CfgSetsItsFiveFields :
    RegInv { s0 with ctl := ⟨.cfgRd 0, some (.cfg 1#1 2#2 1#1 1#1 0x0100#16), [], 0, 0#32, 0⟩ }
      ∧ s0.csRw.getLsbD 7 = false :=
  ⟨⟨by decide, by decide, by decide, by decide, by decide, .inl rfl⟩, by decide⟩

theorem witness_EmptySendEndsAfterEight :
    RegInv { s0 with ctl := ⟨.setTaRd, some .send, [], 0, 0#32, 0⟩ } ∧ 1 ≤ s0.params.txDepth
      ∧ s0.csRw.getLsbD 7 = false ∧ s0.txq = [] ∧ s0.shifter = none
      ∧ s0.csRw &&& 0x01002F00#32 = 0#32 :=
  ⟨⟨by decide, by decide, by decide, by decide, by decide, .inl rfl⟩, by decide, by decide, rfl, rfl,
    by decide⟩

/-- The last phase of a send, its last CS read being 0x00041000. -/
def sLast : State := { s0 with ctl := ⟨.clrFifoWr, some .send, [], 0, 0x00041000#32, 0⟩ }

theorem phaseInv_sLast : PhaseInv sLast := ⟨⟨rfl, rfl⟩, by decide, by decide, by decide⟩

theorem regInv_sLast : RegInv sLast :=
  ⟨by decide, by decide, by decide, by decide, by decide, .inl rfl⟩

theorem witness_CompletionLeavesACleanBlock :
    RegInv sLast ∧ PhaseInv sLast ∧ sLast.ctl.phase = .clrFifoWr ∧ 1 ≤ sLast.params.txDepth :=
  ⟨regInv_sLast, phaseInv_sLast, rfl, by decide⟩

theorem witness_SendNeverReconfigures :
    RegInv sLast ∧ PhaseInv sLast ∧ sLast.fault = none ∧ ∀ k, sLast.ctl.phase ≠ .cfgWr k :=
  ⟨regInv_sLast, phaseInv_sLast, rfl, by decide⟩

theorem witness_ShiftStartTakesTheHead :
    Live sQueued ∧ sQueued.csRw.getLsbD 7 = true ∧ sQueued.shifter = none
      ∧ sQueued.txq = [.byte 0x0A#8]
      ∧ (sQueued.params.rxStallWhenFull = true → sQueued.rxq.length < sQueued.params.rxDepth)
      ∧ sQueued.csRw.extractLsb' 0 2 ≠ 3#2 ∧ (0x00001083#32).extractLsb' 0 2 = 3#2 :=
  ⟨⟨rfl, rfl⟩, by decide, rfl, rfl, by decide, by decide, by decide⟩

theorem witness_ShiftEndLogsTheUnit :
    Live sShift ∧ sShift.csRw.getLsbD 7 = true ∧ sShift.shifter = some (.byte 0x0A#8) :=
  ⟨⟨rfl, rfl⟩, by decide, rfl⟩

theorem witness_EngineHoldsWithoutTaOrRoom :
    s0.csRw.getLsbD 7 = false ∧ sTa.txq = [] ∧ sTa.shifter = none
      ∧ ex.rxStallWhenFull = true
      ∧ (List.replicate 16 (FifoUnit.byte 0#8)).length = ex.rxDepth := by decide

theorem witness_UnitsKeepTheirOrder : clean (exec (.wrFifo 0x55#32) sQueued) = true := by decide

/-- The write of TA itself, with RESERVED_READ bits and other flags in the word read. -/
theorem witness_FieldWriteReadsBackTruncated :
    RegInv s0 ∧ HostMayAccess s0 ∧ fieldClass .csTa = .rw
      ∧ ReadEarlier (fieldReg .csTa) 0xFC001000#32 s0
      ∧ live (hostAct 0 (.setfWrite .csTa 1#32 0xFC001000#32) s0) = true
      ∧ fieldClass .clkCdiv = .rw ∧ ReadEarlier (fieldReg .clkCdiv) 0xFFFF0000#32 s0 :=
  ⟨regInv_s0, access_s0, rfl, ⟨by decide, by decide⟩, by decide, rfl,
    show 0xFFFF0000#32 &&& ~~~ reservedMask .clk = regValue s0 .clk by decide⟩

theorem witness_FieldWritePreservesOtherFields :
    RegInv s0 ∧ HostMayAccess s0 ∧ fieldClass .csRen = .rw ∧ Field.csRen ≠ .csClear
      ∧ ReadEarlier (fieldReg .csClear) 0x00041000#32 s0
      ∧ live (hostAct 0 (.setfWrite .csClear 3#32 0x00041000#32) s0) = true :=
  ⟨regInv_s0, access_s0, rfl, by decide, ⟨by decide, by decide⟩, by decide⟩

/-- With a unit queued, read before the unit was, and with a unit in the shifter. -/
theorem witness_ClearIsOneShot :
    RegInv sQueued ∧ HostMayAccess sQueued ∧ ReadEarlier .cs 0xFC051080#32 sQueued
      ∧ RegInv sShift ∧ HostMayAccess sShift ∧ ReadEarlier .cs 0x00041080#32 sShift
      ∧ truncTo 2 7#32 = 3#32 :=
  ⟨regInv_sQueued, ⟨rfl, rfl, rfl⟩, ⟨by decide, by decide⟩, regInv_sShift, access_sShift,
    ⟨by decide, by decide⟩, by decide⟩

theorem witness_RegInvKept : RegInv sQueued ∧ clean (step sQueued) = true :=
  ⟨regInv_sQueued, by decide⟩

theorem witness_PhaseInvKept : RegInv sLast ∧ PhaseInv sLast ∧ clean (step sLast) = true :=
  ⟨regInv_sLast, phaseInv_sLast, by decide⟩

theorem witness_WireInvKept : RegInv sQueued ∧ WireInv sQueued ∧ clean (step sQueued) = true :=
  ⟨regInv_sQueued, ⟨by decide, by decide⟩, by decide⟩

/-- The last byte into the last free slot. -/
theorem witness_FittingSendNeverOverflows :
    let s : State := { sSend .push 1 with txq := List.replicate 15 (.byte 0#8), sched := [.ctl] }
    RegInv s ∧ PhaseInv s ∧ PushFits s ∧ s.ctl.phase ≠ .idle ∧ clean (step s) = true :=
  ⟨⟨by decide, by decide, by decide, by decide, by decide, .inl rfl⟩, ⟨by decide, by decide⟩,
    show 16 ≤ 16 from Nat.le_refl 16, by decide, by decide⟩

theorem witness_ActiveTransferIsNotReconfigured :
    clean (step sQueued) = true ∧ sQueued.csRw.getLsbD 7 = true
      ∧ (nextOf (step sQueued)).map (fun t => t.csRw.getLsbD 7) = some true := by decide

theorem witness_LogsGrowByOneTransaction : clean (step (sSend .push 1)) = true := by decide

/-- The send of one byte of spec/95_test_vectors.md 2.8, about to begin, its schedule late. -/
def sOne : State :=
  { s0 with ctl := ⟨.setTaRd, some .send1, [0x55#8], 0, 0#32, 0⟩
            sched := [.ctl, .ctl, .ctl, .ctl, .engine, .engine] }

/-- The run from `sOne`. -/
def runOne : Nat → State
  | 0 => sOne
  | n + 1 => (nextOf (step (runOne n))).getD (runOne n)

theorem runOne_stays (n : Nat) : runOne (11 + n) = runOne 11 := by
  induction n with
  | zero => rfl
  | succ n ih =>
    show (nextOf (step (runOne (11 + n)))).getD (runOne (11 + n)) = runOne 11
    rw [ih]
    rfl

theorem runOne_run : Run runOne := by
  intro n
  by_cases h : n < 11
  · interval_cases n <;> exact .inl rfl
  · obtain ⟨k, rfl⟩ := Nat.exists_eq_add_of_le (Nat.le_of_not_lt h)
    rw [Nat.add_assoc, runOne_stays, runOne_stays]
    exact .inl rfl

theorem runOne_fair : FairEngine runOne := by
  intro n
  by_cases h : n < 11
  · exact ⟨11, by omega, .inl rfl⟩
  · exact ⟨n, Nat.le_refl n, .inl (by
      obtain ⟨k, rfl⟩ := Nat.exists_eq_add_of_le (Nat.le_of_not_lt h)
      rw [runOne_stays]
      rfl)⟩

theorem witness_FittingSendCompletes :
    Run runOne ∧ FairEngine runOne ∧ Live (runOne 0) ∧ (runOne 0).ctl.phase = .setTaRd ∧ (runOne 0).ctl.idx = 0
      ∧ (runOne 0).ctl.buf.length ≤ min (runOne 0).params.txDepth (runOne 0).params.rxDepth
      ∧ 1 ≤ (runOne 0).params.txDepth ∧ RegInv (runOne 0) ∧ (runOne 0).csRw.getLsbD 7 = false
      ∧ (runOne 0).txq = [] ∧ (runOne 0).rxq = [] ∧ (runOne 0).shifter = none
      ∧ (runOne 0).csRw &&& 0x01002F00#32 = 0#32 ∧ (runOne 0).csRw.extractLsb' 0 2 ≠ 3#2
      ∧ (runOne 0).params.spinLimit = none ∧ HostDone (runOne 0) :=
  ⟨runOne_run, runOne_fair, ⟨rfl, rfl⟩, rfl, rfl, by decide, by decide,
    ⟨by decide, by decide, by decide, by decide, by decide, .inl rfl⟩, by decide, rfl, rfl, rfl,
    by decide, by decide, rfl, by decide⟩

/-- R263, D33: the source's divider, an odd one rounded down, and 0. -/
theorem test_clock_divisor :
    clockDivisor 0x8000#16 = 32768 ∧ clockDivisor 7#16 = 6 ∧ clockDivisor 0#16 = 65536 := by decide

/-- R86, R211: nine transactions, and then the completion of the one command. -/
theorem test_completion_is_recorded :
    (observe (runOne 11)).completed = [⟨0, some .send1, 9⟩] ∧ (runOne 10).completed = []
      ∧ isFinal (runOne 11) = true := by decide

end Sys2Proof.Tests
end

/-! # Scope: reset values and field writes

The reset values of spec/10_state.md R59, and what a field write stores
(spec/40_register_access.md R158, R160). -/

namespace Sys2Proof.Proofs

open Sys2Proof Sys2Proof.Machine Sys2Proof.Safety Sys2Proof.Claims

/-! ## The reset state -/

/-- The bounds of R8 hold of the parameters after reset, whatever the OPEN values are. -/
theorem params_valid : Config.params.Valid :=
  ⟨Nat.succ_pos _, Nat.succ_pos _, Nat.succ_pos _, Nat.mod_lt _ (Nat.succ_pos _)⟩

/-- With both queues empty and TA = 0 the one flag set is TXD, as the TX FIFO has a slot (R251 to
R253). -/
theorem csFlags_reset : csFlags State.reset = flagBit true 18 := by
  have hdone : doneFlag State.reset = false := by decide
  have hrxd : rxd State.reset = false := rfl
  have htxd : txd State.reset = true := decide_eq_true params_valid.1
  have hrxr : rxr State.reset = false := by
    have hta : taSet State.reset = false := by decide
    rw [rxr, hta, Bool.false_and]
  have hrxf : rxf State.reset = false := decide_eq_false (Nat.ne_of_lt params_valid.2.1)
  rw [csFlags, hdone, hrxd, htxd, hrxr, hrxf]
  decide

theorem csValue_reset : csValue State.reset = 0x00041000#32 := by
  rw [csValue, csFlags_reset]
  decide

/-- Under RESERVED_READ = zero the first read of CS takes no draw (R43). -/
theorem readReg_cs_reset : readReg .cs State.reset = (csValue State.reset, State.reset) := rfl

theorem exec_rdCs_reset :
    exec .rdCs State.reset = .next { logAccess .host (readOf .cs) 0x00041000#32 State.reset with
      rdata := 0x00041000#32 } := by
  change whenLive State.reset (hostAfter (readOf .cs) State.reset) = _
  rw [whenLive_of_live rfl rfl, hostAfter_readOf .cs rfl, readReg_cs_reset, csValue_reset]

/-- Settles O12: each value is read off `State.reset`, and the first CS read is the stored REN with
the flag TXD. -/
theorem resetValues : Obligations.ResetValues :=
  ⟨by decide, by decide, by decide, by decide, by decide, rfl, rfl, rfl, rfl, rfl, rfl, rfl, rfl, rfl,
    params_valid, _, exec_rdCs_reset, rfl⟩

/-! ## Fields within words -/

theorem getLsbD_lowMask {w i : Nat} (hi : i < 32) : (lowMask w).getLsbD i = decide (i < w) := by
  simp only [lowMask, BitVec.getLsbD_ofNat, hi, Nat.testBit_two_pow_sub_one, decide_true,
    Bool.true_and]

/-- Every field lies inside the word (R22, R45 to R48). -/
theorem fieldLo_add_fieldWidth_le (f : Field) : fieldLo f + fieldWidth f ≤ 32 := by
  cases f <;> decide

/-- `get(ins(v, F, x), F) = trunc_w(x)` (R9, R10). -/
theorem getField_insField_same (v x : Word) (f : Field) :
    getField (insField v f x) f = truncTo (fieldWidth f) x := by
  have hfit := fieldLo_add_fieldWidth_le f
  apply BitVec.eq_of_getLsbD_eq
  intro i hi
  simp only [getField, insField, truncTo, fieldMask, BitVec.getLsbD_ushiftRight,
    BitVec.getLsbD_and, BitVec.getLsbD_or, BitVec.getLsbD_not, BitVec.getLsbD_shiftLeft,
    Nat.add_sub_cancel_left, getLsbD_lowMask hi]
  by_cases hw : i < fieldWidth f
  · have hin : fieldLo f + i < 32 := by omega
    simp [hw, hin]
  · simp [hw]

/-- A field inside a mask reads the same from two words that agree under the mask. -/
theorem getField_congr_of_and_mask {a b m : Word} {f : Field} (hf : m &&& fieldMask f = fieldMask f)
    (h : a &&& m = b &&& m) : getField a f = getField b f := by
  rw [getField, getField, ← hf, ← BitVec.and_assoc, h, BitVec.and_assoc]

/-! ## What a register write stores -/

/-- The bits of a register that a write stores and a read gives back (R22, R43). -/
def storedMask (r : Reg) : Word :=
  match r with
  | .cs => rwMask
  | .fifo => 0#32
  | .clk | .dlen | .ltoh | .dc => ~~~ reservedMask r

/-- Every RW field is stored by its register (R22, R45 to R48). -/
theorem storedMask_and_fieldMask {f : Field} (h : fieldClass f = .rw) :
    storedMask (fieldReg f) &&& fieldMask f = fieldMask f := by
  revert h
  cases f <;> decide

/-- What a register of `n` bits stores of a word is the word's low `n` bits. -/
theorem setWidth_extractLsb'_and_lowMask (v : Word) (n : Nat) :
    (v.extractLsb' 0 n).setWidth 32 &&& lowMask n = v &&& lowMask n := by
  apply BitVec.eq_of_getLsbD_eq
  intro i hi
  simp only [BitVec.getLsbD_and, BitVec.getLsbD_setWidth, BitVec.getLsbD_extractLsb',
    getLsbD_lowMask hi, hi, Nat.zero_add, decide_true, Bool.true_and]
  by_cases hn : i < n <;> simp [hn]

theorem csValue_and_rwMask (s : State) : csValue s &&& rwMask = s.csRw &&& rwMask := by
  rw [csValue, or_and_mask, csFlags_and_rwMask, BitVec.or_zero]

/-- A register write that stands stores the RW bits of the word written (R142, R150, R152, R154,
R156); FIFO is a port and stores none. -/
theorem regValue_writeReg {a : Agent} {r : Reg} {w : Word} {s t : State}
    (h : writeReg a r w s = .ok t) : regValue t r &&& storedMask r = w &&& storedMask r := by
  cases r with
  | cs =>
    obtain ⟨_, hcs, _⟩ := csWriteEffect_regs w s
    change csValue t &&& rwMask = w &&& rwMask
    rw [csValue_and_rwMask, (writeCs_ok h).1, hcs, BitVec.and_assoc, BitVec.and_self]
  | fifo => simp [storedMask]
  | clk =>
    rw [(writeClk_ok h).2]
    exact setWidth_extractLsb'_and_lowMask w 16
  | dlen =>
    cases h
    exact setWidth_extractLsb'_and_lowMask w 16
  | ltoh =>
    cases h
    exact setWidth_extractLsb'_and_lowMask w 4
  | dc => cases h; rfl

/-! ## The host's write -/

/-- A recorded stop is no live state (R300, R301). -/
theorem live_recordStop (e : Stop) (s : State) : live (recordStop e s) = false := by
  cases e <;> simp [live, recordStop]

@[simp] theorem regValue_logAccess (a : Agent) (x : Access) (v : Word) (s : State) (r : Reg) :
    regValue (logAccess a x v s) r = regValue s r := by
  cases r <;> rfl

/-- A host write that records no stop did its register's rule and was traced (R140). -/
theorem hostAfter_writeOf_of_live {s : State} {r : Reg} {w : Word} (hi : s.ctl.phase = .idle)
    (hl : live (hostAfter (writeOf r w) s) = true) :
    ∃ t, writeReg .host r w s = .ok t
      ∧ hostAfter (writeOf r w) s = logAccess .host (writeOf r w) w t := by
  rw [hostAfter_writeOf r w hi] at hl ⊢
  cases hw : writeReg .host r w s with
  | ok t => exact ⟨t, rfl, rfl⟩
  | error e =>
    rw [hw] at hl
    simp only [live_recordStop, Bool.false_eq_true] at hl

/-- Settles O50: the write stores the bits of the word built by `insField`, and the field reads the
inserted value there. -/
theorem fieldWriteReadsBackTruncated : Obligations.FieldWriteReadsBackTruncated := by
  intro s f x v k _ hacc hrw _ t hfault hrefused
  obtain ⟨u, hu, ht⟩ := hostAfter_writeOf_of_live hacc.idle ((live_iff t).2 ⟨hfault, hrefused⟩)
  calc getField (regValue t (fieldReg f)) f
      = getField (regValue u (fieldReg f)) f := by
        rw [show t = _ from ht, regValue_logAccess]
    _ = getField (insField v f x) f :=
        getField_congr_of_and_mask (storedMask_and_fieldMask hrw) (regValue_writeReg hu)
    _ = truncTo (fieldWidth f) x := getField_insField_same v x f

end Sys2Proof.Proofs

/-! # Scope: what every step keeps, reads, polls and the order of the units

The register invariant, the logs and the parameters along a step (spec/10_state.md R49 to R54),
what a read and a poll of CS give (spec/40_register_access.md R141,
spec/41_handshake_controller.md R206, R208), the order of the units (spec/42_serial_engine.md R254,
R255), and the CLEAR field (spec/40_register_access.md R143, R158). -/

namespace Sys2Proof.Proofs

open Sys2Proof Sys2Proof.Machine Sys2Proof.Safety Sys2Proof.Claims

/-! ## What the shared operations do to the block -/

theorem logAccess_block (a : Agent) (x : Access) (v : Word) (s : State) :
    SameBlock s (logAccess a x v s) := by
  constructor <;> rfl

theorem drawn_block (s : State) : SameBlock s (drawn s) := by
  constructor <;> rfl

/-- What an engine step can be: none, SHIFT_END of the unit in the shifter, or SHIFT_START of the
head of the TX FIFO, which a chip select of 3 turns into a fault (R250, R254, R255, R261). -/
theorem engineStep_cases (s : State) :
    engineStep s = s
      ∨ (∃ u, s.shifter = some u ∧ engineStep s = finishUnit u s)
      ∨ ∃ u left, taSet s = true ∧ s.shifter = none ∧ s.txq = u :: left
        ∧ (engineStep s = raise (.reservedChipSelect u) s
          ∨ engineStep s = { s with shifter := some u, txq := left }) := by
  unfold engineStep
  split
  · unfold shiftEnd
    cases hs : s.shifter with
    | none => exact .inl rfl
    | some u => exact .inr (.inl ⟨u, rfl, rfl⟩)
  · split
    · next h =>
      simp only [shiftStartReady, Bool.and_eq_true, Option.isNone_iff_eq_none] at h
      obtain ⟨_, hta, _, hshift, _⟩ := h
      unfold shiftStart
      cases hq : s.txq with
      | nil => exact .inl rfl
      | cons u left =>
        refine .inr (.inr ⟨u, left, hta, hshift, rfl, ?_⟩)
        by_cases hcs : chipSelect s = 3#2 <;> simp [hcs]
    · exact .inl rfl

/-- A finished unit enters the RX FIFO only where it has room (R255). -/
theorem finishUnit_rxBound (u : FifoUnit) {s : State} (h : s.rxq.length ≤ s.params.rxDepth) :
    (finishUnit u s).rxq.length ≤ s.params.rxDepth := by
  simp only [finishUnit]
  split
  · next hroom => simpa using hroom
  · exact h

theorem shifterOnStop_rxBound {s : State} (h : s.rxq.length ≤ s.params.rxDepth) :
    (shifterOnStop s).rxq.length ≤ s.params.rxDepth := by
  rcases shifterOnStop_cases s with ⟨_, e⟩ | ⟨u, _, e | e⟩ <;> rw [e]
  · exact h
  · exact finishUnit_rxBound u h
  · exact h

theorem taTransition_rxBound (before after : Bool) {s : State}
    (h : s.rxq.length ≤ s.params.rxDepth) :
    (taTransition before after s).rxq.length ≤ s.params.rxDepth := by
  cases before <;> cases after
  · exact h
  · exact h
  · exact shifterOnStop_rxBound h
  · exact h

/-- A CS write leaves the RX FIFO within its depth, whether it empties it or finishes a unit into it
(R143, R259). -/
theorem csWriteEffect_rxBound (v : Word) {s : State} (h : s.rxq.length ≤ s.params.rxDepth) :
    (csWriteEffect v s).rxq.length ≤ s.params.rxDepth := by
  obtain ⟨_, _, _, hrx⟩ := clearAction_regs v s
  have hparams := (clearAction_outside v s).params
  have hclear : (clearAction v s).rxq.length ≤ (clearAction v s).params.rxDepth := by
    rw [hrx, hparams]
    split
    · exact Nat.zero_le _
    · exact h
  rw [← hparams]
  exact taTransition_rxBound _ _ (s := { clearAction v s with csRw := v &&& rwMask }) hclear

/-- A transaction keeps what the block fixes, where popping the RX FIFO and the register writes keep
it (R76, R140). -/
theorem transact_keeps {P : State → Prop} (block : ∀ s t, SameBlock s t → P s → P t)
    (pop : ∀ s u left, s.rxq = u :: left → P s → P { s with rxq := left })
    (write : ∀ a r v s t, P s → writeReg a r v s = .ok t → P t)
    {a : Agent} {x : Access} {s t : State} {v : Word} (h : P s)
    (ht : transact a x s = .ok (v, t)) : P t := by
  obtain ⟨r, u, _, _, hp, rfl⟩ := transact_ok ht
  refine block _ _ (logAccess_block a x v u) ?_
  rcases perform_ok hp with ⟨_, hread⟩ | ⟨_, _, hwrite⟩
  · rw [show u = (readReg r s).2 from congrArg Prod.snd hread]
    rcases readReg_state r s with e | e | ⟨_, w, left, hq, e⟩ <;> rw [e]
    · exact h
    · exact block _ _ (drawn_block s) h
    · exact pop s w left hq h
  · exact write a r v s u h hwrite

/-! ## The register invariant -/

theorem regInv_of_block {s t : State} (b : SameBlock s t) (h : RegInv s) : RegInv t where
  csStored := by rw [b.csRw]; exact h.csStored
  txBound := by rw [b.txq, b.params]; exact h.txBound
  rxBound := by rw [b.rxq, b.params]; exact h.rxBound
  inScope := by rw [taSet, b.csRw]; exact h.inScope
  shifterActive := by rw [taSet, b.csRw, b.shifter]; exact h.shifterActive
  oneStop := by rw [b.fault, b.refused]; exact h.oneStop

theorem recordStop_regInv {s : State} (hf : s.fault = none) (hr : s.refused = none) (h : RegInv s)
    (e : Stop) : RegInv (recordStop e s) := by
  obtain ⟨hcs, htx, hrx, hscope, hshift, _⟩ := h
  cases e with
  | fault k => exact ⟨hcs, htx, hrx, hscope, hshift, .inr hr⟩
  | refuse r => exact ⟨hcs, htx, hrx, hscope, hshift, .inl hf⟩

theorem pop_regInv {s : State} {u : FifoUnit} {left : List FifoUnit} (hq : s.rxq = u :: left)
    (h : RegInv s) : RegInv { s with rxq := left } := by
  obtain ⟨hcs, htx, hrx, hscope, hshift, hstop⟩ := h
  have hlen : left.length ≤ s.rxq.length := by rw [hq]; exact Nat.le_succ _
  exact ⟨hcs, htx, hlen.trans hrx, hscope, hshift, hstop⟩

/-- A CS write that stands stores RW bits in scope, and leaves a unit in the shifter only while TA
stays 1 (R142, R146, R259). -/
theorem writeCs_regInv {v : Word} {s t : State} (h : RegInv s) (hw : writeCs v s = .ok t) :
    RegInv t := by
  obtain ⟨rfl, _, hscope⟩ := writeCs_ok hw
  obtain ⟨_, hcs, htx⟩ := csWriteEffect_regs v s
  obtain ⟨hshift, hoff⟩ := csWriteEffect_shifter v s
  have hout := csWriteEffect_outside v s
  refine ⟨?_, ?_, ?_, ?_, ?_, ?_⟩
  · rw [hcs]
    exact masked_stored v rwMask
  · rw [htx, hout.params]
    split
    · exact Nat.zero_le _
    · exact h.txBound
  · rw [hout.params]
    exact csWriteEffect_rxBound v h.rxBound
  · rw [taSet, hcs]
    exact hscope
  · intro hne
    have hsame : (csWriteEffect v s).shifter = s.shifter := hshift.resolve_right hne
    have hta : taSet s = true := h.shifterActive (hsame ▸ hne)
    rw [taSet, hcs]
    by_contra hnew
    exact hne (hoff hta (Bool.eq_false_of_not_eq_true hnew))
  · rw [hout.fault, hout.refused]
    exact h.oneStop

/-- A register write that stands keeps the register invariant (R142, R148 to R156). -/
theorem writeReg_regInv {a : Agent} {r : Reg} {v : Word} {s t : State} (h : RegInv s)
    (hw : writeReg a r v s = .ok t) : RegInv t := by
  cases r with
  | cs => exact writeCs_regInv h hw
  | fifo =>
    obtain ⟨_, hroom, rfl⟩ := writeFifo_ok hw
    obtain ⟨hcs, htx, hrx, hscope, hshift, hstop⟩ := h
    have hfits : (s.txq ++ [unitOfWrite (lenLongSet s) v]).length ≤ s.params.txDepth := by
      rw [List.length_append, List.length_singleton]
      omega
    exact ⟨hcs, hfits, hrx, hscope, hshift, hstop⟩
  | clk =>
    obtain ⟨_, rfl⟩ := writeClk_ok hw
    exact ⟨h.csStored, h.txBound, h.rxBound, h.inScope, h.shifterActive, h.oneStop⟩
  | dlen | ltoh | dc =>
    cases hw
    exact ⟨h.csStored, h.txBound, h.rxBound, h.inScope, h.shifterActive, h.oneStop⟩

/-- An engine step keeps the register invariant: it starts a unit with TA = 1 only, and ends
one into a FIFO with room (R254, R255). -/
theorem engineStep_regInv {s : State} (hr : s.refused = none) (h : RegInv s) :
    RegInv (engineStep s) := by
  have ⟨hcs, htx, hrx, hscope, hshift, hstop⟩ := h
  rcases engineStep_cases s with e | ⟨u, _, e⟩ | ⟨u, left, hta, _, hq, e | e⟩ <;> rw [e]
  · exact h
  · exact ⟨hcs, htx, finishUnit_rxBound u hrx, hscope, fun hne => absurd rfl hne, hstop⟩
  · exact ⟨hcs, htx, hrx, hscope, hshift, .inr hr⟩
  · have hlen : left.length ≤ s.txq.length := by rw [hq]; exact Nat.le_succ _
    exact ⟨hcs, hlen.trans htx, hrx, hscope, fun _ => hta, hstop⟩

theorem regInv_keptByOps : KeptByOps RegInv where
  block _ _ := regInv_of_block
  stop _ e hf hr h := recordStop_regInv hf hr h e
  transact _ _ _ _ _ _ _ h ht :=
    transact_keeps (fun _ _ => regInv_of_block) (fun _ _ _ => pop_regInv)
      (fun _ _ _ _ _ => writeReg_regInv) h ht
  engine _ _ hr h := engineStep_regInv hr h

/-- Settles O54: the transactions, the recorded stops and the engine's steps each keep the register
invariant, and a step is made of these. -/
theorem regInvKept : Obligations.RegInvKept := fun _ _ => step_keeps regInv_keptByOps

/-! ## The logs and the parameters -/

theorem shifterOnStop_wire (s : State) : s.wire <+: (shifterOnStop s).wire := by
  rcases shifterOnStop_cases s with ⟨_, e⟩ | ⟨u, _, e | e⟩ <;> rw [e]
  · exact List.prefix_append _ _
  · exact List.prefix_append _ _

theorem taTransition_wire (before after : Bool) (s : State) :
    s.wire <+: (taTransition before after s).wire := by
  cases before <;> cases after
  · exact List.prefix_rfl
  · exact List.prefix_append _ _
  · exact (shifterOnStop_wire s).trans (List.prefix_append _ _)
  · exact List.prefix_rfl

/-- A CS write only adds to the wire log (R143, R144). -/
theorem csWriteEffect_wire (v : Word) (s : State) : s.wire <+: (csWriteEffect v s).wire := by
  have hclear : s.wire <+: (clearAction v s).wire := by
    rcases clearAction_shifter v s with ⟨_, e⟩ | ⟨u, _, _, e⟩ <;> rw [e]
    exact List.prefix_append _ _
  exact hclear.trans (taTransition_wire _ _ { clearAction v s with csRw := v &&& rwMask })

theorem writeReg_wire {a : Agent} {r : Reg} {v : Word} {s t : State}
    (h : writeReg a r v s = .ok t) : s.wire <+: t.wire := by
  cases r with
  | cs =>
    obtain ⟨rfl, _, _⟩ := writeCs_ok h
    exact csWriteEffect_wire v s
  | fifo =>
    obtain ⟨_, _, rfl⟩ := writeFifo_ok h
    exact List.prefix_rfl
  | clk =>
    obtain ⟨_, rfl⟩ := writeClk_ok h
    exact List.prefix_rfl
  | dlen | ltoh | dc =>
    cases h
    exact List.prefix_rfl

theorem engineStep_wire (s : State) : s.wire <+: (engineStep s).wire := by
  rcases engineStep_cases s with e | ⟨u, _, e⟩ | ⟨u, left, _, _, _, e | e⟩ <;> rw [e]
  · exact List.prefix_append _ _
  · exact List.prefix_rfl

theorem engineStep_params (s : State) : (engineStep s).params = s.params := by
  rcases engineStep_cases s with e | ⟨u, _, e⟩ | ⟨u, left, _, _, _, e | e⟩ <;> rw [e] <;> rfl

/-- The wire log of `t` goes on from that of `s`, under the same parameters. -/
structure WireGrows (s t : State) : Prop where
  wire : s.wire <+: t.wire
  params : t.params = s.params

theorem wireGrows_of_block {s t u : State} (b : SameBlock t u) (h : WireGrows s t) :
    WireGrows s u :=
  ⟨b.wire ▸ h.wire, b.params.trans h.params⟩

theorem wireGrows_keptByOps (s : State) : KeptByOps (WireGrows s) where
  block _ _ := wireGrows_of_block
  stop _ e _ _ h := by cases e <;> exact ⟨h.wire, h.params⟩
  transact _ _ _ _ _ _ _ h ht :=
    transact_keeps (fun _ _ => wireGrows_of_block) (fun _ _ _ _ h => ⟨h.wire, h.params⟩)
      (fun _ _ _ _ _ h hw =>
        ⟨h.wire.trans (writeReg_wire hw), (writeReg_outside hw).params.trans h.params⟩) h ht
  engine t _ _ h := ⟨h.wire.trans (engineStep_wire t), (engineStep_params t).trans h.params⟩

/-- `t` has the bus trace of `s`, or one entry more. -/
def TraceGrowsByOne (s t : State) : Prop :=
  t.trace = s.trace ∨ ∃ e, t.trace = s.trace ++ [e]

theorem recordStop_trace (e : Stop) (s : State) : (recordStop e s).trace = s.trace := by
  cases e <;> rfl

theorem transact_trace {a : Agent} {x : Access} {s t : State} {v : Word}
    (h : transact a x s = .ok (v, t)) : t.trace = s.trace ++ [⟨a, x.dir, x.off, v⟩] := by
  obtain ⟨r, u, _, _, hp, rfl⟩ := transact_ok h
  rw [logAccess_trace, (perform_outside hp).trace]

theorem giveHost_trace (x : Access) (v : Word) (s : State) : (giveHost x v s).trace = s.trace := by
  unfold giveHost
  split <;> rfl

theorem hostAfter_trace (x : Access) (s : State) : TraceGrowsByOne s (hostAfter x s) := by
  rcases hostAfter_cases x s with ⟨e, _, h⟩ | ⟨v, t, ht, h⟩ <;> rw [h]
  · exact .inl (recordStop_trace e s)
  · exact .inr ⟨_, (giveHost_trace x v t).trans (transact_trace ht)⟩

theorem hostThen_trace (x : Access) {k : Word → State → State} (s : State)
    (hk : ∀ v t, (k v t).trace = t.trace) : TraceGrowsByOne s (hostThen x k s) := by
  rcases hostThen_cases x k s with ⟨e, _, h⟩ | ⟨v, t, ht, h⟩ <;> rw [h]
  · exact .inl (recordStop_trace e s)
  · exact .inr ⟨_, (hk _ _).trans ((giveHost_trace x v t).trans (transact_trace ht))⟩

/-- What follows a controller transaction makes no further one: it keeps the entry, or, where a poll
reaches the limit, falls back to the state before it (R200, R300). -/
theorem ctlBus_trace (x : Access) {k : Word → State → State} {s : State}
    (hk : ∀ v t, (k v t).trace = t.trace ∨ (k v t).trace = s.trace) :
    TraceGrowsByOne s (ctlBus x k s) := by
  rcases ctlBus_cases x k s with ⟨e, _, h⟩ | ⟨v, t, ht, h⟩ <;> rw [h]
  · exact .inl (recordStop_trace e s)
  · rcases hk v t with hkeep | hback
    · exact .inr ⟨_, hkeep.trans (transact_trace ht)⟩
    · exact .inl hback

theorem pollFailed_trace (v : Word) (s t : State) :
    (pollFailed v s t).trace = t.trace ∨ (pollFailed v s t).trace = s.trace := by
  simp only [pollFailed]
  split
  · exact .inl rfl
  · split
    · exact .inr rfl
    · exact .inl rfl

theorem afterWaitTxd_trace (s : State) (v : Word) (t : State) :
    (afterWaitTxd s v t).trace = t.trace ∨ (afterWaitTxd s v t).trace = s.trace := by
  unfold afterWaitTxd
  split
  · exact .inl rfl
  · exact pollFailed_trace v s t

theorem afterWaitDone_trace (s : State) (v : Word) (t : State) :
    (afterWaitDone s v t).trace = t.trace ∨ (afterWaitDone s v t).trace = s.trace := by
  unfold afterWaitDone
  split
  · exact .inl rfl
  · exact pollFailed_trace v s t

theorem afterPush_trace (v : Word) (s : State) : (afterPush v s).trace = s.trace := by
  simp only [afterPush]
  split <;> rfl

theorem afterCfgWr_trace (k : Fin 5) (v : Word) (s : State) :
    (afterCfgWr k v s).trace = s.trace := by
  unfold afterCfgWr
  split <;> rfl

theorem stepCfgWr_trace (k : Fin 5) (s : State) : TraceGrowsByOne s (stepCfgWr k s) := by
  unfold stepCfgWr
  split
  · exact ctlBus_trace _ fun v t => .inl (afterCfgWr_trace k v t)
  all_goals exact .inl rfl

theorem stepPush_trace (s : State) : TraceGrowsByOne s (stepPush s) := by
  unfold stepPush
  split
  · exact ctlBus_trace _ fun v t => .inl (afterPush_trace v t)
  · exact .inl rfl

/-- A controller step makes at most one transaction (R200). -/
theorem ctlStep_trace (s : State) : TraceGrowsByOne s (ctlStep s) := by
  have plain : ∀ x (k : Word → State → State), (∀ v t, (k v t).trace = t.trace) →
      TraceGrowsByOne s (ctlBus x k s) := fun x k hk => ctlBus_trace x fun v t => .inl (hk v t)
  unfold ctlStep
  cases s.ctl.phase with
  | idle => exact .inl rfl
  | cfgWr k => exact stepCfgWr_trace k s
  | waitTxd => exact ctlBus_trace _ (afterWaitTxd_trace s)
  | push => exact stepPush_trace s
  | waitDone => exact ctlBus_trace _ (afterWaitDone_trace s)
  | cfgRd | setTaRd | setTaWr | clrTaRd | clrTaWr | clrFifoRd | clrFifoWr =>
    exact plain _ _ fun _ _ => rfl

theorem pollTestStep_trace (k : Nat) (f : PollFlag) (n : Nat) (v : Word) (s : State) :
    (pollTestStep k f n v s).trace = s.trace := by
  unfold pollTestStep
  split
  · rfl
  · split
    · rfl
    · split <;> rfl

/-- A host operation makes at most one transaction (R157 to R159). -/
theorem hostAct_trace (k : Nat) (a : HostAct) (s : State) : TraceGrowsByOne s (hostAct k a s) := by
  cases a with
  | access x => exact hostAfter_trace x s
  | malformed r => exact .inl rfl
  | getf f => exact hostThen_trace _ s fun _ _ => rfl
  | setf f x => exact hostThen_trace _ s fun _ _ => rfl
  | setfWrite f x v => exact hostAfter_trace _ s
  | pollf f n => exact hostThen_trace _ s fun _ _ => rfl
  | pollTest f n v => exact .inl (pollTestStep_trace k f n v s)

/-- A bus instruction makes at most one transaction, a command none yet (R201). -/
theorem exec_trace {i : Instr} {s t : State} (h : exec i s = .next t) : TraceGrowsByOne s t := by
  rcases exec_cases i s with ⟨r, e⟩ | ⟨r, v, e⟩ | ⟨c, e⟩ <;> rw [e] at h <;>
    obtain ⟨_, _, rfl⟩ := whenLive_eq_next h
  · exact hostAfter_trace _ s
  · exact hostAfter_trace _ s
  · left
    unfold acceptCmd
    split <;> rfl

/-- The engine makes no transaction (R250). -/
theorem engineStep_trace (s : State) : (engineStep s).trace = s.trace := by
  rcases engineStep_cases s with e | ⟨u, _, e⟩ | ⟨u, left, _, _, _, e | e⟩ <;> rw [e] <;> rfl

theorem step_trace {s t : State} (h : step s = .next t) : TraceGrowsByOne s t := by
  have chosen : ∀ {τ u}, chooseTurn s = some (τ, u) → u.trace = s.trace := fun hu => by
    rw [(chooseTurn_some hu).2]
  have fetched : ∀ {k u op w}, fetch k u = some (op, w) → w.trace = u.trace := fun hw => by
    rw [fetch_some hw]
  unfold TraceGrowsByOne
  obtain ⟨_, _, hcases⟩ := step_cases h
  rcases hcases with ⟨_, _, rfl⟩ | ⟨u, hu, rfl⟩ | ⟨u, hu, rfl⟩ | ⟨k, u, i, w, hu, hw, he⟩
    | ⟨k, u, a, w, hu, hw, rfl⟩
  · exact .inl rfl
  · rw [← chosen hu]
    exact ctlStep_trace u
  · rw [← chosen hu]
    exact .inl (engineStep_trace u)
  · rw [← chosen hu, ← fetched hw]
    exact exec_trace he
  · rw [← chosen hu, ← fetched hw]
    exact hostAct_trace k a w

/-- Settles O59: the trace by whose step it is, the wire log and the parameters as a predicate that
each operation keeps. -/
theorem logsGrowByOneTransaction : Obligations.LogsGrowByOneTransaction := by
  intro s t hs
  obtain ⟨hwire, hparams⟩ := step_keeps (wireGrows_keptByOps s) ⟨List.prefix_rfl, rfl⟩ hs
  exact ⟨step_trace hs, hwire, hparams⟩

/-! ## Bus reads -/

/-- `CSvalue` of R52 is the stored word with each flag in its place. -/
theorem csRead_eq_csValue (s : State) : csRead s = csValue s := by
  have place : ∀ (p : Prop) [Decidable p] (b : Bool) (n : Nat), (p ↔ b = true) →
      (if p then (1#32) <<< n else 0#32) = flagBit b n := by
    intro p _ b n hp
    cases b <;> simp_all [flagBit]
  have hdone := place (s.csRw.getLsbD 7 = true ∧ s.txq = [] ∧ s.shifter = none) (doneFlag s) 16
    (by simp [doneFlag, taSet])
  have hrxd := place (s.rxq ≠ []) (rxd s) 17 (by simp [rxd, List.length_pos_iff])
  have htxd := place (s.txq.length < s.params.txDepth) (txd s) 18 (by simp [txd])
  have hrxr := place (s.csRw.getLsbD 7 = true ∧ s.params.rxrLevel ≤ s.rxq.length) (rxr s) 19
    (by simp [rxr, taSet])
  have hrxf := place (s.rxq.length = s.params.rxDepth) (rxf s) 20 (by simp [rxf])
  rw [ite_not] at hrxd
  rw [csValue, csFlags, ← hdone, ← hrxd, ← htxd, ← hrxr, ← hrxf]
  simp only [csRead, BitVec.or_assoc]
  rfl

/-- A host read of a register completes with the value the register's rule gives (R141 to R155). -/
theorem hostBus_readOf {s : State} (h : HostMayAccess s) (r : Reg) :
    hostBus (readOf r) s
      = .next (afterHostRead (offsetOf r) (readReg r s).1 (readReg r s).2) := by
  rw [hostBus, whenLive_of_live h.fault h.refused, hostAfter_readOf r h.idle]
  rfl

theorem readPlain_zero (r : Reg) {s : State} (h : s.params.reservedRead = .zero) :
    readPlain r s = (regValue s r, s) := by
  rw [readPlain, h]

theorem readPlain_draw (r : Reg) {s : State} (h : s.params.reservedRead = .draw) :
    readPlain r s = (regValue s r ||| (nextWord s &&& reservedMask r), drawn s) := by
  rw [readPlain, h]

/-- Settles O14, by what a plain read gives in each setting of RESERVED_READ. -/
theorem rdCsReturnsFieldsAndFlags : Obligations.RdCsReturnsFieldsAndFlags := by
  intro s hacc
  have hread : exec .rdCs s
      = .next (afterHostRead 0x00 (readPlain .cs s).1 (readPlain .cs s).2) :=
    hostBus_readOf hacc .cs
  rw [csRead_eq_csValue, hread]
  refine ⟨fun hzero => ?_, fun hdraw => ⟨nextWord s, ?_⟩⟩
  · rw [readPlain_zero .cs hzero]
    rfl
  · rw [readPlain_draw .cs hdraw]
    rfl

/-- Settles O16: DC has no reserved bit and so no draw; CLK, DLEN and LTOH are plain reads. -/
theorem plainReadsReturnStoredFields : Obligations.PlainReadsReturnStoredFields := by
  intro s hacc
  have hclk : exec .rdClk s
      = .next (afterHostRead 0x08 (readPlain .clk s).1 (readPlain .clk s).2) :=
    hostBus_readOf hacc .clk
  have hdlen : exec .rdDlen s
      = .next (afterHostRead 0x0C (readPlain .dlen s).1 (readPlain .dlen s).2) :=
    hostBus_readOf hacc .dlen
  have hltoh : exec .rdLtoh s
      = .next (afterHostRead 0x10 (readPlain .ltoh s).1 (readPlain .ltoh s).2) :=
    hostBus_readOf hacc .ltoh
  rw [hclk, hdlen, hltoh]
  refine ⟨hostBus_readOf hacc .dc, fun hzero => ?_, fun hdraw => ⟨nextWord s, ?_⟩⟩
  · rw [readPlain_zero .clk hzero, readPlain_zero .dlen hzero, readPlain_zero .ltoh hzero]
    exact ⟨rfl, rfl, rfl⟩
  · rw [readPlain_draw .clk hdraw, readPlain_draw .dlen hdraw, readPlain_draw .ltoh hdraw]
    exact ⟨rfl, rfl, rfl⟩

/-! ## The controller's polls -/

/-- A failed poll within the spin limit holds the value read and counts one more (R159, R215). -/
theorem pollFailed_within {v : Word} {before after : State}
    (h : ∀ k, before.params.spinLimit = some k → before.ctl.spins + 1 < k) :
    pollFailed v before after
      = { after with ctl := { after.ctl with tmp := v, spins := before.ctl.spins + 1 } } := by
  simp only [pollFailed]
  split
  · rfl
  · next k hk => rw [if_neg (Nat.not_le.mpr (h k hk))]

/-- The controller's read of CS: it goes on with a value whose stored bits and flags are those of
R52, the state as before but for the trace and the count of draws (R141, R200). -/
theorem ctlBus_readOf_cs {s : State} (h : RegInv s) :
    ∃ v n, v &&& 0x03FFFFFF#32 = csRead s
      ∧ v.getLsbD 16 = doneFlag s ∧ v.getLsbD 18 = txd s
      ∧ (getField v .csTxd = 1#32 ↔ txd s = true)
      ∧ (getField v .csDone = 1#32 ↔ doneFlag s = true)
      ∧ ∀ k, ctlBus (readOf .cs) k s
          = k v { s with trace := traced .ctl .rd 0x00 v s, draws := n } := by
  obtain ⟨v, n, hread, _, _, hvalue, h16, h18, htxd, hdone⟩ := readReg_cs s h.csStored
  refine ⟨v, n, ?_, h16, h18, ?_, ?_, fun k => ?_⟩
  · rw [csRead_eq_csValue, ← hvalue]
    rfl
  · rw [htxd]
    cases txd s <;> decide
  · rw [hdone]
    cases doneFlag s <;> decide
  · rw [ctlBus_readOf, hread]
    rfl

theorem doneFlag_iff (s : State) :
    doneFlag s = true ↔ s.csRw.getLsbD 7 = true ∧ s.txq = [] ∧ s.shifter = none := by
  simp [doneFlag, taSet]

/-- Settles O35: the poll is a CS read whose bit 18 is TXD. -/
theorem waitTxdPolls : Obligations.WaitTxdPolls := by
  intro s hinv hphase
  obtain ⟨v, n, hvalue, _, h18, hfield, _, hbus⟩ := ctlBus_readOf_cs hinv
  have hstep : ctlStep s
      = afterWaitTxd s v { s with trace := traced .ctl .rd 0x00 v s, draws := n } := by
    rw [ctlStep, hphase]
    exact hbus _
  have hroom : getField v .csTxd = 1#32 ↔ s.txq.length < s.params.txDepth := by
    rw [hfield, txd, decide_eq_true_iff]
  refine ⟨v, n, hvalue, h18, fun hlt => ?_, fun hfull hlimit => ?_⟩
  · rw [hstep, afterWaitTxd, if_pos (hroom.2 hlt)]
    rfl
  · rw [hstep, afterWaitTxd, if_neg (mt hroom.1 hfull), pollFailed_within hlimit]

/-- Settles O36: the poll is a CS read whose bit 16 is DONE. -/
theorem waitDonePolls : Obligations.WaitDonePolls := by
  intro s hinv hphase done
  obtain ⟨v, n, hvalue, h16, _, _, hfield, hbus⟩ := ctlBus_readOf_cs hinv
  have hstep : ctlStep s
      = afterWaitDone s v { s with trace := traced .ctl .rd 0x00 v s, draws := n } := by
    rw [ctlStep, hphase]
    exact hbus _
  have hdone : getField v .csDone = 1#32 ↔ done := hfield.trans (doneFlag_iff s)
  refine ⟨v, n, hvalue, h16 ▸ doneFlag_iff s, fun hd => ?_, fun hd hlimit => ?_⟩
  · rw [hstep, afterWaitDone, if_pos (hdone.2 hd)]
    rfl
  · rw [hstep, afterWaitDone, if_neg (mt hdone.1 hd), pollFailed_within hlimit]

/-! ## The order of the units -/

theorem sentUnits_append_unit (w : List WireEvent) (e : UnitEvent) :
    sentUnits (w ++ [.unit e]) = sentUnits w ++ [e.sent] := by
  simp [sentUnits]

/-- The unit SHIFT_END takes out of the shifter is the next one on the wire, and the one SHIFT_START
puts there is the head of the TX FIFO (R254, R255). -/
theorem unitsInOrder_engineStep (s : State) : unitsInOrder (engineStep s) = unitsInOrder s := by
  rcases engineStep_cases s with e | ⟨u, hs, e⟩ | ⟨u, left, _, hs, hq, e | e⟩ <;> rw [e]
  · calc unitsInOrder (finishUnit u s)
        = sentUnits (s.wire ++ [.unit (unitEvent s u (unitLike u (nextWord s)))]) ++ [] ++ s.txq :=
          rfl
      _ = sentUnits s.wire ++ [u] ++ s.txq := by
          rw [sentUnits_append_unit, List.append_nil]
          rfl
      _ = unitsInOrder s := by rw [unitsInOrder, hs]; rfl
  · rfl
  · calc unitsInOrder { s with shifter := some u, txq := left }
        = sentUnits s.wire ++ [u] ++ left := rfl
      _ = unitsInOrder s := by rw [unitsInOrder, hs, hq]; simp

/-- A FIFO write stops by a fault only, never by a refusal (R148). -/
theorem writeFifo_error {a : Agent} {v : Word} {s : State} {e : Stop}
    (h : writeFifo a v s = .error e) : ∃ k, e = .fault k := by
  unfold writeFifo at h
  split at h
  · cases h
    exact ⟨_, rfl⟩
  · split at h
    · cases h
      exact ⟨_, rfl⟩
    · cases h

/-- A host's FIFO write that records no fault pushed its unit (R148, R217). -/
theorem hostAfter_writeFifo {v : Word} {s : State}
    (h : (hostAfter (writeOf .fifo v) s).fault = none) :
    hostAfter (writeOf .fifo v) s = logAccess .host (writeOf .fifo v) v
      { s with txq := s.txq ++ [unitOfWrite (lenLongSet s) v] } := by
  by_cases hi : s.ctl.phase = .idle
  · rw [hostAfter_writeOf .fifo v hi] at h ⊢
    cases hw : writeReg .host .fifo v s with
    | ok t =>
      obtain ⟨_, _, rfl⟩ := writeFifo_ok hw
      rfl
    | error e =>
      obtain ⟨k, rfl⟩ := writeFifo_error hw
      rw [hw] at h
      cases h
  · rw [hostAfter_busy _ hi] at h
    cases h

/-- Settles O48: the engine moves a unit along the sequence, and a FIFO write adds one at its
end. -/
theorem unitsKeepTheirOrder : Obligations.UnitsKeepTheirOrder := by
  refine ⟨unitsInOrder_engineStep, fun s t v he hfault => ?_⟩
  obtain ⟨_, _, rfl⟩ := whenLive_eq_next he
  rw [hostAfter_writeFifo hfault]
  exact (List.append_assoc _ _ _).symm

/-! ## The CLEAR field -/

theorem getLsbD_getField (v : Word) (f : Field) (i : Nat) :
    (getField v f).getLsbD i
      = (v.getLsbD (fieldLo f + i) && (fieldMask f).getLsbD (fieldLo f + i)) := by
  rw [getField, BitVec.getLsbD_ushiftRight, BitVec.getLsbD_and]

/-- Inserting a field changes no bit under a mask that the field lies outside (R10, R161). -/
theorem insField_and_of_disjoint (v x : Word) {f : Field} {m : Word}
    (h : fieldMask f &&& m = 0#32) :
    insField v f x &&& m = v &&& m := by
  have hkept : ~~~ fieldMask f &&& m = m := by
    rw [BitVec.and_comm]
    exact and_mask_of_stored m _ (by rw [BitVec.not_not, BitVec.and_comm, h])
  have hinserted : (truncTo (fieldWidth f) x <<< fieldLo f) &&& m = 0#32 := by
    rw [truncTo, BitVec.shiftLeft_and_distrib, ← fieldMask, BitVec.and_assoc, h, BitVec.and_zero]
  rw [insField, or_and_mask, BitVec.and_assoc, hkept, hinserted, BitVec.or_zero]

/-- CLEAR is not stored, so it reads 0 (R26). -/
theorem getField_csValue_clear {s : State} (h : s.csRw &&& ~~~ rwMask = 0#32) :
    getField (csValue s) .csClear = 0#32 := by
  have hclear : csValue s &&& clearMask = 0#32 := by
    rw [csValue, or_and_mask, and_mask_disjoint _ _ _ h (by decide), csFlags_and_clearMask,
      BitVec.or_zero]
  exact getField_of_disjoint _ .csClear hclear

/-- The RX FIFO after a CS write that leaves TA as it was (R143, R144). -/
theorem csWriteEffect_rxq {v : Word} {s : State} (h : (v &&& rwMask).getLsbD 7 = taSet s) :
    (csWriteEffect v s).rxq = if v.getLsbD 5 then [] else s.rxq := by
  obtain ⟨_, _, _, hrx⟩ := clearAction_regs v s
  rw [csWriteEffect, h, ← hrx]
  cases taSet s <;> rfl

/-- A CS write that stores what stands there is admitted under the register invariant (R145,
R146). -/
theorem writeCs_of_same {w : Word} {s : State} (h : RegInv s) (hw : w &&& rwMask = s.csRw) :
    writeCs w s = .ok (csWriteEffect w s) := by
  have hfrozen : ¬(taSet s = true ∧ (s.csRw ^^^ s.csRw) &&& reconfigureMask ≠ 0#32) := by simp
  have hscope : ¬(s.csRw.getLsbD 7 = true ∧ s.csRw &&& scopeMask ≠ 0#32) :=
    fun ⟨hta, hne⟩ => hne (h.inScope hta)
  simp only [writeCs, hw]
  rw [if_neg hfrozen, if_neg hscope]

/-- A CS write with both CLEAR bits set that stores what stands there empties both FIFOs (R143). -/
theorem csWriteEffect_of_clear {w : Word} {s : State} (hsame : w &&& rwMask = s.csRw)
    (hclear : getField w .csClear = 3#32) :
    (csWriteEffect w s).txq = [] ∧ (csWriteEffect w s).rxq = []
      ∧ (csWriteEffect w s).csRw = s.csRw := by
  have hbit : ∀ i, (3#32).getLsbD i = true → w.getLsbD (fieldLo .csClear + i) = true := by
    intro i hi
    rw [← hclear, getLsbD_getField, Bool.and_eq_true] at hi
    exact hi.1
  have h4 : w.getLsbD 4 = true := hbit 0 (by decide)
  have h5 : w.getLsbD 5 = true := hbit 1 (by decide)
  have hta : (w &&& rwMask).getLsbD 7 = taSet s := by rw [hsame, taSet]
  obtain ⟨_, hcs, htx⟩ := csWriteEffect_regs w s
  rw [hcs, htx, csWriteEffect_rxq hta, h4, h5]
  exact ⟨rfl, rfl, hsame⟩

/-- Settles O52: the field write writes back the stored bits with CLEAR = 3, so it is admitted,
keeps TA, and empties both FIFOs. -/
theorem clearIsOneShot : Obligations.ClearIsOneShot := by
  refine fun s hinv => ⟨getField_csValue_clear hinv.csStored, ?_⟩
  intro x v k hacc ⟨hstored, _⟩ hx t
  have hsame : insField v .csClear x &&& rwMask = s.csRw :=
    (insField_and_of_disjoint v x (by decide)).trans hstored
  have ht : t = logAccess .host (writeOf .cs (insField v .csClear x)) (insField v .csClear x)
      (csWriteEffect (insField v .csClear x) s) := by
    change hostAfter (writeOf .cs (insField v .csClear x)) s = _
    rw [hostAfter_writeOf .cs _ hacc.idle, writeReg, writeCs_of_same hinv hsame]
  obtain ⟨htx, hrx, hcs⟩ :=
    csWriteEffect_of_clear hsame ((getField_insField_same v x .csClear).trans hx)
  have hreads : getField (csValue t) .csClear = 0#32 :=
    getField_csValue_clear (by rw [ht, logAccess_csRw, hcs]; exact hinv.csStored)
  rw [ht] at hreads ⊢
  exact ⟨htx, hrx, hcs, hreads⟩

/-! ## Recorded stops -/

theorem whenLive_of_fault {s t : State} {k : FaultKind} (h : s.fault = some k) :
    whenLive s t = .fault (.raised k) := by
  rw [whenLive, h]

theorem whenLive_of_refused {s t : State} {r : RefusalReason} (hf : s.fault = none)
    (h : s.refused = some r) : whenLive s t = .refused (.recorded r) := by
  rw [whenLive, hf, h]

/-- Every meaning is a state taken where nothing is recorded (R300, R301). -/
theorem exec_eq_whenLive (i : Instr) (s : State) : ∃ t, exec i s = whenLive s t := by
  rcases exec_cases i s with ⟨r, e⟩ | ⟨r, v, e⟩ | ⟨c, e⟩ <;> exact ⟨_, e⟩

/-- Settles O9: `step` and every meaning look at the two records first. -/
theorem stopsAreNeverCleared : Obligations.StopsAreNeverCleared := by
  refine fun s => ⟨fun k hk => ⟨?_, fun i => ?_⟩, fun r hf hr => ⟨?_, fun i => ?_⟩⟩
  · rw [step, hk]
  · obtain ⟨t, e⟩ := exec_eq_whenLive i s
    rw [e, whenLive_of_fault hk]
  · rw [step, hf, hr]
  · obtain ⟨t, e⟩ := exec_eq_whenLive i s
    rw [e, whenLive_of_refused hf hr]

/-! ## The invariants at reset -/

theorem taSet_reset : taSet State.reset = false := by decide

/-- Settles O13, item by item of R342. -/
theorem resetIsCleanEntry : Obligations.ResetIsCleanEntry where
  access := ⟨rfl, rfl, rfl⟩
  inactive := taSet_reset
  txEmpty := rfl
  rxEmpty := rfl
  shifterIdle := rfl
  inScope := by decide
  lineExists := by decide

theorem regInv_reset : RegInv State.reset where
  csStored := masked_stored _ _
  txBound := Nat.zero_le _
  rxBound := Nat.zero_le _
  inScope hta := absurd hta (by rw [taSet_reset]; decide)
  shifterActive hne := absurd rfl hne
  oneStop := .inl rfl

theorem wireInv_reset : WireInv State.reset where
  frames := rfl
  line := by rw [taSet_reset]; rfl

/-- Settles O53: the queues and the wire are empty, the controller is IDLE and TA = 0. -/
theorem invariantsAtReset : Obligations.InvariantsAtReset := ⟨regInv_reset, rfl, wireInv_reset⟩

end Sys2Proof.Proofs

/-! # Scope: the next agent, frames of the bus accesses, bad accesses

Who steps next (spec/20_memory.md R81), what a bus read or write leaves unchanged (R76, R77), and
the accesses that select no register (R71 to R74, spec/40_register_access.md R140). -/

namespace Sys2Proof.Proofs

open Sys2Proof Sys2Proof.Machine Sys2Proof.Safety Sys2Proof.Claims

/-! ## The next agent -/

/-- Settles O10: a scheduled turn of an enabled agent is taken, and what is chosen is enabled. -/
theorem everyEnabledAgentMayStep : Obligations.EveryEnabledAgentMayStep := by
  refine ⟨fun s τ later hτ => ?_, fun s t τ h => (chooseTurn_some h).1⟩
  have hon : (enabledTurns { s with sched := τ :: later }).contains τ = true :=
    List.contains_iff_mem.2 hτ
  simp only [chooseTurn, hon, if_true]

/-! ## Accesses that select no register -/

theorem regAt_eq_none {off : Nat} (h : off ∉ [0x00, 0x04, 0x08, 0x0C, 0x10, 0x14]) :
    regAt off = none := by
  simp only [List.mem_cons, List.not_mem_nil, or_false, not_or] at h
  obtain ⟨h0, h4, h8, hC, h10, h14⟩ := h
  rw [regAt, if_neg h0, if_neg h4, if_neg h8, if_neg hC, if_neg h10, if_neg h14]

theorem accessReg_eq_none {x : Access}
    (h : x.width ≠ 4 ∨ x.off ∉ [0x00, 0x04, 0x08, 0x0C, 0x10, 0x14]) : accessReg x = none := by
  unfold accessReg
  split
  · next hwidth => exact regAt_eq_none (h.resolve_left (absurd hwidth))
  · rfl

/-- An admitted access that selects no register stops with BadAccess (R140). -/
theorem transact_of_accessReg_none {a : Agent} {x : Access} {s : State}
    (hadmit : ¬(a = .host ∧ s.ctl.phase ≠ .idle)) (hnone : accessReg x = none) :
    transact a x s = .error (.fault (.badAccess a x.dir x.off)) := by
  rw [transact, if_neg hadmit, hnone]

/-- Settles O31: the access is admitted and selects no register. -/
theorem badAccessFaults : Obligations.BadAccessFaults := by
  intro s x hacc hbad
  rw [hostBus, whenLive_of_live hacc.fault hacc.refused, hostAfter,
    transact_of_accessReg_none (by simp [hacc.idle]) (accessReg_eq_none hbad)]
  rfl

/-! ## The window's bytes -/

/-- A byte of the window is fixed by the value of the register it belongs to (R72). -/
theorem windowByte_congr {s t : State} {off : Nat}
    (h : ∀ r, regAt (off / 4 * 4) = some r → regValue t r = regValue s r) :
    windowByte t off = windowByte s off := by
  unfold windowByte
  cases hr : regAt (off / 4 * 4) with
  | none => rfl
  | some r =>
    have hvalue := h r hr
    cases r with
    | fifo => rfl
    | cs | clk | dlen | ltoh | dc => simp only [hvalue]

/-- CS is at offset 0 only (R71). -/
theorem regAt_ne_cs {off : Nat} (h : off ≠ 0x00) : regAt off ≠ some .cs := by
  unfold regAt
  rw [if_neg h]
  split_ifs <;> simp

/-- The bytes from CLK on are those of the registers other than CS (R72). -/
theorem windowByte_of_sameRegs {s t : State} (h : SameRegs s t) {off : Nat} (hoff : 4 ≤ off) :
    windowByte t off = windowByte s off := by
  refine windowByte_congr fun r hr => ?_
  cases r with
  | cs => exact absurd hr (regAt_ne_cs (by omega))
  | fifo => rfl
  | clk => simp only [regValue, h.clkCdiv]
  | dlen => simp only [regValue, h.dlenLen]
  | ltoh => simp only [regValue, h.ltohToh]
  | dc => exact h.dc

/-! ## Frame of the bus reads -/

/-- A BUS read is the host's whole-word read of its register (R108). -/
theorem exec_readInstr (r : Reg) (s : State) :
    exec (readInstr r) s = whenLive s (hostAfter (readOf r) s) := by
  cases r <;> rfl

/-- A host read changes the trace, the value given back, the count of draws and the fault record at
most, and `rd.fifo` may also pop the RX FIFO (R76, R140). -/
theorem hostAfter_readOf_frame (r : Reg) (s : State) :
    ∃ q tr w n f, hostAfter (readOf r) s
        = { s with rxq := q, trace := tr, rdata := w, draws := n, fault := f }
      ∧ (q = s.rxq ∨ (r = .fifo ∧ q = s.rxq.tail)) := by
  by_cases hi : s.ctl.phase = .idle
  · rw [hostAfter_readOf r hi]
    rcases readReg_state r s with e | e | ⟨hr, u, left, hq, e⟩ <;> rw [e]
    · exact ⟨_, _, _, _, _, rfl, .inl rfl⟩
    · exact ⟨_, _, _, _, _, rfl, .inl rfl⟩
    · exact ⟨_, _, _, _, _, rfl, .inr ⟨hr, by rw [hq]; rfl⟩⟩
  · rw [hostAfter_busy _ hi]
    exact ⟨_, _, _, _, _, rfl, .inl rfl⟩

/-- Settles O17: a read changes the fields `hostAfter_readOf_frame` names, and none but the RX FIFO
shows in the window, through the flags of CS. -/
theorem readsFrame : Obligations.ReadsFrame := by
  intro s t i hi he
  obtain ⟨r, rfl⟩ : ∃ r, i = readInstr r := by
    simp only [List.mem_cons, List.not_mem_nil, or_false] at hi
    rcases hi with rfl | rfl | rfl | rfl | rfl | rfl
    exacts [⟨.cs, rfl⟩, ⟨.fifo, rfl⟩, ⟨.clk, rfl⟩, ⟨.dlen, rfl⟩, ⟨.ltoh, rfl⟩, ⟨.dc, rfl⟩]
  rw [exec_readInstr] at he
  obtain ⟨_, _, rfl⟩ := whenLive_eq_next he
  obtain ⟨q, tr, w, n, f, e, hq⟩ := hostAfter_readOf_frame r s
  rw [e]
  refine ⟨rfl, rfl, rfl, rfl, rfl, rfl, rfl, rfl, rfl, rfl, rfl, rfl, rfl, rfl, rfl,
    fun hne => ?_, fun _ => ⟨hq.imp_right And.right, fun _ => windowByte_of_sameRegs ?_⟩⟩
  · obtain rfl : q = s.rxq := hq.resolve_right fun ⟨hr, _⟩ => hne (by rw [hr]; rfl)
    exact ⟨rfl, fun _ => rfl⟩
  · exact ⟨rfl, rfl, rfl, rfl⟩

/-! ## Frame of the bus writes -/

/-- A BUS write is the host's whole-word write of its register (R108). -/
theorem exec_writeInstr (r : Reg) (v : Word) (s : State) :
    exec (writeInstr v r) s = whenLive s (hostAfter (writeOf r v) s) := by
  cases r <;> rfl

/-- A host write is not admitted, or stops by its register's rule, or stands and is traced
(R140). -/
theorem hostAfter_writeOf_cases (r : Reg) (v : Word) (s : State) :
    (∃ k, hostAfter (writeOf r v) s = raise k s)
      ∨ (∃ e, writeReg .host r v s = .error e ∧ hostAfter (writeOf r v) s = recordStop e s)
      ∨ ∃ u, writeReg .host r v s = .ok u
        ∧ hostAfter (writeOf r v) s = logAccess .host (writeOf r v) v u := by
  by_cases hi : s.ctl.phase = .idle
  · rw [hostAfter_writeOf r v hi]
    cases writeReg .host r v s with
    | error e => exact .inr (.inl ⟨e, rfl, rfl⟩)
    | ok u => exact .inr (.inr ⟨u, rfl, rfl⟩)
  · exact .inl ⟨_, hostAfter_busy _ hi⟩

/-- Settles O24: a stop changes its record only, and a CS write that stands keeps what lies outside
the block and the other registers. -/
theorem wrCsFrame : Obligations.WrCsFrame := by
  intro s t v he
  obtain ⟨_, _, rfl⟩ := whenLive_eq_next he
  rcases hostAfter_writeOf_cases .cs v s with ⟨k, h⟩ | ⟨e, _, h⟩ | ⟨u, hu, h⟩ <;> rw [h]
  · exact ⟨rfl, rfl, rfl, rfl, rfl, rfl, rfl, rfl, rfl, rfl, rfl,
      fun _ => windowByte_of_sameRegs ⟨rfl, rfl, rfl, rfl⟩⟩
  · cases e <;> exact ⟨rfl, rfl, rfl, rfl, rfl, rfl, rfl, rfl, rfl, rfl, rfl,
      fun _ => windowByte_of_sameRegs ⟨rfl, rfl, rfl, rfl⟩⟩
  · obtain ⟨rfl, _, _⟩ := writeCs_ok hu
    have hout := csWriteEffect_outside v s
    obtain ⟨hregs, _, _⟩ := csWriteEffect_regs v s
    exact ⟨hregs.clkCdiv, hregs.dlenLen, hregs.ltohToh, hregs.dc, hout.ctl, hout.params, hout.rdata,
      hout.threads, hout.owner, hout.sched, hout.completed, fun _ => windowByte_of_sameRegs hregs⟩

theorem writeClk_error {v : Word} {s : State} {e : Stop} (h : writeClk v s = .error e) :
    ∃ k, e = .fault k := by
  unfold writeClk at h
  split at h
  · cases h
    exact ⟨_, rfl⟩
  · cases h

/-- Only a CS write can be refused (R146). -/
theorem writeReg_error_of_ne_cs {a : Agent} {r : Reg} {v : Word} {s : State} {e : Stop}
    (hr : r ≠ .cs) (h : writeReg a r v s = .error e) : ∃ k, e = .fault k := by
  cases r with
  | cs => exact absurd rfl hr
  | fifo => exact writeFifo_error h
  | clk => exact writeClk_error h
  | dlen | ltoh | dc => cases h

/-- `t` is `s` but for what a write of register `r` other than CS may change (R77): the register's
own contents, the trace and the fault record. -/
def WroteOnly (r : Reg) (s t : State) : Prop :=
  ∃ q c len toh d tr f, t = { s with
      txq := q, clkCdiv := c, dlenLen := len, ltohToh := toh, dc := d, trace := tr, fault := f }
    ∧ (r ≠ .fifo → q = s.txq) ∧ (r ≠ .clk → c = s.clkCdiv) ∧ (r ≠ .dlen → len = s.dlenLen)
    ∧ (r ≠ .ltoh → toh = s.ltohToh) ∧ (r ≠ .dc → d = s.dc)

theorem wroteOnly_raise (r : Reg) (k : FaultKind) (s : State) : WroteOnly r s (raise k s) :=
  ⟨_, _, _, _, _, _, _, rfl, fun _ => rfl, fun _ => rfl, fun _ => rfl, fun _ => rfl, fun _ => rfl⟩

theorem wroteOnly_writeReg {a : Agent} {r : Reg} {v : Word} {s t : State} (hr : r ≠ .cs)
    (h : writeReg a r v s = .ok t) : WroteOnly r s t := by
  cases r with
  | cs => exact absurd rfl hr
  | fifo =>
    obtain ⟨_, _, rfl⟩ := writeFifo_ok h
    exact ⟨_, _, _, _, _, _, _, rfl, fun hne => absurd rfl hne, fun _ => rfl, fun _ => rfl,
      fun _ => rfl, fun _ => rfl⟩
  | clk =>
    obtain ⟨_, rfl⟩ := writeClk_ok h
    exact ⟨_, _, _, _, _, _, _, rfl, fun _ => rfl, fun hne => absurd rfl hne, fun _ => rfl,
      fun _ => rfl, fun _ => rfl⟩
  | dlen =>
    cases h
    exact ⟨_, _, _, _, _, _, _, rfl, fun _ => rfl, fun _ => rfl, fun hne => absurd rfl hne,
      fun _ => rfl, fun _ => rfl⟩
  | ltoh =>
    cases h
    exact ⟨_, _, _, _, _, _, _, rfl, fun _ => rfl, fun _ => rfl, fun _ => rfl,
      fun hne => absurd rfl hne, fun _ => rfl⟩
  | dc =>
    cases h
    exact ⟨_, _, _, _, _, _, _, rfl, fun _ => rfl, fun _ => rfl, fun _ => rfl, fun _ => rfl,
      fun hne => absurd rfl hne⟩

theorem wroteOnly_logAccess {r : Reg} {s t : State} (a : Agent) (x : Access) (v : Word)
    (h : WroteOnly r s t) : WroteOnly r s (logAccess a x v t) := by
  obtain ⟨q, c, len, toh, d, tr, f, rfl, hkept⟩ := h
  exact ⟨q, c, len, toh, d, _, f, rfl, hkept⟩

/-- A host write of a register other than CS changes that register, the trace and the fault record
at most (R77). -/
theorem hostAfter_writeOf_wroteOnly {r : Reg} (hr : r ≠ .cs) (v : Word) (s : State) :
    WroteOnly r s (hostAfter (writeOf r v) s) := by
  rcases hostAfter_writeOf_cases r v s with ⟨k, h⟩ | ⟨e, he, h⟩ | ⟨u, hu, h⟩ <;> rw [h]
  · exact wroteOnly_raise r k s
  · obtain ⟨k, rfl⟩ := writeReg_error_of_ne_cs hr he
    exact wroteOnly_raise r k s
  · exact wroteOnly_logAccess _ _ _ (wroteOnly_writeReg hr hu)

/-- Settles O29: each of the five writes changes its own register, the trace and the fault record
at most. -/
theorem otherWritesFrame : Obligations.OtherWritesFrame := by
  intro s t v i hi he
  obtain ⟨r, hr, rfl⟩ : ∃ r, r ≠ .cs ∧ i = writeInstr v r := by
    simp only [List.mem_cons, List.not_mem_nil, or_false] at hi
    rcases hi with rfl | rfl | rfl | rfl | rfl
    exacts [⟨.fifo, by decide, rfl⟩, ⟨.clk, by decide, rfl⟩, ⟨.dlen, by decide, rfl⟩,
      ⟨.ltoh, by decide, rfl⟩, ⟨.dc, by decide, rfl⟩]
  rw [exec_writeInstr] at he
  obtain ⟨_, _, rfl⟩ := whenLive_eq_next he
  have other : ∀ q, writeInstr v r ≠ writeInstr v q → r ≠ q := fun q => mt (congrArg _)
  obtain ⟨q, c, len, toh, d, tr, f, e, htx, hclk, hdlen, hltoh, hdc⟩ :=
    hostAfter_writeOf_wroteOnly hr v s
  rw [e]
  exact ⟨rfl, rfl, rfl, rfl, rfl, rfl, rfl, rfl, rfl, rfl, rfl, rfl, rfl,
    fun hne => htx (other .fifo hne),
    fun hne => hclk (other .clk hne), fun hne => hdlen (other .dlen hne),
    fun hne => hltoh (other .ltoh hne), fun hne => hdc (other .dc hne)⟩

end Sys2Proof.Proofs

/-! # Scope: the controller's protocol

The moves of the controller through the source's states, and where a command completes
(spec/41_handshake_controller.md R200, R201, R211, R218). -/

namespace Sys2Proof.Proofs

open Sys2Proof Sys2Proof.Machine Sys2Proof.Safety Sys2Proof.Claims

/-! ## Steps along the protocol -/

/-- The source's states allow the controller to go from phase `p` to phase `q` (R200, R218). -/
def MayMove (p q : Phase) : Prop :=
  sourceState q = sourceState p ∨ (sourceState p, sourceState q) ∈ sourceMoves

/-- From `s` to `t` the controller moves along the protocol and completes no command. -/
structure Continues (s t : State) : Prop where
  move : MayMove s.ctl.phase t.ctl.phase
  busy : s.ctl.phase ≠ .idle → t.ctl.phase ≠ .idle
  completed : t.completed = s.completed

/-- From `s` to `t` the controller goes back to IDLE and completes its command (R211). -/
structure Completes (s t : State) : Prop where
  move : MayMove s.ctl.phase .idle
  busy : s.ctl.phase ≠ .idle
  idle : t.ctl.phase = .idle
  completed : t.completed = s.completed ++ [⟨s.owner, s.ctl.cmd, t.trace.length⟩]

/-- `t` has the controller and the completions of `s`. -/
structure SameCtl (s t : State) : Prop where
  ctl : t.ctl = s.ctl
  completed : t.completed = s.completed

theorem SameCtl.refl (s : State) : SameCtl s s := ⟨rfl, rfl⟩

theorem SameCtl.trans {s t u : State} (h : SameCtl s t) (k : SameCtl t u) : SameCtl s u :=
  ⟨k.ctl.trans h.ctl, k.completed.trans h.completed⟩

theorem SameCtl.continues {s t : State} (h : SameCtl s t) : Continues s t := by
  obtain ⟨hctl, hcompleted⟩ := h
  exact ⟨.inl (by rw [hctl]), fun hbusy => by rwa [hctl], hcompleted⟩

theorem SameCtl.continues_trans {s t u : State} (h : SameCtl s t) (k : Continues t u) :
    Continues s u := by
  obtain ⟨hctl, hcompleted⟩ := h
  obtain ⟨hmove, hbusy, hsame⟩ := k
  rw [hctl] at hmove hbusy
  exact ⟨hmove, hbusy, hsame.trans hcompleted⟩

theorem SameCtl.completes_trans {s t u : State} (h : SameCtl s t) (howner : t.owner = s.owner)
    (k : Completes t u) : Completes s u := by
  obtain ⟨hctl, hcompleted⟩ := h
  obtain ⟨hmove, hbusy, hidle, hrecord⟩ := k
  rw [hctl] at hmove hbusy
  rw [hctl, howner, hcompleted] at hrecord
  exact ⟨hmove, hbusy, hidle, hrecord⟩

theorem recordStop_sameCtl (e : Stop) (s : State) : SameCtl s (recordStop e s) := by
  cases e <;> exact ⟨rfl, rfl⟩

/-- A transaction that stands leaves what lies outside the block but for its trace entry (R140). -/
theorem transact_sameCtl {a : Agent} {x : Access} {s t : State} {v : Word}
    (h : transact a x s = .ok (v, t)) : SameCtl s t ∧ t.owner = s.owner := by
  obtain ⟨r, u, _, _, hp, rfl⟩ := transact_ok h
  have hout := perform_outside hp
  exact ⟨⟨hout.ctl, hout.completed⟩, hout.owner⟩

/-! ## The controller's steps -/

/-- A controller transaction that stops moves nothing, so what follows one that stands decides. -/
theorem ctlBus_follows {x : Access} {k : Word → State → State} {s : State}
    (hk : ∀ v t, SameCtl s t → t.owner = s.owner →
      Continues s (k v t) ∨ Completes s (k v t)) :
    Continues s (ctlBus x k s) ∨ Completes s (ctlBus x k s) := by
  rcases ctlBus_cases x k s with ⟨e, _, h⟩ | ⟨v, t, ht, h⟩ <;> rw [h]
  · exact .inl (recordStop_sameCtl e s).continues
  · obtain ⟨hctl, howner⟩ := transact_sameCtl ht
    exact hk v t hctl howner

/-- Going on to a phase that is not IDLE completes nothing. -/
theorem continues_of_phase {s t : State} {p : Phase} (hs : s.ctl.phase = p) (q : Phase)
    (hmove : MayMove p q) (hq : q ≠ .idle) (ht : t.ctl.phase = q)
    (hcompleted : t.completed = s.completed) : Continues s t := by
  subst hs ht
  exact ⟨hmove, fun _ => hq, hcompleted⟩

theorem complete_completes {s t : State} (hmove : MayMove s.ctl.phase .idle)
    (hbusy : s.ctl.phase ≠ .idle) (h : SameCtl s t) (howner : t.owner = s.owner) :
    Completes s (complete t) := by
  obtain ⟨hctl, hcompleted⟩ := h
  exact ⟨hmove, hbusy, rfl, by rw [complete_completed, hcompleted, howner, hctl]; rfl⟩

/-- A failed poll stays in its phase, be it for another poll or at the limit (R206, R208, R215). -/
theorem pollFailed_continues {s t : State} (v : Word) (h : SameCtl s t) :
    Continues s (pollFailed v s t) := by
  obtain ⟨hctl, hcompleted⟩ := h
  have again : Continues s { t with ctl := { t.ctl with tmp := v, spins := s.ctl.spins + 1 } } :=
    ⟨.inl (by rw [← hctl]), fun hbusy => by rwa [← hctl] at hbusy, hcompleted⟩
  simp only [pollFailed]
  split
  · exact again
  · split
    · exact SameCtl.continues ⟨rfl, rfl⟩
    · exact again

theorem afterWaitTxd_continues {s t : State} (hp : s.ctl.phase = .waitTxd) (v : Word)
    (h : SameCtl s t) : Continues s (afterWaitTxd s v t) := by
  unfold afterWaitTxd
  split
  · unfold pushOrDrain
    split
    · exact continues_of_phase hp .waitDone (.inr (by decide)) (by decide) rfl h.completed
    · exact continues_of_phase hp .push (.inr (by decide)) (by decide) rfl h.completed
  · exact pollFailed_continues v h

theorem afterWaitDone_continues {s t : State} (hp : s.ctl.phase = .waitDone) (v : Word)
    (h : SameCtl s t) : Continues s (afterWaitDone s v t) := by
  unfold afterWaitDone
  split
  · exact continues_of_phase hp .clrTaRd (.inr (by decide)) (by decide) rfl h.completed
  · exact pollFailed_continues v h

theorem afterPush_continues {s t : State} (hp : s.ctl.phase = .push) (v : Word)
    (h : SameCtl s t) : Continues s (afterPush v t) := by
  have ht : t.ctl.phase = .push := by rw [h.ctl, hp]
  simp only [afterPush]
  split
  · exact continues_of_phase hp .waitDone (.inr (by decide)) (by decide) rfl h.completed
  · exact continues_of_phase hp .push (.inl rfl) (by decide) ht h.completed

theorem stepPush_continues {s : State} (hp : s.ctl.phase = .push) :
    Continues s (stepPush s) ∨ Completes s (stepPush s) := by
  unfold stepPush
  split
  · exact ctlBus_follows fun v t h _ => .inl (afterPush_continues hp v h)
  · exact .inl (continues_of_phase hp .waitDone (.inr (by decide)) (by decide) rfl rfl)

/-- The write of a `cfg` field goes on to the next field's read, or completes after the last
(R203, R211). -/
theorem afterCfgWr_follows {s t : State} {k : Fin 5} (hp : s.ctl.phase = .cfgWr k) (v : Word)
    (h : SameCtl s t) (howner : t.owner = s.owner) :
    Continues s (afterCfgWr k v t) ∨ Completes s (afterCfgWr k v t) := by
  unfold afterCfgWr
  split
  · next j _ =>
    exact .inl (continues_of_phase hp (.cfgRd j) (.inl rfl) nofun rfl h.completed)
  · have hmove : (SourceState.configure, SourceState.idle) ∈ sourceMoves := by decide
    exact .inr (complete_completes (by rw [hp]; exact .inr hmove) (by simp [hp]) h howner)

theorem stepCfgWr_follows {s : State} {k : Fin 5} (hp : s.ctl.phase = .cfgWr k) :
    Continues s (stepCfgWr k s) ∨ Completes s (stepCfgWr k s) := by
  unfold stepCfgWr
  split
  · exact ctlBus_follows fun v t h howner => afterCfgWr_follows hp v h howner
  all_goals exact .inl (SameCtl.refl _).continues

/-- A controller step goes on along the phase table, or completes the command (R200, R218). -/
theorem ctlStep_follows (s : State) : Continues s (ctlStep s) ∨ Completes s (ctlStep s) := by
  have goesOn : ∀ {x : Access} {k : Word → State → State} {p : Phase} (q : Phase),
      s.ctl.phase = p → sourceState q = sourceState p → q ≠ .idle →
      (∀ v t, (k v t).ctl.phase = q ∧ (k v t).completed = t.completed) →
      Continues s (ctlBus x k s) ∨ Completes s (ctlBus x k s) :=
    fun q hp hsource hq hk => ctlBus_follows fun v t h _ =>
      .inl (continues_of_phase hp q (.inl hsource) hq (hk v t).1 ((hk v t).2.trans h.completed))
  unfold ctlStep
  cases hp : s.ctl.phase with
  | idle => exact .inl (SameCtl.refl _).continues
  | cfgRd k => exact goesOn (.cfgWr k) hp rfl nofun fun _ _ => ⟨rfl, rfl⟩
  | cfgWr k => exact stepCfgWr_follows hp
  | setTaRd => exact goesOn .setTaWr hp rfl nofun fun _ _ => ⟨rfl, rfl⟩
  | setTaWr => exact goesOn .waitTxd hp rfl nofun fun _ _ => ⟨rfl, rfl⟩
  | waitTxd => exact ctlBus_follows fun v t h _ => .inl (afterWaitTxd_continues hp v h)
  | push => exact stepPush_continues hp
  | waitDone => exact ctlBus_follows fun v t h _ => .inl (afterWaitDone_continues hp v h)
  | clrTaRd => exact goesOn .clrTaWr hp rfl nofun fun _ _ => ⟨rfl, rfl⟩
  | clrTaWr => exact goesOn .clrFifoRd hp rfl nofun fun _ _ => ⟨rfl, rfl⟩
  | clrFifoRd => exact goesOn .clrFifoWr hp rfl nofun fun _ _ => ⟨rfl, rfl⟩
  | clrFifoWr =>
    have hmove : MayMove .clrFifoWr .idle := .inr (by decide)
    exact ctlBus_follows fun v t h howner =>
      .inr (complete_completes (by rw [hp]; exact hmove) (by simp [hp]) h howner)

/-! ## The other agents' steps -/

theorem engineStep_sameCtl (s : State) : SameCtl s (engineStep s) := by
  rcases engineStep_cases s with e | ⟨u, _, e⟩ | ⟨u, left, _, _, _, e | e⟩ <;> rw [e] <;>
    exact ⟨rfl, rfl⟩

theorem giveHost_sameCtl (x : Access) (v : Word) (s : State) : SameCtl s (giveHost x v s) := by
  unfold giveHost
  split <;> exact ⟨rfl, rfl⟩

theorem hostAfter_sameCtl (x : Access) (s : State) : SameCtl s (hostAfter x s) := by
  rcases hostAfter_cases x s with ⟨e, _, h⟩ | ⟨v, t, ht, h⟩ <;> rw [h]
  · exact recordStop_sameCtl e s
  · exact (transact_sameCtl ht).1.trans (giveHost_sameCtl x v t)

theorem hostThen_sameCtl (x : Access) {k : Word → State → State} (s : State)
    (hk : ∀ v t, SameCtl t (k v t)) : SameCtl s (hostThen x k s) := by
  rcases hostThen_cases x k s with ⟨e, _, h⟩ | ⟨v, t, ht, h⟩ <;> rw [h]
  · exact recordStop_sameCtl e s
  · exact ((transact_sameCtl ht).1.trans (giveHost_sameCtl x v t)).trans (hk v _)

theorem pollTestStep_sameCtl (k : Nat) (f : PollFlag) (n : Nat) (v : Word) (s : State) :
    SameCtl s (pollTestStep k f n v s) := by
  unfold pollTestStep
  split
  · exact ⟨rfl, rfl⟩
  · split
    · exact ⟨rfl, rfl⟩
    · split <;> exact ⟨rfl, rfl⟩

/-- A host operation that is no instruction does not touch the controller (R157 to R159). -/
theorem hostAct_sameCtl (k : Nat) (a : HostAct) (s : State) : SameCtl s (hostAct k a s) := by
  cases a with
  | access x => exact hostAfter_sameCtl x s
  | malformed r => exact ⟨rfl, rfl⟩
  | getf f => exact hostThen_sameCtl _ s fun _ _ => ⟨rfl, rfl⟩
  | setf f x => exact hostThen_sameCtl _ s fun _ _ => ⟨rfl, rfl⟩
  | setfWrite f x v => exact hostAfter_sameCtl _ s
  | pollf f n => exact hostThen_sameCtl _ s fun _ _ => ⟨rfl, rfl⟩
  | pollTest f n v => exact pollTestStep_sameCtl k f n v s

/-- A command leaves IDLE for its first phase, and a busy controller does not take it (R201). -/
theorem acceptCmd_continues {c : Ctl} (s : State) (hmove : MayMove .idle c.phase) :
    Continues s (acceptCmd c s) := by
  unfold acceptCmd
  split
  · next hi => exact ⟨by rw [hi]; exact hmove, fun hbusy => absurd hi hbusy, rfl⟩
  · exact (SameCtl.refl s).continues

/-- An instruction starts a command at an IDLE controller, or does not touch the controller (R201,
R217). -/
theorem exec_continues {i : Instr} {s t : State} (h : exec i s = .next t) : Continues s t := by
  cases i with
  | cfg | send | send1 =>
    obtain ⟨_, _, rfl⟩ := whenLive_eq_next h
    exact acceptCmd_continues s (.inr (by simp [sourceMoves, sourceState]))
  | rdCs | rdFifo | rdClk | rdDlen | rdLtoh | rdDc | wrCs | wrFifo | wrClk | wrDlen | wrLtoh
  | wrDc =>
    obtain ⟨_, _, rfl⟩ := whenLive_eq_next h
    exact (hostAfter_sameCtl _ s).continues

/-! ## Any step -/

theorem step_follows {s t : State} (h : step s = .next t) : Continues s t ∨ Completes s t := by
  have chosen : ∀ {τ u}, chooseTurn s = some (τ, u) → SameCtl s u ∧ u.owner = s.owner := by
    intro τ u hu
    rw [(chooseTurn_some hu).2]
    exact ⟨⟨rfl, rfl⟩, rfl⟩
  have fetched : ∀ {k u op w}, fetch k u = some (op, w) → SameCtl u w := fun hw => by
    rw [fetch_some hw]
    exact ⟨rfl, rfl⟩
  obtain ⟨_, _, hcases⟩ := step_cases h
  rcases hcases with ⟨_, _, rfl⟩ | ⟨u, hu, rfl⟩ | ⟨u, hu, rfl⟩ | ⟨k, u, i, w, hu, hw, he⟩
    | ⟨k, u, a, w, hu, hw, rfl⟩
  · exact .inl (SameCtl.refl _).continues
  · obtain ⟨hsame, howner⟩ := chosen hu
    exact (ctlStep_follows u).imp hsame.continues_trans (hsame.completes_trans howner)
  · exact .inl ((chosen hu).1.trans (engineStep_sameCtl u)).continues
  · exact .inl (((chosen hu).1.trans (fetched hw)).continues_trans (exec_continues he))
  · exact .inl (((chosen hu).1.trans (fetched hw)).trans (hostAct_sameCtl k a w)).continues

/-- Settles O40: a step that goes on keeps a busy controller busy, and one that completes records
the command of the thread that owns it. -/
theorem controllerFollowsTheProtocol : Obligations.ControllerFollowsTheProtocol := by
  intro s t hs
  rcases step_follows hs with ⟨hmove, hbusy, hcompleted⟩ | ⟨hmove, hbusy, hidle, hcompleted⟩
  · refine ⟨hmove, ?_⟩
    rw [if_neg fun ⟨hs, ht⟩ => hbusy hs ht, List.append_nil, hcompleted]
  · rw [← hidle] at hmove
    exact ⟨hmove, by rw [if_pos ⟨hbusy, hidle⟩, hcompleted]⟩

end Sys2Proof.Proofs

/-! # Scope: the controller's writes and what a command leaves

Field writes of the controller (spec/40_register_access.md R158), the configuration by `cfg`
(spec/41_handshake_controller.md R202, R203) and the end of a send (R210, R211). -/

namespace Sys2Proof.Proofs

open Sys2Proof Sys2Proof.Machine Sys2Proof.Safety Sys2Proof.Claims

/-! ## Inserted fields, bit by bit -/

theorem getLsbD_insField (v x : Word) (f : Field) {i : Nat} (hi : i < 32) :
    (insField v f x).getLsbD i
      = if fieldLo f ≤ i ∧ i < fieldLo f + fieldWidth f then x.getLsbD (i - fieldLo f)
        else v.getLsbD i := by
  have hshift : i - fieldLo f < 32 := by omega
  simp only [insField, truncTo, fieldMask, BitVec.getLsbD_or, BitVec.getLsbD_and,
    BitVec.getLsbD_not, BitVec.getLsbD_shiftLeft, getLsbD_lowMask hshift, hi, decide_true,
    Bool.true_and]
  by_cases hfield : fieldLo f ≤ i ∧ i < fieldLo f + fieldWidth f
  · have hlo : ¬ i < fieldLo f := by omega
    have hwidth : i - fieldLo f < fieldWidth f := by omega
    simp [hfield, hlo, hwidth]
  · have hout : i < fieldLo f ∨ ¬ i - fieldLo f < fieldWidth f := by omega
    rcases hout with hlo | hwidth
    · simp [hfield, hlo]
    · simp [hfield, hwidth]

/-- A field holds the value inserted into it (R10). -/
theorem extractLsb'_insField_same (v : Word) (f : Field) (x : BitVec (fieldWidth f)) :
    (insField v f (x.setWidth 32)).extractLsb' (fieldLo f) (fieldWidth f) = x := by
  have hfit := fieldLo_add_fieldWidth_le f
  apply BitVec.eq_of_getLsbD_eq
  intro i hi
  have hfield : fieldLo f ≤ fieldLo f + i ∧ fieldLo f + i < fieldLo f + fieldWidth f := by omega
  rw [BitVec.getLsbD_extractLsb', getLsbD_insField _ _ _ (by omega), if_pos hfield,
    Nat.add_sub_cancel_left, BitVec.getLsbD_setWidth]
  simp [hi, show i < 32 by omega]

/-- Bits that lie outside a field are as before an insertion into it (R10). -/
theorem extractLsb'_insField_of_disjoint (v x : Word) {f : Field} {lo n : Nat} (hfit : lo + n ≤ 32)
    (h : fieldLo f + fieldWidth f ≤ lo ∨ lo + n ≤ fieldLo f) :
    (insField v f x).extractLsb' lo n = v.extractLsb' lo n := by
  apply BitVec.eq_of_getLsbD_eq
  intro i hi
  have hout : ¬(fieldLo f ≤ lo + i ∧ lo + i < fieldLo f + fieldWidth f) := by omega
  rw [BitVec.getLsbD_extractLsb', BitVec.getLsbD_extractLsb',
    getLsbD_insField _ _ _ (by omega), if_neg hout]

/-- Masking commutes with inserting a field that lies inside the mask (R10). -/
theorem insField_and_mask (v x : Word) {f : Field} {m : Word}
    (hf : m &&& fieldMask f = fieldMask f) :
    insField v f x &&& m = insField (v &&& m) f x := by
  have hinserted : truncTo (fieldWidth f) x <<< fieldLo f = x <<< fieldLo f &&& fieldMask f := by
    rw [truncTo, BitVec.shiftLeft_and_distrib, fieldMask]
  rw [insField, insField, or_and_mask, hinserted, BitVec.and_assoc (x <<< fieldLo f),
    BitVec.and_comm (fieldMask f), hf, BitVec.and_assoc, BitVec.and_comm (~~~ fieldMask f),
    ← BitVec.and_assoc]

/-- A word with no bit under a mask has each bit of the mask clear. -/
theorem getLsbD_of_and_mask_zero {v m : Word} {n : Nat} (h : v &&& m = 0#32)
    (hm : m.getLsbD n = true) : v.getLsbD n = false := by
  rw [← getLsbD_and_mask v m n hm, h, BitVec.getLsbD_zero]

/-- Inserting a field changes no bit of a mask that the field lies outside (R10, R161). -/
theorem getLsbD_insField_of_disjoint (v x : Word) {f : Field} {m : Word} {n : Nat}
    (h : fieldMask f &&& m = 0#32) (hm : m.getLsbD n = true) :
    (insField v f x).getLsbD n = v.getLsbD n := by
  rw [← getLsbD_and_mask _ m n hm, insField_and_of_disjoint v x h, getLsbD_and_mask v m n hm]

/-! ## CS writes that leave TA as it is -/

/-- With CLEAR = 0 the CLEAR action does nothing (R143). -/
theorem clearAction_of_clear_zero {v : Word} {s : State} (h : v &&& clearMask = 0#32) :
    clearAction v s = s := by
  have h4 : v.getLsbD 4 = false := getLsbD_of_and_mask_zero h (by decide)
  have h5 : v.getLsbD 5 = false := getLsbD_of_and_mask_zero h (by decide)
  rw [clearAction, h4, h5]
  rfl

/-- A CS write that leaves TA as it was does the CLEAR action and stores (R142, R144). -/
theorem csWriteEffect_of_same_ta {v : Word} {s : State} (h : (v &&& rwMask).getLsbD 7 = taSet s) :
    csWriteEffect v s = { clearAction v s with csRw := v &&& rwMask } := by
  rw [csWriteEffect, h]
  cases taSet s <;> rfl

/-- A CS write with TA = 0 before and after and CLEAR = 0 only stores (R142). -/
theorem writeCs_of_inactive {v : Word} {s : State} (hta : taSet s = false)
    (hoff : (v &&& rwMask).getLsbD 7 = false) (hclear : v &&& clearMask = 0#32) :
    writeCs v s = .ok { s with csRw := v &&& rwMask } := by
  have hfrozen : ¬(taSet s = true ∧ (s.csRw ^^^ (v &&& rwMask)) &&& reconfigureMask ≠ 0#32) := by
    simp [hta]
  have hscope : ¬((v &&& rwMask).getLsbD 7 = true ∧ (v &&& rwMask) &&& scopeMask ≠ 0#32) :=
    fun ⟨hon, _⟩ => Bool.false_ne_true (hoff.symm.trans hon)
  simp only [writeCs]
  rw [if_neg hfrozen, if_neg hscope, csWriteEffect_of_same_ta (by rw [hta, hoff]),
    clearAction_of_clear_zero hclear]

/-- A CLK write with TA = 0 stores (R150). -/
theorem writeClk_of_inactive (v : Word) {s : State} (hta : taSet s = false) :
    writeClk v s = .ok { s with clkCdiv := v.extractLsb' 0 16 } := by
  rw [writeClk, if_neg (by simp [hta])]

/-! ## The end of a send -/

/-- A CS write that stores what stands there, with no unit in the shifter, leaves shifter and wire,
whatever it clears (R143, R144). -/
theorem csWriteEffect_drained {w : Word} {s : State} (hsame : w &&& rwMask = s.csRw)
    (hshift : s.shifter = none) :
    (csWriteEffect w s).shifter = none ∧ (csWriteEffect w s).wire = s.wire := by
  rw [csWriteEffect_of_same_ta (by rw [hsame, taSet])]
  rcases clearAction_shifter w s with ⟨hkept, hwire⟩ | ⟨u, hu, _⟩
  · exact ⟨hkept.trans hshift, hwire⟩
  · rw [hshift] at hu
    cases hu

/-- What holds in CLR_FIFO_WR (R210, R211). -/
theorem phaseInv_clrFifoWr {s : State} (h : PhaseInv s) (hp : s.ctl.phase = .clrFifoWr) :
    Drained s ∧ taSet s = false ∧ TmpIsCs s := by
  rw [PhaseInv, hp] at h
  exact h

/-- CLR_FIFO_WR writes back the stored bits with CLEAR = 3 and completes (R211). -/
theorem ctlStep_clrFifoWr {s : State} (hinv : RegInv s) (hp : s.ctl.phase = .clrFifoWr)
    (hsame : insField s.ctl.tmp .csClear 3#32 &&& rwMask = s.csRw) :
    ctlStep s = complete (logAccess .ctl (writeOf .cs (insField s.ctl.tmp .csClear 3#32))
      (insField s.ctl.tmp .csClear 3#32)
      (csWriteEffect (insField s.ctl.tmp .csClear 3#32) s)) := by
  rw [ctlStep, hp]
  simp only [ctlBus_writeOf, writeReg, writeCs_of_same hinv hsame]

/-- Settles O43: the last step writes CLEAR = 3 over the stored bits, so that both FIFOs are empty
and nothing else of the block changes. -/
theorem completionLeavesACleanBlock : Obligations.CompletionLeavesACleanBlock := by
  intro s hinv hphase hp hdepth t
  obtain ⟨⟨_, hshift⟩, hta, hstored, _⟩ := phaseInv_clrFifoWr hphase hp
  have hsame : insField s.ctl.tmp .csClear 3#32 &&& rwMask = s.csRw :=
    (insField_and_of_disjoint _ _ (by decide)).trans hstored
  obtain ⟨htx, hrx, hcs⟩ :=
    csWriteEffect_of_clear hsame (getField_insField_same s.ctl.tmp 3#32 .csClear)
  obtain ⟨hnone, hwire⟩ := csWriteEffect_drained hsame hshift
  have hout := csWriteEffect_outside (insField s.ctl.tmp .csClear 3#32) s
  have ht : t = _ := ctlStep_clrFifoWr hinv hp hsame
  have htcs : t.csRw = s.csRw := by rw [ht]; exact hcs
  have httx : t.txq = [] := by rw [ht]; exact htx
  have hparams : t.params = s.params := by rw [ht]; exact hout.params
  have hrecord : t.completed = s.completed ++ [⟨s.owner, s.ctl.cmd, t.trace.length⟩] := by
    rw [ht, complete_completed, logAccess_completed, hout.completed, logAccess_owner, hout.owner,
      logAccess_ctl, hout.ctl, complete_trace]
  have hoff : t.csRw.getLsbD 7 = false := by rw [htcs]; exact hta
  have hdone : doneFlag t = false := by rw [doneFlag, taSet, hoff, Bool.false_and]
  have htxd : txd t = true := by
    rw [txd, httx, hparams]
    exact decide_eq_true hdepth
  refine ⟨by rw [ht]; rfl, htcs, hoff, httx, ?_, ?_, hdone, htxd, ?_, ?_, ?_, hrecord⟩ <;> rw [ht]
  · exact hrx
  · exact hnone
  · exact hwire
  · exact hout.fault
  · exact hout.refused

/-! ## The steps of a configuration -/

/-- A read of a register other than FIFO changes the count of draws at most (R76). -/
theorem readReg_of_ne_fifo {r : Reg} (hr : r ≠ .fifo) (s : State) :
    ∃ v n, readReg r s = (v, { s with draws := n }) := by
  rcases readReg_state r s with h | h | ⟨hfifo, _⟩
  · exact ⟨_, s.draws, Prod.ext rfl h⟩
  · exact ⟨_, _, Prod.ext rfl h⟩
  · exact absurd hfifo hr

/-- The fields of `cfg` in CS are stored, and CLEAR and TA are none of them (R203). -/
theorem cfgField_cs_mask {k : Fin 5} (h : fieldReg (cfgField k) = .cs) :
    rwMask &&& fieldMask (cfgField k) = fieldMask (cfgField k)
      ∧ fieldMask (cfgField k) &&& clearMask = 0#32
      ∧ fieldMask (cfgField k) &&& ~~~ rwMask = 0#32
      ∧ fieldMask (cfgField k) &&& fieldMask .csTa = 0#32 := by
  revert k
  decide

/-- The controller is about to read field `k` of a `cfg`, with TA = 0 (R203). -/
structure ReadsCfgField (wordMode : BitVec 1) (cs : BitVec 2) (cpha cpol : BitVec 1)
    (div : BitVec 16) (k : Fin 5) (s : State) : Prop where
  phase : s.ctl.phase = .cfgRd k
  cmd : s.ctl.cmd = some (.cfg wordMode cs cpha cpol div)
  stored : s.csRw &&& ~~~ rwMask = 0#32
  inactive : taSet s = false

/-- `s` with the controller about to read field `k` of a `cfg`: CS holds `c`, the last value read is
`v`, the trace is `tr` and `n` draws have been taken. -/
def readingCfgField (k : Fin 5) (c v : Word) (tr : List TraceEntry) (n : Nat) (s : State) : State :=
  { s with csRw := c, ctl := { s.ctl with phase := .cfgRd k, tmp := v }, trace := tr, draws := n }

/-- `tr'` goes on from `tr` with `n` entries more. -/
structure LongerBy (n : Nat) (tr tr' : List TraceEntry) : Prop where
  grown : tr <+: tr'
  length : tr'.length = tr.length + n

theorem LongerBy.trans {m n : Nat} {tr tr' tr'' : List TraceEntry} (h : LongerBy m tr tr')
    (k : LongerBy n tr' tr'') : LongerBy (m + n) tr tr'' :=
  ⟨h.grown.trans k.grown, by rw [k.length, h.length, Nat.add_assoc]⟩

theorem longerBy_two (tr : List TraceEntry) (e e' : TraceEntry) :
    LongerBy 2 tr (tr ++ [e] ++ [e']) :=
  ⟨(List.prefix_append _ _).trans (List.prefix_append _ _), by simp⟩

/-- `s` after CFG_RD(k) that read `v` and left the count of draws at `n` (R203). -/
def afterCfgRd (k : Fin 5) (v : Word) (n : Nat) (s : State) : State :=
  toPhaseTmp (.cfgWr k) v
    (logAccess .ctl (readOf (fieldReg (cfgField k))) v { s with draws := n })

section Cfg

variable {wordMode : BitVec 1} {cs : BitVec 2} {cpha cpol : BitVec 1} {div : BitVec 16}

/-- The two steps for field `k` of a `cfg`: its register is read, and written back with the argument
inserted (R203). -/
theorem ctlStep_cfg_field {s t : State} {k : Fin 5} {v w : Word} {n : Nat}
    (h : ReadsCfgField wordMode cs cpha cpol div k s)
    (hread : readReg (fieldReg (cfgField k)) s = (v, { s with draws := n }))
    (hw : insField v (cfgField k) (cfgArg wordMode cs cpha cpol div k) = w)
    (hwrite : writeReg .ctl (fieldReg (cfgField k)) w (afterCfgRd k v n s) = .ok t) :
    ctlStep^[2] s = afterCfgWr k w (logAccess .ctl (writeOf (fieldReg (cfgField k)) w) w t) := by
  have hrd : ctlStep s = afterCfgRd k v n s := by
    rw [ctlStep, h.phase]
    simp only [stepCfgRd, ctlBus_readOf, hread, afterCfgRd]
  have hcmd : (afterCfgRd k v n s).ctl.cmd = some (.cfg wordMode cs cpha cpol div) := h.cmd
  have htmp : insField (afterCfgRd k v n s).ctl.tmp (cfgField k)
      (cfgArg wordMode cs cpha cpol div k) = w := hw
  rw [Function.iterate_succ_apply, Function.iterate_one, hrd]
  change stepCfgWr k (afterCfgRd k v n s) = _
  simp only [stepCfgWr, hcmd, ctlBus_writeOf, htmp, hwrite]

/-- The two steps for a CS field insert its argument into CS, and the next field is then to be
read (R203). -/
theorem ctlStep_cfg_csField {s : State} {k j : Fin 5}
    (h : ReadsCfgField wordMode cs cpha cpol div k s) (hk : fieldReg (cfgField k) = .cs)
    (hj : cfgNext k = some j) :
    let c := insField s.csRw (cfgField k) (cfgArg wordMode cs cpha cpol div k)
    ∃ v tr n, ctlStep^[2] s = readingCfgField j c v tr n s ∧ LongerBy 2 s.trace tr
      ∧ ReadsCfgField wordMode cs cpha cpol div j (readingCfgField j c v tr n s) := by
  intro c
  obtain ⟨hin, hnoClear, hnoReserved, hnoTa⟩ := cfgField_cs_mask hk
  obtain ⟨v, n, hread, hvcs, hvclear, _⟩ := readReg_cs s h.stored
  let w := insField v (cfgField k) (cfgArg wordMode cs cpha cpol div k)
  have hstores : w &&& rwMask = c := (insField_and_mask _ _ hin).trans (by rw [hvcs])
  have hoff : c.getLsbD 7 = false :=
    (getLsbD_insField_of_disjoint _ _ hnoTa (by decide)).trans h.inactive
  have hwrite : writeReg .ctl .cs w (afterCfgRd k v n s)
      = .ok { afterCfgRd k v n s with csRw := c } :=
    hstores ▸ writeCs_of_inactive (s := afterCfgRd k v n s) h.inactive (hstores ▸ hoff)
      ((insField_and_of_disjoint _ _ hnoClear).trans hvclear)
  refine ⟨v, s.trace ++ [⟨.ctl, .rd, offsetOf (fieldReg (cfgField k)), v⟩]
      ++ [⟨.ctl, .wr, offsetOf (fieldReg (cfgField k)), w⟩], n, ?_, longerBy_two _ _ _,
    rfl, h.cmd, (insField_and_of_disjoint _ _ hnoReserved).trans h.stored, hoff⟩
  rw [ctlStep_cfg_field h (hk ▸ hread) rfl (by rw [hk]; exact hwrite), afterCfgWr, hj]
  rfl

/-- The two steps for CDIV store the divider and complete the `cfg` (R203, R211). -/
theorem ctlStep_cfg_cdiv {s : State} (h : ReadsCfgField wordMode cs cpha cpol div 4 s) :
    ∃ tr n, ctlStep^[2] s = complete { s with clkCdiv := div, trace := tr, draws := n }
      ∧ LongerBy 2 s.trace tr := by
  obtain ⟨v, n, hread⟩ := readReg_of_ne_fifo (r := .clk) (by decide) s
  let w := insField v .clkCdiv (div.setWidth 32)
  have hdiv : w.extractLsb' 0 16 = div := extractLsb'_insField_same v .clkCdiv div
  have hwrite : writeReg .ctl .clk w (afterCfgRd 4 v n s)
      = .ok { afterCfgRd 4 v n s with clkCdiv := div } :=
    hdiv ▸ writeClk_of_inactive w (s := afterCfgRd 4 v n s) h.inactive
  refine ⟨s.trace ++ [⟨.ctl, .rd, offsetOf .clk, v⟩] ++ [⟨.ctl, .wr, offsetOf .clk, w⟩], n, ?_,
    longerBy_two _ _ _⟩
  rw [ctlStep_cfg_field h hread rfl hwrite]
  rfl

end Cfg

/-- A CS value with the four CS fields of a `cfg` set, in the order of R203. -/
def withCfgFields (wordMode : BitVec 1) (cs : BitVec 2) (cpha cpol : BitVec 1) (c : Word) : Word :=
  insField (insField (insField (insField c .csLenLong (wordMode.setWidth 32))
    .csCs (cs.setWidth 32)) .csCpha (cpha.setWidth 32)) .csCpol (cpol.setWidth 32)

/-- Each of the four fields keeps what was inserted into it, since the fields are disjoint, and no
bit outside them changes (R203). -/
theorem withCfgFields_fields (wordMode : BitVec 1) (cs : BitVec 2) (cpha cpol : BitVec 1)
    (c : Word) :
    let w := withCfgFields wordMode cs cpha cpol c
    w.extractLsb' 25 1 = wordMode ∧ w.extractLsb' 0 2 = cs ∧ w.extractLsb' 2 1 = cpha
      ∧ w.extractLsb' 3 1 = cpol ∧ w &&& 0xFDFFFFF0#32 = c &&& 0xFDFFFFF0#32 := by
  unfold withCfgFields
  refine ⟨?_, ?_, ?_, ?_, ?_⟩
  · iterate 3 rw [extractLsb'_insField_of_disjoint _ _ (by decide) (by decide)]
    exact extractLsb'_insField_same _ .csLenLong wordMode
  · iterate 2 rw [extractLsb'_insField_of_disjoint _ _ (by decide) (by decide)]
    exact extractLsb'_insField_same _ .csCs cs
  · rw [extractLsb'_insField_of_disjoint _ _ (by decide) (by decide)]
    exact extractLsb'_insField_same _ .csCpha cpha
  · exact extractLsb'_insField_same _ .csCpol cpol
  · iterate 4 rw [insField_and_of_disjoint _ _ (by decide)]

/-- Settles O41: four pairs of steps insert the CS fields one by one, and the fifth stores CDIV and
completes. -/
theorem cfgSetsItsFiveFields : Obligations.CfgSetsItsFiveFields := by
  intro s wordMode cs cpha cpol div hinv hta hphase hcmd
  have h0 : ReadsCfgField wordMode cs cpha cpol div 0 s := ⟨hphase, hcmd, hinv.csStored, hta⟩
  obtain ⟨v1, tr1, n1, e1, g1, h1⟩ := ctlStep_cfg_csField h0 rfl (j := 1) rfl
  obtain ⟨v2, tr2, n2, e2, g2, h2⟩ := ctlStep_cfg_csField h1 rfl (j := 2) rfl
  obtain ⟨v3, tr3, n3, e3, g3, h3⟩ := ctlStep_cfg_csField h2 rfl (j := 3) rfl
  obtain ⟨v4, tr4, n4, e4, g4, h4⟩ := ctlStep_cfg_csField h3 rfl (j := 4) rfl
  obtain ⟨tr5, n5, e5, g5⟩ := ctlStep_cfg_cdiv h4
  obtain ⟨hlen, hcs, hcpha, hcpol, hrest⟩ := withCfgFields_fields wordMode cs cpha cpol s.csRw
  have hgrown : LongerBy 10 s.trace tr5 := (((g1.trans g2).trans g3).trans g4).trans g5
  refine ⟨{ s with csRw := withCfgFields wordMode cs cpha cpol s.csRw, trace := tr5, draws := n5 },
    ?_, hlen, hcs, hcpha, hcpol, hrest, hgrown.grown, hgrown.length⟩
  rw [Function.iterate_add_apply ctlStep 8 2, e1, Function.iterate_add_apply ctlStep 6 2, e2,
    Function.iterate_add_apply ctlStep 4 2, e3, Function.iterate_add_apply ctlStep 2 2, e4, e5]
  rfl

end Sys2Proof.Proofs

/-! # Scope: encoding and decoding

The operation words of spec/30_encoding.md R100 to R108 by their fields, the decoder of R109 to
R111 inverted once, and the step of a host thread on a byte stream. -/

namespace Sys2Proof.Proofs

open Sys2Proof Sys2Proof.Machine Sys2Proof.Safety Sys2Proof.Claims

/-! ## Operation words by their fields -/

@[simp] theorem opOf_opWord (op : Byte) (opd : Word) : opOf (opWord op opd) = op :=
  BitVec.extractLsb'_append_eq_right

@[simp] theorem opdOf_opWord (op : Byte) (opd : Word) : opdOf (opWord op opd) = opd :=
  BitVec.extractLsb'_append_eq_left

/-- An opcode byte: the format in bits 7:6 (R101 to R103) and the offset or command number below. -/
def opcode (format : BitVec 2) (low : BitVec 6) : Byte := format ++ low

/-- The format bits of a BUS opcode: bit 6 is 0 and bit 7 is the direction (R101). -/
def busFormat : Dir → BitVec 2
  | .rd => 0#2
  | .wr => 2#2

@[simp] theorem opcode_low (format : BitVec 2) (low : BitVec 6) :
    (opcode format low).extractLsb' 0 6 = low :=
  BitVec.extractLsb'_append_eq_right

@[simp] theorem opcode_bit6 (format : BitVec 2) (low : BitVec 6) :
    (opcode format low).extractLsb' 6 1 = format.extractLsb' 0 1 :=
  BitVec.extractLsb'_append_eq_of_le (Nat.le_refl 6)

@[simp] theorem opcode_bit7 (format : BitVec 2) (low : BitVec 6) :
    (opcode format low).extractLsb' 7 1 = format.extractLsb' 1 1 :=
  BitVec.extractLsb'_append_eq_of_le (Nat.le_succ 6)

/-- A word is put together from its format, its low opcode bits and its operand. -/
theorem opWord_fields (w : OpWord) :
    opWord (opcode ((opOf w).extractLsb' 6 2) ((opOf w).extractLsb' 0 6)) (opdOf w) = w := by
  have hop : opcode ((opOf w).extractLsb' 6 2) ((opOf w).extractLsb' 0 6) = opOf w :=
    BitVec.extractLsb'_append_extractLsb' (w := 2) (len := 6)
  rw [hop]
  exact BitVec.extractLsb'_append_extractLsb' (w := 32) (len := 8)

/-- With bit 6 clear the format is that of the direction in bit 7 (R101). -/
theorem format_of_bus {op : Byte} (h : op.getLsbD 6 = false) :
    op.extractLsb' 6 2 = busFormat (if op.getLsbD 7 then .wr else .rd) := by
  revert op
  decide

/-- Each word is a BUS word, a CMD word or one of the reserved space (R101 to R103). -/
theorem opWord_cases (w : OpWord) :
    (∃ dir off opd, w = opWord (opcode (busFormat dir) off) opd)
      ∨ (∃ cmd opd, w = opWord (opcode 1#2 cmd) opd)
      ∨ ∃ low opd, w = opWord (opcode 3#2 low) opd := by
  have hformat : ∀ f : BitVec 2, f = busFormat .rd ∨ f = busFormat .wr ∨ f = 1#2 ∨ f = 3#2 := by
    decide
  have hw := (opWord_fields w).symm
  rcases hformat ((opOf w).extractLsb' 6 2) with h | h | h | h <;> rw [h] at hw
  · exact .inl ⟨.rd, _, _, hw⟩
  · exact .inl ⟨.wr, _, _, hw⟩
  · exact .inr (.inl ⟨_, _, hw⟩)
  · exact .inr (.inr ⟨_, _, hw⟩)

/-! ## The decoder of a word, by format -/

theorem decodeWord_bus (dir : Dir) (off : BitVec 6) (opd : Word) (after : List Byte) :
    decodeWord (opWord (opcode (busFormat dir) off) opd) after
      = (decodeBus dir off opd, after) := by
  simp only [decodeWord, opOf_opWord, opdOf_opWord, opcode_bit6, opcode_bit7, opcode_low]
  cases dir <;> rfl

theorem decodeWord_cmd (cmd : BitVec 6) (opd : Word) (after : List Byte) :
    decodeWord (opWord (opcode 1#2 cmd) opd) after = decodeCmd cmd opd after := by
  simp only [decodeWord, opOf_opWord, opdOf_opWord, opcode_bit6, opcode_bit7, opcode_low]
  rfl

theorem decodeWord_reservedFormat (low : BitVec 6) (opd : Word) (after : List Byte) :
    decodeWord (opWord (opcode 3#2 low) opd) after = (.reserved .reservedFormat, after) := by
  simp only [decodeWord, opOf_opWord, opcode_bit6, opcode_bit7]
  rfl

/-- Settles O4: with both format bits set the word is of the reserved space. -/
theorem reservedFormatIsNoOperation : Obligations.ReservedFormatIsNoOperation := by
  intro w after h
  rw [← opWord_fields w, h, decodeWord_reservedFormat]

/-- Settles O3: the decoder runs on each of the five words. -/
theorem sampleWordsDecode : Obligations.SampleWordsDecode := by
  refine ⟨?_, ?_, ?_, ?_, ?_⟩ <;> decide

/-! ## BUS words -/

theorem eq_offsetOf_of_regAt {off : Nat} {r : Reg} (h : regAt off = some r) : off = offsetOf r := by
  unfold regAt at h
  split_ifs at h <;> cases h <;> assumption

theorem regAt_ofNat_offsetOf (r : Reg) : regAt (BitVec.ofNat 6 (offsetOf r)).toNat = some r := by
  cases r <;> rfl

/-- Inside the register map the operand of a read must be zero (R101). -/
theorem decodeBus_rd_of_regAt {off : BitVec 6} {opd : Word} {r : Reg}
    (h : regAt off.toNat = some r) :
    decodeBus .rd off opd
      = if opd = 0#32 then .instr (readInstr r) else .reserved .nonZeroReadOperand := by
  simp only [decodeBus, h]

theorem decodeBus_wr_of_regAt {off : BitVec 6} {opd : Word} {r : Reg}
    (h : regAt off.toNat = some r) : decodeBus .wr off opd = .instr (writeInstr opd r) := by
  simp only [decodeBus, h]

theorem decodeBus_of_regAt_none {dir : Dir} {off : BitVec 6} {opd : Word}
    (h : regAt off.toNat = none) : decodeBus dir off opd = .badAccess dir off := by
  rw [decodeBus, h]

theorem encodeWord_readInstr (r : Reg) : encodeWord (readInstr r)
    = opWord (opcode (busFormat .rd) (BitVec.ofNat 6 (offsetOf r))) 0#32 := by
  cases r <;> rfl

theorem encodeWord_writeInstr (v : Word) (r : Reg) : encodeWord (writeInstr v r)
    = opWord (opcode (busFormat .wr) (BitVec.ofNat 6 (offsetOf r))) v := by
  cases r <;> rfl

theorem decodeWord_readInstr (r : Reg) (after : List Byte) :
    decodeWord (encodeWord (readInstr r)) after = (.instr (readInstr r), after) := by
  rw [encodeWord_readInstr, decodeWord_bus, decodeBus_rd_of_regAt (regAt_ofNat_offsetOf r),
    if_pos rfl]

theorem decodeWord_writeInstr (v : Word) (r : Reg) (after : List Byte) :
    decodeWord (encodeWord (writeInstr v r)) after = (.instr (writeInstr v r), after) := by
  rw [encodeWord_writeInstr, decodeWord_bus, decodeBus_wr_of_regAt (regAt_ofNat_offsetOf r)]

/-- `w` and the bytes `after` it spell the well-formed `i`, and `left` follows (R100, R105). -/
structure Encodes (i : Instr) (left : List Byte) (w : OpWord) (after : List Byte) : Prop where
  wellFormed : WellFormed i
  word : w = encodeWord i
  payload : after = payloadOf i ++ left

theorem encodes_readInstr (r : Reg) (after : List Byte) :
    Encodes (readInstr r) after (encodeWord (readInstr r)) after := by
  cases r <;> exact ⟨rfl, rfl, rfl⟩

theorem encodes_writeInstr (v : Word) (r : Reg) (after : List Byte) :
    Encodes (writeInstr v r) after (encodeWord (writeInstr v r)) after := by
  cases r <;> exact ⟨rfl, rfl, rfl⟩

theorem decodeBus_encodes {dir : Dir} {off : BitVec 6} {opd : Word} {i : Instr}
    (h : decodeBus dir off opd = .instr i) (after : List Byte) :
    Encodes i after (opWord (opcode (busFormat dir) off) opd) after := by
  cases hr : regAt off.toNat with
  | none => rw [decodeBus_of_regAt_none hr] at h; cases h
  | some r =>
    obtain rfl : off = BitVec.ofNat 6 (offsetOf r) := by
      rw [← eq_offsetOf_of_regAt hr, BitVec.ofNat_toNat, BitVec.setWidth_eq]
    cases dir with
    | rd =>
      rw [decodeBus_rd_of_regAt hr] at h
      split at h
      · next hzero =>
        cases h
        rw [hzero, ← encodeWord_readInstr]
        exact encodes_readInstr r after
      · cases h
    | wr =>
      rw [decodeBus_wr_of_regAt hr] at h
      cases h
      rw [← encodeWord_writeInstr]
      exact encodes_writeInstr opd r after

/-! ## Operands of the commands -/

/-- The operand of a `cfg` is fixed by its six parts (R104). -/
theorem cfgOperand_eq_iff {wordMode : BitVec 1} {cs : BitVec 2} {cpha cpol : BitVec 1}
    {div : BitVec 16} {opd : Word} :
    opd = cfgOperand wordMode cs cpha cpol div ↔ opd.extractLsb' 21 11 = 0#11
      ∧ opd.extractLsb' 20 1 = wordMode ∧ opd.extractLsb' 18 2 = cs ∧ opd.extractLsb' 16 1 = cpha
      ∧ opd.extractLsb' 17 1 = cpol ∧ opd.extractLsb' 0 16 = div := by
  constructor
  · rintro rfl
    simp (disch := decide) only [cfgOperand, BitVec.extractLsb'_append_eq_of_le,
      BitVec.extractLsb'_append_eq_of_add_le, BitVec.extractLsb'_eq_self, Nat.reduceSub, and_self]
  · rintro ⟨hzero, rfl, rfl, rfl, rfl, rfl⟩
    rw [cfgOperand, ← hzero]
    iterate 5 rw [BitVec.extractLsb'_append_extractLsb'_eq_extractLsb' (by rfl)]
    exact BitVec.extractLsb'_eq_self.symm

/-- The operand of a `send1` is its byte below 24 zero bits (R106). -/
theorem send1Operand_eq_iff {b : Byte} {opd : Word} :
    opd = b.setWidth 32 ↔ opd.extractLsb' 8 24 = 0#24 ∧ opd.extractLsb' 0 8 = b := by
  have happend : b.setWidth 32 = (0#24 ++ b : Word) := BitVec.setWidth_eq_append (by decide)
  rw [happend]
  constructor
  · rintro rfl
    exact ⟨BitVec.extractLsb'_append_eq_left, BitVec.extractLsb'_append_eq_right⟩
  · rintro ⟨hzero, rfl⟩
    rw [← hzero]
    exact (BitVec.extractLsb'_append_extractLsb' (w := 24) (len := 8)).symm

theorem decodeCfg_eq_instr {opd : Word} {i : Instr} : decodeCfg opd = .instr i
    ↔ ∃ wordMode cs cpha cpol div,
        i = .cfg wordMode cs cpha cpol div ∧ opd = cfgOperand wordMode cs cpha cpol div := by
  simp only [cfgOperand_eq_iff, decodeCfg]
  constructor
  · intro h
    split at h
    · cases h; exact ⟨_, _, _, _, _, rfl, ‹_›, rfl, rfl, rfl, rfl, rfl⟩
    · cases h
  · rintro ⟨_, _, _, _, _, rfl, hzero, rfl, rfl, rfl, rfl, rfl⟩
    rw [if_pos hzero]

theorem decodeSend1_eq_instr {opd : Word} {i : Instr} :
    decodeSend1 opd = .instr i ↔ ∃ b : Byte, i = .send1 b ∧ opd = b.setWidth 32 := by
  simp only [send1Operand_eq_iff, decodeSend1]
  constructor
  · intro h
    split at h
    · cases h; exact ⟨_, rfl, ‹_›, rfl⟩
    · cases h
  · rintro ⟨_, rfl, hzero, rfl⟩
    rw [if_pos hzero]

/-! ## The payload of a send -/

theorem takeBytes_append (taken left : List Byte) :
    takeBytes taken.length (taken ++ left) = some (taken, left) := by
  induction taken with
  | nil => rfl
  | cons b bs ih => simp only [List.length_cons, List.cons_append, takeBytes, ih]

theorem eq_append_of_takeBytes {n : Nat} {bs taken left : List Byte}
    (h : takeBytes n bs = some (taken, left)) : taken.length = n ∧ bs = taken ++ left := by
  induction n, bs using takeBytes.induct generalizing taken with
  | case1 bs => cases h; exact ⟨rfl, rfl⟩
  | case2 n => cases h
  | case3 n b bs got rest hrec ih =>
    simp only [takeBytes, hrec] at h
    cases h
    obtain ⟨hlen, hbs⟩ := ih hrec
    exact ⟨congrArg Nat.succ hlen, congrArg (b :: ·) hbs⟩
  | case4 n b bs hrec => simp only [takeBytes, hrec] at h; cases h

/-- A payload of at most 2^32 - 1 bytes is announced by the operand and read back (R105). -/
theorem decodeSend_ofNat_length {payload : List Byte} (h : payload.length < 2 ^ 32)
    (left : List Byte) :
    decodeSend (BitVec.ofNat 32 payload.length) (payload ++ left)
      = (.instr (.send payload), left) := by
  rw [decodeSend, BitVec.toNat_ofNat, Nat.mod_eq_of_lt h, takeBytes_append]

theorem eq_send_of_decodeSend {opd : Word} {after left : List Byte} {d : Decoded}
    (h : decodeSend opd after = (d, left)) (hd : d ≠ .truncated) :
    ∃ payload, d = .instr (.send payload) ∧ payload.length = opd.toNat
      ∧ after = payload ++ left := by
  unfold decodeSend at h
  split at h
  · next payload left' htake =>
    cases h
    exact ⟨payload, rfl, eq_append_of_takeBytes htake⟩
  · cases h
    exact absurd rfl hd

/-! ## CMD words -/

theorem decodeCmd_encodes {cmd : BitVec 6} {opd : Word} {after left : List Byte} {i : Instr}
    (h : decodeCmd cmd opd after = (.instr i, left)) :
    Encodes i left (opWord (opcode 1#2 cmd) opd) after := by
  unfold decodeCmd at h
  split_ifs at h with h0 h1 h2
  · obtain ⟨hcfg, rfl⟩ := Prod.mk.inj h
    obtain ⟨_, _, _, _, _, rfl, rfl⟩ := decodeCfg_eq_instr.1 hcfg
    exact ⟨rfl, by rw [h0]; rfl, rfl⟩
  · obtain ⟨payload, hi, hlen, rfl⟩ := eq_send_of_decodeSend h (by simp)
    cases hi
    refine ⟨decide_eq_true (hlen ▸ opd.isLt), ?_, rfl⟩
    rw [h1, encodeWord, hlen, BitVec.ofNat_toNat, BitVec.setWidth_eq]
    rfl
  · obtain ⟨hsend1, rfl⟩ := Prod.mk.inj h
    obtain ⟨_, rfl, rfl⟩ := decodeSend1_eq_instr.1 hsend1
    exact ⟨rfl, by rw [h2]; rfl, rfl⟩
  · cases h

/-! ## Round trip of a word and of a stream -/

/-- The decoder inverted: each branch that answers an instruction has read its encoding (R108,
R109). -/
theorem decodeWord_encodes {w : OpWord} {after left : List Byte} {i : Instr}
    (h : decodeWord w after = (.instr i, left)) : Encodes i left w after := by
  rcases opWord_cases w with ⟨dir, off, opd, rfl⟩ | ⟨cmd, opd, rfl⟩ | ⟨low, opd, rfl⟩
  · rw [decodeWord_bus] at h
    obtain ⟨hbus, rfl⟩ := Prod.mk.inj h
    exact decodeBus_encodes hbus after
  · exact decodeCmd_encodes (decodeWord_cmd cmd opd after ▸ h)
  · rw [decodeWord_reservedFormat] at h
    cases h

/-- Each row of the opcode map is read back (R108). -/
theorem decodeWord_encodeWord {i : Instr} (h : WellFormed i) (left : List Byte) :
    decodeWord (encodeWord i) (payloadOf i ++ left) = (.instr i, left) := by
  cases i with
  | rdCs => exact decodeWord_readInstr .cs left
  | rdFifo => exact decodeWord_readInstr .fifo left
  | rdClk => exact decodeWord_readInstr .clk left
  | rdDlen => exact decodeWord_readInstr .dlen left
  | rdLtoh => exact decodeWord_readInstr .ltoh left
  | rdDc => exact decodeWord_readInstr .dc left
  | wrCs v => exact decodeWord_writeInstr v .cs left
  | wrFifo v => exact decodeWord_writeInstr v .fifo left
  | wrClk v => exact decodeWord_writeInstr v .clk left
  | wrDlen v => exact decodeWord_writeInstr v .dlen left
  | wrLtoh v => exact decodeWord_writeInstr v .ltoh left
  | wrDc v => exact decodeWord_writeInstr v .dc left
  | cfg wordMode cs cpha cpol div =>
    refine (decodeWord_cmd 0#6 _ left).trans (congrArg (·, left) ?_)
    exact decodeCfg_eq_instr.2 ⟨_, _, _, _, _, rfl, rfl⟩
  | send payload =>
    exact (decodeWord_cmd 1#6 _ _).trans (decodeSend_ofNat_length (of_decide_eq_true h) left)
  | send1 b =>
    refine (decodeWord_cmd 2#6 _ left).trans (congrArg (·, left) ?_)
    exact decodeSend1_eq_instr.2 ⟨b, rfl, rfl⟩

/-- A stream's first five bytes are its word, least significant byte first (R100). -/
theorem decode_wordBytes_append (w : OpWord) (after : List Byte) :
    decode (wordBytes w ++ after) = decodeWord w after := by
  have hw : wordOfBytes (w.extractLsb' 0 8) (w.extractLsb' 8 8) (w.extractLsb' 16 8)
      (w.extractLsb' 24 8) (w.extractLsb' 32 8) = w := by
    rw [wordOfBytes]
    iterate 4 rw [BitVec.extractLsb'_append_extractLsb'_eq_extractLsb' (by rfl)]
    exact BitVec.extractLsb'_eq_self
  exact congrArg (decodeWord · after) hw

theorem wordBytes_wordOfBytes (b0 b1 b2 b3 b4 : Byte) :
    wordBytes (wordOfBytes b0 b1 b2 b3 b4) = [b0, b1, b2, b3, b4] := by
  simp (disch := decide) only [wordBytes, wordOfBytes, BitVec.extractLsb'_append_eq_of_le,
    BitVec.extractLsb'_append_eq_of_add_le, BitVec.extractLsb'_eq_self, Nat.reduceSub]

/-- A stream begins with a whole operation word or ends inside it (R109; log entry 13). -/
theorem decode_cases (bytes : List Byte) :
    decode bytes = (.truncated, bytes) ∨ ∃ w after, bytes = wordBytes w ++ after := by
  unfold decode
  split
  · next b0 b1 b2 b3 b4 after =>
    exact .inr ⟨wordOfBytes b0 b1 b2 b3 b4, after, by rw [wordBytes_wordOfBytes]; rfl⟩
  · exact .inl rfl

/-- Settles O1: the first five bytes are the word, and the word decodes to its instruction. -/
theorem decodeUndoesEncode : Obligations.DecodeUndoesEncode := by
  intro i after h
  rw [encode, List.append_assoc, decode_wordBytes_append, decodeWord_encodeWord h]

/-- Settles O2: a stream that decodes to an instruction begins with a word, and
`decodeWord_encodes` says which. -/
theorem encodeUndoesDecode : Obligations.EncodeUndoesDecode := by
  intro bytes after i h
  rcases decode_cases bytes with htrunc | ⟨w, rest, rfl⟩
  · rw [htrunc] at h
    cases h
  · rw [decode_wordBytes_append] at h
    obtain ⟨hwf, rfl, rfl⟩ := decodeWord_encodes h
    exact ⟨hwf, by rw [encode, List.append_assoc]⟩

/-! ## Words that spell no operation -/

theorem exists_regAt {off : Nat} (h : off ∈ [0x00, 0x04, 0x08, 0x0C, 0x10, 0x14]) :
    ∃ r, regAt off = some r := by
  simp only [List.mem_cons, List.not_mem_nil, or_false] at h
  rcases h with rfl | rfl | rfl | rfl | rfl | rfl
  exacts [⟨.cs, rfl⟩, ⟨.fifo, rfl⟩, ⟨.clk, rfl⟩, ⟨.dlen, rfl⟩, ⟨.ltoh, rfl⟩, ⟨.dc, rfl⟩]

theorem decodeWord_of_bus {w : OpWord} (h : (opOf w).getLsbD 6 = false) (after : List Byte) :
    decodeWord w after = (decodeBus (if (opOf w).getLsbD 7 then .wr else .rd)
      ((opOf w).extractLsb' 0 6) (opdOf w), after) := by
  conv_lhs => rw [← opWord_fields w, format_of_bus h, decodeWord_bus]

theorem decodeWord_of_cmd {w : OpWord} (h : (opOf w).extractLsb' 6 2 = 1#2) (after : List Byte) :
    decodeWord w after = decodeCmd ((opOf w).extractLsb' 0 6) (opdOf w) after := by
  conv_lhs => rw [← opWord_fields w, h, decodeWord_cmd]

theorem decodeCmd_reservedCommand {cmd : BitVec 6} (h : 3 ≤ cmd.toNat) (opd : Word)
    (after : List Byte) : decodeCmd cmd opd after = (.reserved .reservedCommand, after) := by
  have hne : ∀ n : BitVec 6, n.toNat < 3 → cmd ≠ n := by
    rintro _ hn rfl
    omega
  rw [decodeCmd, if_neg (hne _ (by decide)), if_neg (hne _ (by decide)), if_neg (hne _ (by decide))]

/-- Settles O5: each class is one branch of the decoder. -/
theorem malformedWordsAreClassified : Obligations.MalformedWordsAreClassified := by
  intro w after
  refine ⟨fun hbus hoff => ?_, fun hbus hrd hoff hopd => ?_, fun hcmd hnum => ?_,
    fun hop hopd => ?_, fun hop hopd => ?_⟩
  · rw [decodeWord_of_bus hbus, decodeBus_of_regAt_none (regAt_eq_none hoff)]
  · obtain ⟨r, hr⟩ := exists_regAt hoff
    rw [decodeWord_of_bus hbus, hrd, if_neg Bool.false_ne_true, decodeBus_rd_of_regAt hr,
      if_neg hopd]
  · rw [decodeWord_of_cmd hcmd, decodeCmd_reservedCommand hnum]
  · rw [decodeWord_of_cmd (by rw [hop]; decide), hop]
    exact congrArg (·, after) (if_neg hopd)
  · rw [decodeWord_of_cmd (by rw [hop]; decide), hop]
    exact congrArg (·, after) (if_neg hopd)

theorem decodeCfg_ne_badAccess (opd : Word) (dir : Dir) (off : BitVec 6) :
    decodeCfg opd ≠ .badAccess dir off := by
  unfold decodeCfg
  split <;> simp

theorem decodeSend1_ne_badAccess (opd : Word) (dir : Dir) (off : BitVec 6) :
    decodeSend1 opd ≠ .badAccess dir off := by
  unfold decodeSend1
  split <;> simp

theorem decodeCmd_ne_badAccess (cmd : BitVec 6) (opd : Word) (after : List Byte) (dir : Dir)
    (off : BitVec 6) (left : List Byte) :
    decodeCmd cmd opd after ≠ (.badAccess dir off, left) := by
  intro h
  unfold decodeCmd at h
  split_ifs at h
  · exact decodeCfg_ne_badAccess _ _ _ (Prod.mk.inj h).1
  · obtain ⟨_, hd, _⟩ := eq_send_of_decodeSend h (by simp)
    cases hd
  · exact decodeSend1_ne_badAccess _ _ _ (Prod.mk.inj h).1
  · cases h

theorem regAt_none_of_decodeBus {dir dir' : Dir} {off off' : BitVec 6} {opd : Word}
    (h : decodeBus dir off opd = .badAccess dir' off') : regAt off'.toNat = none := by
  cases hr : regAt off.toNat with
  | none =>
    rw [decodeBus_of_regAt_none hr] at h
    cases h
    exact hr
  | some r =>
    cases dir with
    | rd => rw [decodeBus_rd_of_regAt hr] at h; split at h <;> cases h
    | wr => rw [decodeBus_wr_of_regAt hr] at h; cases h

/-- What the decoder reads as a bad access selects no register (R110). -/
theorem regAt_none_of_decode {bytes left : List Byte} {dir : Dir} {off : BitVec 6}
    (h : decode bytes = (.badAccess dir off, left)) : regAt off.toNat = none := by
  rcases decode_cases bytes with htrunc | ⟨w, after, rfl⟩
  · rw [htrunc] at h
    cases h
  rw [decode_wordBytes_append] at h
  rcases opWord_cases w with ⟨dir', off', opd, rfl⟩ | ⟨cmd, opd, rfl⟩ | ⟨low, opd, rfl⟩
  · rw [decodeWord_bus] at h
    exact regAt_none_of_decodeBus (Prod.mk.inj h).1
  · exact absurd (decodeWord_cmd cmd opd after ▸ h) (decodeCmd_ne_badAccess _ _ _ _ _ _)
  · rw [decodeWord_reservedFormat] at h
    cases h

/-! ## The step of a host thread on a stream -/

section HostStep

variable {s t : State} {k : Nat} {th : HostThread} {rest : List HostOp}

/-- Fetching moves the thread's program on, and a command makes the thread the owner (R201). -/
theorem fetch_of_takeOp {op : HostNext} (hk : t.threads[k]? = some th)
    (hop : takeOp th.todo = some (op, rest)) :
    fetch k t = some (op, { t with
      threads := t.threads.set k { th with todo := rest }
      owner := if waitsForIdle op then k else t.owner }) := by
  simp only [fetch, hk, hop]

theorem step_of_fetch_instr {u : State} {i : Instr} (hlive : Live s)
    (hturn : chooseTurn s = some (.host k, t)) (hfetch : fetch k t = some (.instr i, u)) :
    step s = exec i u := by
  simp only [step, hlive.fault, hlive.refused, hturn, hfetch]

theorem step_of_fetch_act {u : State} {a : HostAct} (hlive : Live s)
    (hturn : chooseTurn s = some (.host k, t)) (hfetch : fetch k t = some (.act a, u)) :
    step s = .next (hostAct k a u) := by
  simp only [step, hlive.fault, hlive.refused, hturn, hfetch]

end HostStep

/-- A host access that selects no register stops: busy first, then BadAccess (R307). -/
theorem hostAfter_of_accessReg_none {x : Access} {s : State} (h : accessReg x = none) :
    hostAfter x s = raise (if s.ctl.phase = .idle then .badAccess .host x.dir x.off
      else .concurrentAccess x.dir x.off s.ctl.phase) s := by
  by_cases hidle : s.ctl.phase = .idle
  · rw [if_pos hidle, hostAfter, transact_of_accessReg_none (by simp [hidle]) h]
    rfl
  · rw [if_neg hidle, hostAfter_busy x hidle]

/-- Settles O6: the thread's turn fetches what its stream decodes to. -/
theorem stepRunsDecodedInstruction : Obligations.StepRunsDecodedInstruction := by
  intro s t k th b bs left rest i hlive hturn hk htodo hdec
  refine step_of_fetch_instr hlive hturn (fetch_of_takeOp hk ?_)
  simp only [htodo, takeOp, hdec]

/-- Settles O7: a bad access selects no register, so the host's access stops; a reserved word is
refused as it is fetched. -/
theorem stepOnMalformedWords : Obligations.StepOnMalformedWords := by
  intro s t k th b bs left rest hlive hturn hk htodo u
  refine ⟨fun dir off hdec => ?_, fun r hdec => ?_⟩
  · have hop : takeOp th.todo
        = some (.act (.access ⟨dir, off.toNat, 4, 0#32⟩), keepStream left rest) := by
      simp only [htodo, takeOp, hdec]
    have hnone : accessReg ⟨dir, off.toNat, 4, 0#32⟩ = none := regAt_none_of_decode hdec
    have hctl : s.ctl = t.ctl := by rw [(chooseTurn_some hturn).2]
    rw [step_of_fetch_act hlive hturn (fetch_of_takeOp hk hop), hostAct,
      hostAfter_of_accessReg_none hnone, hctl]
    rfl
  · have hop : takeOp th.todo = some (.act (.malformed r), keepStream left rest) := by
      simp only [htodo, takeOp, hdec]
    rw [step_of_fetch_act hlive hturn (fetch_of_takeOp hk hop)]
    rfl

end Sys2Proof.Proofs

/-! # Scope: register accesses

The frames on the wire (spec/40_register_access.md R144, spec/42_serial_engine.md R264), what each
bus access does in full and where it stops (R140 to R156, R217), what a field write leaves
(R158, R161), and what stays frozen while TA = 1 (R145, R150). -/

namespace Sys2Proof.Proofs

open Sys2Proof Sys2Proof.Machine Sys2Proof.Safety Sys2Proof.Claims

/-! ## Wire logs that go on -/

theorem assertedLine_append (w es : List WireEvent) :
    assertedLine (w ++ es) = es.foldl lineAfter (assertedLine w) :=
  List.foldl_append

theorem framed_append (line : Option (BitVec 2)) (w es : List WireEvent) :
    framed line (w ++ es) = (framed line w && framed (w.foldl lineAfter line) es) := by
  induction w generalizing line with
  | nil => rfl
  | cons e more ih => simp only [List.cons_append, framed, List.foldl_cons, ih, Bool.and_assoc]

/-- `w` is a sequence of frames that leaves `line` asserted (R264). -/
structure FramesUpTo (line : Option (BitVec 2)) (w : List WireEvent) : Prop where
  frames : framed none w = true
  line : assertedLine w = line

theorem FramesUpTo.append {line : Option (BitVec 2)} {w : List WireEvent} (h : FramesUpTo line w)
    (es : List WireEvent) (hes : framed line es = true) :
    FramesUpTo (es.foldl lineAfter line) (w ++ es) := by
  obtain ⟨hframes, rfl⟩ := h
  exact ⟨by rw [framed_append, hframes]; exact hes, assertedLine_append w es⟩

/-- The line an active transfer asserts (R264). -/
def activeLine (s : State) : Option (BitVec 2) := if taSet s then some (chipSelect s) else none

theorem activeLine_of_active {s : State} (h : taSet s = true) :
    activeLine s = some (chipSelect s) := if_pos h

theorem activeLine_of_inactive {s : State} (h : taSet s = false) : activeLine s = none :=
  if_neg (by simp [h])

theorem wireInv_iff (s : State) : WireInv s ↔ FramesUpTo (activeLine s) s.wire :=
  ⟨fun ⟨hframes, hline⟩ => ⟨hframes, hline⟩, fun ⟨hframes, hline⟩ => ⟨hframes, hline⟩⟩

/-! ## What the shared operations put on the wire -/

/-- A unit cut off inside a frame leaves the frame open (R260). -/
theorem framesUpTo_aborted {cs : BitVec 2} {w : List WireEvent} (h : FramesUpTo (some cs) w)
    (value : Word) : FramesUpTo (some cs) (w ++ [.aborted value]) :=
  h.append [.aborted value] rfl

/-- A unit finished in the frame of its chip select leaves the frame open (R255). -/
theorem framesUpTo_finishUnit {s : State} (h : FramesUpTo (some (chipSelect s)) s.wire)
    (u : FifoUnit) : FramesUpTo (some (chipSelect s)) (finishUnit u s).wire :=
  h.append [.unit (unitEvent s u (unitLike u (nextWord s)))] (by simp [framed, unitEvent])

theorem framesUpTo_shifterOnStop {s : State} (h : FramesUpTo (some (chipSelect s)) s.wire) :
    FramesUpTo (some (chipSelect s)) (shifterOnStop s).wire := by
  rcases shifterOnStop_cases s with ⟨_, e⟩ | ⟨u, _, e | e⟩ <;> rw [e]
  · exact h
  · exact framesUpTo_finishUnit (s := drawn s) h u
  · exact framesUpTo_aborted h _

/-- The CLEAR action cuts a unit off only inside the frame of the active transfer (R143, R260). -/
theorem clearAction_wireInv (v : Word) {s : State} (hreg : RegInv s) (h : WireInv s) :
    WireInv (clearAction v s) := by
  obtain ⟨_, hcs, _⟩ := clearAction_regs v s
  rw [wireInv_iff] at h ⊢
  have hline : activeLine (clearAction v s) = activeLine s := by
    rw [activeLine, taSet, chipSelect, hcs]
    rfl
  rw [hline]
  rcases clearAction_shifter v s with ⟨_, hwire⟩ | ⟨u, hu, _, hwire⟩ <;> rw [hwire]
  · exact h
  · have hta : taSet s = true := hreg.shifterActive (by rw [hu]; exact Option.some_ne_none u)
    rw [activeLine_of_active hta] at h ⊢
    exact framesUpTo_aborted h _

/-- A TA transition opens the frame of the new chip select, or closes the open one (R144). An open
frame must be that of the chip select now stored. -/
theorem taTransition_wireInv {before after : Bool} {s : State} {line : Option (BitVec 2)}
    (h : FramesUpTo line s.wire) (hta : taSet s = after)
    (hoff : before = false → line = none) (hon : before = true → line = some (chipSelect s)) :
    WireInv (taTransition before after s) := by
  obtain ⟨_, hcs, _⟩ := taTransition_regs before after s
  have hline : activeLine (taTransition before after s)
      = if after then some (chipSelect s) else none := by
    rw [activeLine, taSet, chipSelect, hcs, ← hta]
    rfl
  rw [wireInv_iff, hline]
  cases before with
  | false =>
    obtain rfl := hoff rfl
    cases after with
    | false => exact h
    | true => exact h.append [.select (chipSelect s)] rfl
  | true =>
    obtain rfl := hon rfl
    cases after with
    | false => exact (framesUpTo_shifterOnStop h).append [.deselect] rfl
    | true => exact h

/-! ## The wire invariant -/

theorem wireInv_of_block {s t : State} (b : SameBlock s t) (h : WireInv s) : WireInv t where
  frames := by rw [b.wire]; exact h.frames
  line := by rw [b.wire, taSet, chipSelect, b.csRw]; exact h.line

theorem recordStop_wireInv {s : State} (e : Stop) (h : WireInv s) : WireInv (recordStop e s) := by
  cases e <;> exact ⟨h.frames, h.line⟩

/-- A field of frozen bits is stored as it stood by a CS write that was no reconfiguration
(R145). -/
theorem extractLsb'_of_frozen {old new : Word} {lo n : Nat}
    (h : (old ^^^ new) &&& reconfigureMask = 0#32)
    (hin : ∀ i, i < n → reconfigureMask.getLsbD (lo + i) = true) :
    new.extractLsb' lo n = old.extractLsb' lo n := by
  apply BitVec.eq_of_getLsbD_eq
  intro i hi
  rw [BitVec.getLsbD_extractLsb', BitVec.getLsbD_extractLsb', frozen_bit h _ (hin i hi)]

/-- A CS write that stands keeps the wire a sequence of frames (R142 to R145). -/
theorem writeCs_wireInv {v : Word} {s t : State} (hreg : RegInv s) (h : WireInv s)
    (hw : writeCs v s = .ok t) : WireInv t := by
  obtain ⟨rfl, hfrozen, _⟩ := writeCs_ok hw
  have hclear := (wireInv_iff _).1 (clearAction_wireInv v hreg h)
  obtain ⟨_, hcs, _⟩ := clearAction_regs v s
  have hta : taSet (clearAction v s) = taSet s := by rw [taSet, hcs, taSet]
  refine taTransition_wireInv (s := { clearAction v s with csRw := v &&& rwMask }) hclear rfl
    (fun hoff => activeLine_of_inactive (hta.trans hoff)) fun hon => ?_
  rw [activeLine_of_active (hta.trans hon), chipSelect, hcs]
  exact congrArg some (extractLsb'_of_frozen (hfrozen hon) (by decide)).symm

theorem writeReg_wireInv {a : Agent} {r : Reg} {v : Word} {s t : State} (hreg : RegInv s)
    (h : WireInv s) (hw : writeReg a r v s = .ok t) : WireInv t := by
  cases r with
  | cs => exact writeCs_wireInv hreg h hw
  | fifo =>
    obtain ⟨_, _, rfl⟩ := writeFifo_ok hw
    exact ⟨h.frames, h.line⟩
  | clk =>
    obtain ⟨_, rfl⟩ := writeClk_ok hw
    exact ⟨h.frames, h.line⟩
  | dlen | ltoh | dc =>
    cases hw
    exact ⟨h.frames, h.line⟩

/-- The engine ends a unit inside the frame of the active transfer (R255). -/
theorem engineStep_wireInv {s : State} (hreg : RegInv s) (h : WireInv s) :
    WireInv (engineStep s) := by
  rcases engineStep_cases s with e | ⟨u, hu, e⟩ | ⟨u, left, _, _, _, e | e⟩ <;> rw [e]
  · exact h
  · have hta : taSet s = true := hreg.shifterActive (by rw [hu]; exact Option.some_ne_none u)
    rw [wireInv_iff, activeLine_of_active hta] at h
    rw [wireInv_iff, activeLine_of_active (s := finishUnit u s) hta]
    exact framesUpTo_finishUnit h u
  · exact ⟨h.frames, h.line⟩
  · exact ⟨h.frames, h.line⟩

/-- The wire invariant needs the register invariant, which says that only an active transfer has a
unit in the shifter. -/
def RegWireInv (s : State) : Prop := RegInv s ∧ WireInv s

theorem regWireInv_of_block {s t : State} (b : SameBlock s t) : RegWireInv s → RegWireInv t :=
  And.imp (regInv_of_block b) (wireInv_of_block b)

theorem regWireInv_keptByOps : KeptByOps RegWireInv where
  block _ _ := regWireInv_of_block
  stop _ e hf hr := fun ⟨hreg, hwire⟩ =>
    ⟨recordStop_regInv hf hr hreg e, recordStop_wireInv e hwire⟩
  transact _ _ _ _ _ _ _ h ht :=
    transact_keeps (fun _ _ => regWireInv_of_block)
      (fun _ _ _ hq ⟨hreg, hwire⟩ => ⟨pop_regInv hq hreg, hwire.frames, hwire.line⟩)
      (fun _ _ _ _ _ ⟨hreg, hwire⟩ hw => ⟨writeReg_regInv hreg hw, writeReg_wireInv hreg hwire hw⟩)
      h ht
  engine _ _ hr := fun ⟨hreg, hwire⟩ =>
    ⟨engineStep_regInv hr hreg, engineStep_wireInv hreg hwire⟩

/-- Settles O56: the transactions, the recorded stops and the engine's steps each keep the register
and the wire invariant together. -/
theorem wireInvKept : Obligations.WireInvKept :=
  fun _ _ hreg hwire hs => (step_keeps regWireInv_keptByOps ⟨hreg, hwire⟩ hs).2

/-! ## The host's accesses in full -/

/-- Settles O15: the value is the unit at the head of the RX FIFO, or a draw. -/
theorem rdFifoPopsOrDraws : Obligations.RdFifoPopsOrDraws := by
  intro s hacc
  have hread : exec .rdFifo s = .next (afterHostRead 0x04 (readFifo s).1 (readFifo s).2) :=
    hostBus_readOf hacc .fifo
  have popped : ∀ {u left}, s.rxq = u :: left →
      exec .rdFifo s = .next { afterHostRead 0x04 (unitValue u) s with rxq := left } := by
    intro u left hq
    rw [hread, readFifo, hq]
    rfl
  refine ⟨fun _ _ => popped, fun _ _ => popped, fun hempty => ⟨nextWord s, ?_⟩⟩
  rw [hread, readFifo, hempty]
  rfl

/-- A host write that its register's rule admits completes and is traced (R140). -/
theorem exec_writeInstr_of_ok {s t : State} {r : Reg} {v : Word} (h : HostMayAccess s)
    (hw : writeReg .host r v s = .ok t) :
    exec (writeInstr v r) s = .next (logAccess .host (writeOf r v) v t) := by
  rw [exec_writeInstr, whenLive_of_live h.fault h.refused, hostAfter_writeOf r v h.idle, hw]

/-- A host write that its register's rule stops leaves the record only (R300, R301). -/
theorem exec_writeInstr_of_error {s : State} {r : Reg} {v : Word} {e : Stop} (h : HostMayAccess s)
    (hw : writeReg .host r v s = .error e) :
    exec (writeInstr v r) s = .next (recordStop e s) := by
  rw [exec_writeInstr, whenLive_of_live h.fault h.refused, hostAfter_writeOf r v h.idle, hw]

theorem ctlBus_writeOf_of_ok {s t : State} {r : Reg} {v : Word} (k : Word → State → State)
    (hw : writeReg .ctl r v s = .ok t) :
    ctlBus (writeOf r v) k s = k v (logAccess .ctl (writeOf r v) v t) := by
  rw [ctlBus_writeOf, hw]

theorem ctlBus_writeOf_of_error {s : State} {r : Reg} {v : Word} {e : Stop}
    (k : Word → State → State) (hw : writeReg .ctl r v s = .error e) :
    ctlBus (writeOf r v) k s = recordStop e s := by
  rw [ctlBus_writeOf, hw]

/-! ## FIFO writes -/

theorem writeFifo_of_inactive (a : Agent) (v : Word) {s : State} (hta : taSet s = false) :
    writeFifo a v s = .error (.fault (.fifoWriteInactive a v)) := if_pos hta

theorem writeFifo_of_full (a : Agent) (v : Word) {s : State} (hta : taSet s = true)
    (hfull : s.txq.length = s.params.txDepth) :
    writeFifo a v s = .error (.fault (.txOverflow a v)) := by
  rw [writeFifo, if_neg (by simp [hta]), if_pos hfull]

theorem writeFifo_of_room (a : Agent) (v : Word) {s : State} (hta : taSet s = true)
    (hroom : s.txq.length ≠ s.params.txDepth) :
    writeFifo a v s = .ok { s with txq := s.txq ++ [unitOfWrite (lenLongSet s) v] } := by
  rw [writeFifo, if_neg (by simp [hta]), if_neg hroom]

/-- Settles O25: with TA = 1 and a free slot the FIFO write is admitted. -/
theorem wrFifoPushesOneUnit : Obligations.WrFifoPushesOneUnit :=
  fun _ v hacc hta hroom =>
    exec_writeInstr_of_ok hacc (r := .fifo) (writeFifo_of_room .host v hta (Nat.ne_of_lt hroom))

/-- Settles O26: TA is looked at first, then the free slot. -/
theorem wrFifoFaultsInactiveOrFull : Obligations.WrFifoFaultsInactiveOrFull :=
  fun _ v hacc =>
    ⟨fun hta => exec_writeInstr_of_error hacc (r := .fifo) (writeFifo_of_inactive .host v hta),
      fun hta hfull =>
        exec_writeInstr_of_error hacc (r := .fifo) (writeFifo_of_full .host v hta hfull)⟩

/-- A byte pushed as a word is pushed as the byte, or zero-extended with LEN_LONG = 1 (R107). -/
theorem unitOfWrite_setWidth (lenLong : Bool) (b : Byte) :
    unitOfWrite lenLong (b.setWidth 32) = if lenLong then .word (b.setWidth 32) else .byte b := by
  have hlow : (b.setWidth 32).extractLsb' 0 8 = b := (send1Operand_eq_iff.1 rfl).2
  rw [unitOfWrite, hlow]

/-- Settles O38: PUSH is a FIFO write by the controller with TA = 1, so it stands or overflows. -/
theorem pushWritesOneByte : Obligations.PushWritesOneByte := by
  intro s b hp hb hta
  have hstep : ctlStep s = ctlBus (writeOf .fifo (b.setWidth 32)) afterPush s := by
    simp only [ctlStep, hp, stepPush, hb]
  refine ⟨fun hroom => ?_, fun hfull => ?_⟩
  · rw [hstep, ctlBus_writeOf_of_ok (r := .fifo) _ (writeFifo_of_room .ctl _ hta hroom),
      unitOfWrite_setWidth]
    by_cases hlast : s.ctl.idx + 1 = s.ctl.buf.length
    · rw [if_pos hlast]
      exact if_pos hlast
    · rw [if_neg hlast]
      exact if_neg hlast
  · rw [hstep, ctlBus_writeOf_of_error (r := .fifo) _ (writeFifo_of_full .ctl _ hta hfull)]
    rfl

/-! ## Writes of CLK, DLEN, LTOH and DC -/

/-- Settles O27: the write is stopped exactly where it changes CDIV with TA = 1. -/
theorem wrClkStoresOrFaults : Obligations.WrClkStoresOrFaults := by
  refine fun s v hacc => ⟨fun hsame => ?_, fun hta hne => ?_⟩
  · exact exec_writeInstr_of_ok hacc (r := .clk) (if_neg fun ⟨hta, hne⟩ => hne (hsame hta))
  · exact exec_writeInstr_of_error hacc (r := .clk) (if_pos ⟨hta, hne⟩)

/-- Settles O28: the three writes are admitted always, and DC has no reserved bit, so it reads back
as written. -/
theorem wrDlenLtohDcOnlyStore : Obligations.WrDlenLtohDcOnlyStore := by
  refine ⟨fun s v hacc => ⟨?_, ?_, ?_⟩, fun v => ⟨rfl, rfl, rfl⟩, by decide, by decide,
    fun s hacc => ?_⟩
  · exact exec_writeInstr_of_ok hacc (r := .dlen) rfl
  · exact exec_writeInstr_of_ok hacc (r := .ltoh) rfl
  · exact exec_writeInstr_of_ok hacc (r := .dc) rfl
  · have hacc' : HostMayAccess
        (logAccess .host (writeOf .dc 0#32) 0#32 { s with dc := 0#32 }) :=
      ⟨hacc.fault, hacc.refused, hacc.idle⟩
    exact ⟨_, _, exec_writeInstr_of_ok hacc (r := .dc) rfl, hostBus_readOf hacc' .dc, rfl⟩

/-! ## CS writes: stops -/

theorem writeCs_of_reconfigures {v : Word} {s : State} (h : Reconfigures v s) :
    writeCs v s = .error (.fault (.reconfigureWhileActive .cs s.csRw v)) := if_pos h

/-- TA is an RW bit, so what is stored of it is what is written (R27). -/
theorem getLsbD_ta_and_rwMask (v : Word) : (v &&& rwMask).getLsbD 7 = v.getLsbD 7 :=
  getLsbD_and_mask v rwMask 7 (by decide)

theorem writeCs_of_leavesScope {v : Word} {s : State} (hr : ¬ Reconfigures v s)
    (h : LeavesScope v) : writeCs v s = .error (.refuse .outOfScopeMode) := by
  obtain ⟨hta, hscope⟩ := h
  exact (if_neg hr).trans (if_pos ⟨(getLsbD_ta_and_rwMask v).trans hta, hscope⟩)

theorem writeCs_of_admitted {v : Word} {s : State} (hr : ¬ Reconfigures v s)
    (hl : ¬ LeavesScope v) : writeCs v s = .ok (csWriteEffect v s) :=
  (if_neg hr).trans (if_neg fun ⟨hta, hscope⟩ =>
    hl ⟨(getLsbD_ta_and_rwMask v).symm.trans hta, hscope⟩)

/-- Settles O22: the reconfiguration check comes first, for either agent. -/
theorem reconfigureWhileActiveFaults : Obligations.ReconfigureWhileActiveFaults := by
  refine ⟨fun s v hr => ⟨fun hacc => ?_, fun k => ?_⟩, fun i => ?_⟩
  · exact exec_writeInstr_of_error hacc (r := .cs) (writeCs_of_reconfigures hr)
  · exact ctlBus_writeOf_of_error (r := .cs) k (writeCs_of_reconfigures hr)
  · by_cases hi : i < 32
    · revert i
      decide
    · rw [BitVec.getLsbD_of_ge _ _ (Nat.not_lt.1 hi)]
      simp only [Bool.false_eq_true, List.mem_cons, List.not_mem_nil, or_false, false_iff]
      omega

/-! ## CS writes that stand -/

/-- `s` with the queues emptied that the CLEAR bits of `v` name (R143). -/
def queuesCleared (v : Word) (s : State) : State :=
  { s with
    txq := if v.getLsbD 4 then [] else s.txq
    rxq := if v.getLsbD 5 then [] else s.rxq }

/-- With no unit in the shifter, or no TX clear, the CLEAR action only empties queues (R143). -/
theorem clearAction_of_no_unit {v : Word} {s : State}
    (h : s.shifter = none ∨ v.getLsbD 4 = false) : clearAction v s = queuesCleared v s := by
  rw [clearAction, queuesCleared]
  cases h4 : v.getLsbD 4 with
  | false => cases v.getLsbD 5 <;> rfl
  | true =>
    have hnone : s.shifter = none := h.resolve_right (by simp [h4])
    have hclear : shifterOnClear { s with txq := [] } = { s with txq := [] } := by
      rw [shifterOnClear, hnone]
    rw [hclear]
    cases v.getLsbD 5 <;> rfl

/-- A TX clear with a unit in the shifter keeps the unit or cuts it off, by a draw (R143, R260). -/
theorem clearAction_of_unit {v : Word} {s : State} {u : FifoUnit} (hu : s.shifter = some u)
    (h4 : v.getLsbD 4 = true) :
    clearAction v s = drawn (queuesCleared v s)
      ∨ clearAction v s = abortUnit u (drawn (queuesCleared v s)) := by
  rw [clearAction, queuesCleared, h4]
  rcases shifterOnClear_cases { s with txq := [] } with ⟨hnone, _⟩ | ⟨w, hw, e⟩
  · cases hu.symm.trans hnone
  · cases hu.symm.trans hw
    refine e.imp (fun e => ?_) fun e => ?_ <;> rw [e] <;> cases v.getLsbD 5 <;> rfl

/-- The wire events of a CS write where no unit is at stake (R144). -/
theorem taTransition_of_no_unit {before after : Bool} {s : State}
    (h : s.shifter = none ∨ (before = true → after = true)) :
    taTransition before after s = { s with wire := s.wire ++
      (if before = false ∧ after = true then [.select (chipSelect s)]
       else if before = true ∧ after = false then [.deselect] else []) } := by
  cases before <;> cases after
  · simp [taTransition]
  · rfl
  · have hnone : s.shifter = none := h.resolve_right (by simp)
    simp [taTransition, shifterOnStop, hnone]
  · simp [taTransition]

/-- The chip select is RW bits, so what is stored of it is what is written (R23). -/
theorem extractLsb'_cs_and_rwMask (v : Word) :
    (v &&& rwMask).extractLsb' 0 2 = v.extractLsb' 0 2 := by
  rw [BitVec.extractLsb'_and, show rwMask.extractLsb' 0 2 = BitVec.allOnes 2 by decide,
    BitVec.and_allOnes]

/-- Settles O19: both checks pass, and neither the CLEAR action nor the TA transition finds a unit
in the shifter. -/
theorem wrCsStoresClearsAndSwitches : Obligations.WrCsStoresClearsAndSwitches := by
  intro s v hacc hr hl hunit
  have heffect : csWriteEffect v s = { s with
      csRw := v &&& rwMask
      txq := if v.getLsbD 4 then [] else s.txq
      rxq := if v.getLsbD 5 then [] else s.rxq
      wire := s.wire ++
        (if s.csRw.getLsbD 7 = false ∧ v.getLsbD 7 = true then [.select (v.extractLsb' 0 2)]
         else if s.csRw.getLsbD 7 = true ∧ v.getLsbD 7 = false then [.deselect] else []) } := by
    have hclear := clearAction_of_no_unit (hunit.imp_right And.left)
    have hunit' : (clearAction v s).shifter = none ∨ (taSet s = true → v.getLsbD 7 = true) := by
      rw [hclear]
      exact hunit.imp_right And.right
    rw [csWriteEffect, getLsbD_ta_and_rwMask,
      taTransition_of_no_unit (s := { clearAction v s with csRw := v &&& rwMask }) hunit',
      chipSelect, extractLsb'_cs_and_rwMask, hclear]
    rfl
  have hw := writeCs_of_admitted hr hl
  rw [heffect] at hw
  exact exec_writeInstr_of_ok hacc (r := .cs) hw

/-- Settles O23: the scope check comes second, and a write with TA = 0 before and after passes
both. -/
theorem outOfScopeModeIsRefused : Obligations.OutOfScopeModeIsRefused := by
  refine fun s v hr => ⟨fun hl => ⟨fun hacc => ?_, fun k => ?_⟩, fun hacc hta hoff hclear => ?_⟩
  · exact exec_writeInstr_of_error hacc (r := .cs) (writeCs_of_leavesScope hr hl)
  · exact ctlBus_writeOf_of_error (r := .cs) k (writeCs_of_leavesScope hr hl)
  · have hbit : ∀ i < 2, v.getLsbD (4 + i) = false := fun i hi => by
      have h := BitVec.getLsbD_extractLsb' 4 2 v i
      rw [hclear, BitVec.getLsbD_zero] at h
      simpa [hi] using h.symm
    have h4 : v.getLsbD 4 = false := hbit 0 (by decide)
    have h5 : v.getLsbD 5 = false := hbit 1 (by decide)
    have hscope : ¬ LeavesScope v := fun ⟨hon, _⟩ => Bool.false_ne_true (hoff.symm.trans hon)
    have hkeep : s.csRw.getLsbD 7 = true → v.getLsbD 7 = true :=
      fun hon => absurd (hta.symm.trans hon) Bool.false_ne_true
    rw [wrCsStoresClearsAndSwitches s v hacc hr hscope (.inr ⟨h4, hkeep⟩), h4, h5, hta, hoff]
    simp

/-- Settles O21: TA stays 1, so the write does the CLEAR action only, which keeps the unit or cuts
it off. -/
theorem txClearKeepsOrDiscards : Obligations.TxClearKeepsOrDiscards := by
  intro s v u hacc hr hl hu hta hon h4
  have hsame : csWriteEffect v s = { clearAction v s with csRw := v &&& rwMask } :=
    csWriteEffect_of_same_ta ((getLsbD_ta_and_rwMask v).trans (hon.trans hta.symm))
  have hexec : exec (.wrCs v) s = .next (logAccess .host (writeOf .cs v) v
      { clearAction v s with csRw := v &&& rwMask }) :=
    exec_writeInstr_of_ok hacc (r := .cs) (hsame ▸ writeCs_of_admitted hr hl)
  rw [hexec]
  refine (clearAction_of_unit hu h4).imp (fun e => ?_) fun e => ?_ <;>
    rw [e, queuesCleared, h4] <;> rfl

/-! ## CS writes that end a transfer -/

theorem unitWidth_unitLike (u : FifoUnit) (v : Word) : unitWidth (unitLike u v) = unitWidth u := by
  cases u <;> rfl

/-- A unit finished by a CS write that was no reconfiguration goes out as configured before the
write (R145, R255). -/
theorem unitEvent_of_frozen {s t : State}
    (h : (s.csRw ^^^ t.csRw) &&& reconfigureMask = 0#32) (hdiv : t.clkCdiv = s.clkCdiv)
    (u rx : FifoUnit) : WireEvent.unit (unitEvent t u rx) = finished u rx s := by
  simp only [unitEvent, finished, chipSelect, hdiv,
    extractLsb'_of_frozen h (lo := 0) (n := 2) (by decide),
    extractLsb'_of_frozen h (lo := 21) (n := 3) (by decide), frozen_bit h 3 (by decide),
    frozen_bit h 2 (by decide), frozen_bit h 6 (by decide)]

/-- A stop with a unit in the shifter finishes it or cuts it off before the deselect (R144,
R259). -/
theorem taTransition_of_unit {s : State} {u : FifoUnit} (hu : s.shifter = some u) :
    ∃ n, (∃ rx, unitWidth rx = unitWidth u ∧ taTransition true false s = { s with
        rxq := pushIfRoom s.params.rxDepth rx s.rxq
        shifter := none
        wire := s.wire ++ [.unit (unitEvent s u rx), .deselect]
        draws := n })
      ∨ taTransition true false s = { s with
        shifter := none
        wire := s.wire ++ [.aborted (unitValue u), .deselect]
        draws := n } := by
  rcases shifterOnStop_cases s with ⟨hnone, _⟩ | ⟨w, hw, e | e⟩
  · cases hu.symm.trans hnone
  · cases hu.symm.trans hw
    refine ⟨s.draws + 2, .inl ⟨_, unitWidth_unitLike u (nextWord (drawn s)), ?_⟩⟩
    rw [taTransition, e, finishUnit, List.append_cons s.wire]
    rfl
  · cases hu.symm.trans hw
    refine ⟨s.draws + 1, .inr ?_⟩
    rw [taTransition, e, abortUnit, List.append_cons s.wire]
    rfl

/-- The CLEAR action with a unit in the shifter keeps the unit, or cuts it off at a TX clear (R143,
R260). -/
theorem clearAction_keeps_or_cuts (v : Word) {s : State} {u : FifoUnit} (hu : s.shifter = some u) :
    ∃ n, clearAction v s = { queuesCleared v s with draws := n }
      ∨ clearAction v s = abortUnit u { queuesCleared v s with draws := n } := by
  cases h4 : v.getLsbD 4 with
  | false => exact ⟨s.draws, .inl (clearAction_of_no_unit (.inr h4))⟩
  | true => exact ⟨s.draws + 1, clearAction_of_unit hu h4⟩

/-- Settles O20: with TA cleared no mode is out of scope, so the write stands. The CLEAR action
keeps the unit, which the stop then finishes or cuts off, or it has cut the unit off itself. -/
theorem clearingTaFinishesOrAborts : Obligations.ClearingTaFinishesOrAborts := by
  intro s v u hacc hr hu hta hoff
  have hw : writeCs v s = .ok (csWriteEffect v s) :=
    writeCs_of_admitted hr fun ⟨hon, _⟩ => Bool.false_ne_true (hoff.symm.trans hon)
  obtain ⟨_, hfrozen, _⟩ := writeCs_ok hw
  have heffect : csWriteEffect v s
      = taTransition true false { clearAction v s with csRw := v &&& rwMask } := by
    rw [csWriteEffect, getLsbD_ta_and_rwMask, hoff, show taSet s = true from hta]
  have hexec : exec (.wrCs v) s = .next (logAccess .host (writeOf .cs v) v
      (taTransition true false { clearAction v s with csRw := v &&& rwMask })) :=
    exec_writeInstr_of_ok hacc (r := .cs) (heffect ▸ hw)
  rw [hexec]
  obtain ⟨m, hkept | hcut⟩ := clearAction_keeps_or_cuts v hu
  · let kept : State := { queuesCleared v s with csRw := v &&& rwMask, draws := m }
    rw [hkept]
    obtain ⟨n, ⟨rx, hwidth, hfinished⟩ | haborted⟩ := taTransition_of_unit (s := kept) hu
    · have hevent := unitEvent_of_frozen (t := kept) (hfrozen hta) rfl u rx
      exact ⟨n, .inl ⟨rx, hwidth, by rw [hfinished, hevent]; rfl⟩⟩
    · exact ⟨n, .inr (by rw [haborted]; rfl)⟩
  · refine ⟨m, .inr ?_⟩
    rw [hcut, taTransition_of_no_unit (.inl rfl),
      List.append_cons s.wire (.aborted (unitValue u)) [.deselect]]
    rfl

/-! ## Why an access stops -/

/-- What stops a register write: a FIFO write with TA = 0 or into a full FIFO, a change of a frozen
field, or a mode out of scope (R145, R146, R148, R150). -/
theorem writeReg_error_cases {a : Agent} {r : Reg} {v : Word} {s : State} {e : Stop}
    (h : writeReg a r v s = .error e) :
    (r = .fifo ∧ (e = .fault (.fifoWriteInactive a v) ∨ e = .fault (.txOverflow a v)))
      ∨ (r = .cs ∧ Reconfigures v s ∧ e = .fault (.reconfigureWhileActive .cs s.csRw v))
      ∨ (r = .cs ∧ e = .refuse .outOfScopeMode)
      ∨ (r = .clk ∧ e = .fault (.reconfigureWhileActive .clk (s.clkCdiv.setWidth 32) v)) := by
  cases r with
  | cs =>
    by_cases hr : Reconfigures v s
    · cases (writeCs_of_reconfigures hr).symm.trans h
      exact .inr (.inl ⟨rfl, hr, rfl⟩)
    · by_cases hl : LeavesScope v
      · cases (writeCs_of_leavesScope hr hl).symm.trans h
        exact .inr (.inr (.inl ⟨rfl, rfl⟩))
      · cases (writeCs_of_admitted hr hl).symm.trans h
  | fifo =>
    simp only [writeReg, writeFifo] at h
    split_ifs at h <;> cases h
    · exact .inl ⟨rfl, .inl rfl⟩
    · exact .inl ⟨rfl, .inr rfl⟩
  | clk =>
    simp only [writeReg, writeClk] at h
    split_ifs at h
    cases h
    exact .inr (.inr (.inr ⟨rfl, rfl⟩))
  | dlen | ltoh | dc => cases h

/-- An admitted access stops at no register, or by its register's write (R140). -/
theorem transact_error_cases {a : Agent} {x : Access} {s : State} {e : Stop}
    (hadmit : ¬(a = .host ∧ s.ctl.phase ≠ .idle)) (h : transact a x s = .error e) :
    e = .fault (.badAccess a x.dir x.off) ∨ ∃ r, writeReg a r x.data s = .error e := by
  rw [transact, if_neg hadmit] at h
  cases hr : accessReg x with
  | none =>
    rw [hr] at h
    cases h
    exact .inl rfl
  | some r =>
    simp only [hr] at h
    cases hd : x.dir with
    | rd => simp only [perform, hd] at h; cases h
    | wr =>
      cases hw : writeReg a r x.data s with
      | error e' => simp only [perform, hd, hw] at h; cases h; exact .inr ⟨r, hw⟩
      | ok t => simp only [perform, hd, hw] at h; cases h

/-! ## The single owner -/

/-- A bus instruction is the host's access at its offset (R108). -/
theorem exec_of_busForm {i : Instr} {dir : Dir} {off : Nat} (h : busForm i = some (dir, off))
    (s : State) : ∃ x : Access, x.dir = dir ∧ x.off = off ∧ exec i s = hostBus x s := by
  cases i <;> cases h <;> exact ⟨_, rfl, rfl, rfl⟩

/-- An instruction that is no bus access is a command (R108). -/
theorem exec_of_busForm_none {i : Instr} (h : busForm i = none) (s : State) :
    ∃ c, exec i s = whenLive s (acceptCmd c s) := by
  cases i with
  | cfg | send | send1 => exact ⟨_, rfl⟩
  | rdCs | rdFifo | rdClk | rdDlen | rdLtoh | rdDc | wrCs | wrFifo | wrClk | wrDlen | wrLtoh
  | wrDc => cases h

/-- A host access at an IDLE controller never raises ConcurrentAccess (R217). -/
theorem hostAfter_fault_of_idle {x : Access} {s : State} (hidle : s.ctl.phase = .idle)
    (hf : s.fault = none) (dir : Dir) (off : Nat) (p : Phase) :
    (hostAfter x s).fault ≠ some (.concurrentAccess dir off p) := by
  rcases hostAfter_cases x s with ⟨e, he, h⟩ | ⟨v, t, ht, h⟩ <;> rw [h]
  · rcases transact_error_cases (by simp [hidle]) he with rfl | ⟨r, hw⟩
    · simp [recordStop]
    · rcases writeReg_error_cases hw with ⟨_, rfl | rfl⟩ | ⟨_, _, rfl⟩ | ⟨_, rfl⟩ | ⟨_, rfl⟩ <;>
        simp [recordStop, hf]
  · obtain ⟨r, u, _, _, hp, rfl⟩ := transact_ok ht
    rw [(giveHost_block x v _).fault, logAccess_fault, (perform_outside hp).fault, hf]
    exact nofun

/-- Settles O30: a busy controller is looked at before anything else of an access, and a command is
accepted in IDLE only. -/
theorem singleOwner : Obligations.SingleOwner := by
  intro s hlive
  have busy : s.ctl.phase ≠ .idle → ∀ x, hostBus x s = .next { s with
      fault := some (.concurrentAccess x.dir x.off s.ctl.phase) } := fun hbusy x => by
    rw [hostBus, whenLive_of_live hlive.fault hlive.refused, hostAfter_busy x hbusy]
    rfl
  refine ⟨fun hbusy => ⟨busy hbusy, fun i dir off hform => ?_, fun i hform => ?_⟩,
    fun hidle x t ht => ?_⟩
  · obtain ⟨x, rfl, rfl, hexec⟩ := exec_of_busForm hform s
    rw [hexec, busy hbusy]
  · obtain ⟨c, hexec⟩ := exec_of_busForm_none hform s
    rw [hexec, whenLive_of_live hlive.fault hlive.refused, acceptCmd, if_neg hbusy]
  · obtain ⟨_, _, rfl⟩ := whenLive_eq_next ht
    exact hostAfter_fault_of_idle hidle hlive.fault

/-! ## A send does not reconfigure -/

/-- Two words differ in no bit of a mask exactly where they agree under it. -/
theorem xor_and_mask_eq_zero_iff {a b m : Word} :
    (a ^^^ b) &&& m = 0#32 ↔ a &&& m = b &&& m := by
  have hdistrib : (a ^^^ b) &&& m = (a &&& m) ^^^ (b &&& m) := by
    apply BitVec.eq_of_getLsbD_eq
    intro i _
    simp only [BitVec.getLsbD_and, BitVec.getLsbD_xor, Bool.and_xor_distrib_right]
  rw [hdistrib, BitVec.xor_eq_zero_iff]

/-- Writing a field that holds no frozen bit over a CS value read before is no reconfiguration
(R145, R158). -/
theorem not_reconfigures_insField {v x : Word} {f : Field} {s : State}
    (hv : v &&& rwMask = s.csRw) (hf : fieldMask f &&& reconfigureMask = 0#32) :
    ¬ Reconfigures (insField v f x) s := by
  have hin : rwMask &&& reconfigureMask = reconfigureMask := by decide
  rintro ⟨_, hne⟩
  refine hne (xor_and_mask_eq_zero_iff.2 ?_)
  calc s.csRw &&& reconfigureMask
      = v &&& reconfigureMask := by rw [← hv, BitVec.and_assoc, hin]
    _ = insField v f x &&& reconfigureMask := (insField_and_of_disjoint v x hf).symm
    _ = (insField v f x &&& rwMask) &&& reconfigureMask := by rw [BitVec.and_assoc, hin]

/-- No ReconfigureWhileActive is recorded. -/
def NotReconfigured (s : State) : Prop :=
  ∀ r old new, s.fault ≠ some (.reconfigureWhileActive r old new)

theorem notReconfigured_of_no_fault {s : State} (h : s.fault = none) : NotReconfigured s :=
  fun _ _ _ => by simp [h]

theorem pollFailed_notReconfigured (v : Word) {s t : State} (h : t.fault = none) :
    NotReconfigured (pollFailed v s t) := by
  simp only [pollFailed]
  split
  · exact notReconfigured_of_no_fault h
  · split
    · exact nofun
    · exact notReconfigured_of_no_fault h

theorem afterWaitTxd_notReconfigured (s : State) (v : Word) {t : State} (h : t.fault = none) :
    NotReconfigured (afterWaitTxd s v t) := by
  unfold afterWaitTxd
  split
  · exact notReconfigured_of_no_fault h
  · exact pollFailed_notReconfigured v h

theorem afterWaitDone_notReconfigured (s : State) (v : Word) {t : State} (h : t.fault = none) :
    NotReconfigured (afterWaitDone s v t) := by
  unfold afterWaitDone
  split
  · exact notReconfigured_of_no_fault h
  · exact pollFailed_notReconfigured v h

theorem afterPush_fault (v : Word) (s : State) : (afterPush v s).fault = s.fault := by
  simp only [afterPush]
  split <;> rfl

/-- A controller read stops nothing, so what follows it decides (R200). -/
theorem ctlBus_readOf_notReconfigured {r : Reg} {k : Word → State → State} {s : State}
    (hf : s.fault = none) (hk : ∀ v t, t.fault = none → NotReconfigured (k v t)) :
    NotReconfigured (ctlBus (readOf r) k s) := by
  rw [ctlBus_readOf]
  exact hk _ _ ((readReg_outside r s).fault.trans hf)

/-- A controller write of FIFO, or of CS without a reconfiguration, raises no
ReconfigureWhileActive (R145, R148). -/
theorem ctlBus_writeOf_notReconfigured {r : Reg} {w : Word} {k : Word → State → State} {s : State}
    (hf : s.fault = none) (hr : r = .fifo ∨ (r = .cs ∧ ¬ Reconfigures w s))
    (hk : ∀ v t, (k v t).fault = t.fault) : NotReconfigured (ctlBus (writeOf r w) k s) := by
  cases hw : writeReg .ctl r w s with
  | ok t =>
    rw [ctlBus_writeOf_of_ok k hw]
    exact notReconfigured_of_no_fault ((hk _ _).trans ((writeReg_outside hw).fault.trans hf))
  | error e =>
    rw [ctlBus_writeOf_of_error k hw]
    rcases writeReg_error_cases hw with ⟨_, rfl | rfl⟩ | ⟨rfl, hre, _⟩ | ⟨_, rfl⟩ | ⟨rfl, _⟩
    · exact nofun
    · exact nofun
    · exact absurd hre (hr.resolve_left nofun).2
    · exact notReconfigured_of_no_fault hf
    · rcases hr with h | ⟨h, _⟩ <;> cases h

theorem stepPush_notReconfigured {s : State} (hf : s.fault = none) :
    NotReconfigured (stepPush s) := by
  unfold stepPush
  split
  · exact ctlBus_writeOf_notReconfigured hf (.inl rfl) afterPush_fault
  · exact notReconfigured_of_no_fault hf

/-- Where the controller writes a field back to CS, its last read is CS as stored (R205, R209,
R210). -/
theorem tmp_and_rwMask_of_phaseInv {s : State} (h : PhaseInv s)
    (hp : s.ctl.phase = .setTaWr ∨ s.ctl.phase = .clrTaWr ∨ s.ctl.phase = .clrFifoWr) :
    s.ctl.tmp &&& rwMask = s.csRw := by
  rcases hp with hp | hp | hp <;> rw [PhaseInv, hp] at h
  · obtain ⟨_, htmp, _⟩ := h
    exact htmp
  · obtain ⟨_, _, htmp, _⟩ := h
    exact htmp
  · obtain ⟨_, _, htmp, _⟩ := h
    exact htmp

/-- Settles O44: outside CFG_WR the controller reads, pushes a byte, or writes TA or CLEAR back over
CS as it stands, and neither field holds a frozen bit. -/
theorem sendNeverReconfigures : Obligations.SendNeverReconfigures := by
  intro s _ hphase hf hcfg
  change NotReconfigured (ctlStep s)
  have quiet : ∀ {p : Phase} (v : Word) (t : State), t.fault = none →
      NotReconfigured (toPhaseTmp p v t) := fun v t h => notReconfigured_of_no_fault h
  unfold ctlStep
  cases hp : s.ctl.phase with
  | idle => exact notReconfigured_of_no_fault hf
  | cfgWr k => exact absurd hp (hcfg k)
  | cfgRd | setTaRd | clrTaRd | clrFifoRd => exact ctlBus_readOf_notReconfigured hf quiet
  | waitTxd =>
    exact ctlBus_readOf_notReconfigured hf fun v _ => afterWaitTxd_notReconfigured s v
  | waitDone =>
    exact ctlBus_readOf_notReconfigured hf fun v _ => afterWaitDone_notReconfigured s v
  | push => exact stepPush_notReconfigured hf
  | setTaWr | clrTaWr | clrFifoWr =>
    have htmp := tmp_and_rwMask_of_phaseInv hphase (by simp [hp])
    exact ctlBus_writeOf_notReconfigured hf
      (.inr ⟨rfl, not_reconfigures_insField htmp (by decide)⟩) fun _ _ => rfl

/-! ## A field write leaves the other fields -/

/-- The fields of the window, in the order of their declaration. -/
def allFields : List Field :=
  [.csLenLong, .csDmaLen, .csCspol2, .csCspol1, .csCspol0, .csRxf, .csRxr, .csTxd, .csRxd, .csDone,
    .csTeEn, .csLmono, .csLen, .csRen, .csAdcs, .csIntr, .csIntd, .csDmaen, .csTa, .csCspol,
    .csClear, .csCpol, .csCpha, .csCs, .clkCdiv, .dlenLen, .ltohToh, .dcRpanic, .dcRdreq, .dcTpanic,
    .dcTdreq]

theorem mem_allFields (f : Field) : f ∈ allFields := by
  cases f <;> decide

/-- `f` and `g` share no bit, where they stand in one register. -/
def Apart (f g : Field) : Prop :=
  fieldReg f = fieldReg g → fieldMask f &&& fieldMask g = 0#32

theorem Apart.symm {f g : Field} (h : Apart f g) : Apart g f :=
  fun hreg => (BitVec.and_comm _ _).trans (h hreg.symm)

theorem allFields_pairwise_apart : allFields.Pairwise Apart := by
  unfold Apart
  decide

/-- Two fields share no bit (R22, R45 to R48). -/
theorem apart_of_ne {f g : Field} (h : f ≠ g) : Apart f g :=
  have : Std.Symm Apart := ⟨fun _ _ => Apart.symm⟩
  allFields_pairwise_apart.forall (mem_allFields f) (mem_allFields g) h

/-- `get(ins(v, F, x), G) = get(v, G)` for another field of the register (R10, R161). -/
theorem getField_insField_of_ne (v x : Word) {f g : Field} (hreg : fieldReg f = fieldReg g)
    (hne : f ≠ g) : getField (insField v f x) g = getField v g :=
  getField_congr_of_and_mask (BitVec.and_self)
    (insField_and_of_disjoint v x (apart_of_ne hne hreg))

/-- A register write that stands leaves the stored bits of the other registers (R77). -/
theorem regValue_writeReg_of_ne {a : Agent} {q r : Reg} {v : Word} {s t : State} (hne : q ≠ r)
    (h : writeReg a r v s = .ok t) :
    regValue t q &&& storedMask q = regValue s q &&& storedMask q := by
  by_cases hr : r = .cs
  · subst hr
    obtain ⟨rfl, _, _⟩ := writeCs_ok h
    obtain ⟨hregs, _, _⟩ := csWriteEffect_regs v s
    cases q with
    | cs => exact absurd rfl hne
    | fifo => rfl
    | clk => rw [regValue, hregs.clkCdiv]; rfl
    | dlen => rw [regValue, hregs.dlenLen]; rfl
    | ltoh => rw [regValue, hregs.ltohToh]; rfl
    | dc => rw [regValue, hregs.dc]; rfl
  · obtain ⟨_, _, _, _, _, _, _, rfl, _, hclk, hdlen, hltoh, hdc⟩ := wroteOnly_writeReg hr h
    cases q with
    | cs => exact (csValue_and_rwMask _).trans (csValue_and_rwMask s).symm
    | fifo => rfl
    | clk => rw [regValue, hclk hne.symm]; rfl
    | dlen => rw [regValue, hdlen hne.symm]; rfl
    | ltoh => rw [regValue, hltoh hne.symm]; rfl
    | dc => rw [regValue, hdc hne.symm]; rfl

/-- A word read earlier holds the stored bits as they are now (R158, R355). -/
theorem and_storedMask_of_readEarlier {r : Reg} {v : Word} {s : State} (h : ReadEarlier r v s) :
    v &&& storedMask r = regValue s r &&& storedMask r := by
  have masked : ∀ {x m : Word}, v &&& m = x → v &&& m = x &&& m := by
    rintro _ m rfl
    rw [BitVec.and_assoc, BitVec.and_self]
  cases r with
  | cs =>
    obtain ⟨hstored, _⟩ := h
    exact (masked hstored).trans (csValue_and_rwMask s).symm
  | fifo => simp [storedMask]
  | clk | dlen | ltoh | dc => exact masked h

/-- Settles O51: a field of the register written is kept by the insertion into the word read, and a
field of another register by the write. -/
theorem fieldWritePreservesOtherFields : Obligations.FieldWritePreservesOtherFields := by
  intro s f g x v k _ hacc hrw hne hread t hfault hrefused
  have hin := storedMask_and_fieldMask hrw
  obtain ⟨u, hu, ht⟩ := hostAfter_writeOf_of_live hacc.idle ((live_iff t).2 ⟨hfault, hrefused⟩)
  rw [show t = _ from ht, regValue_logAccess]
  by_cases hreg : fieldReg f = fieldReg g
  · rw [hreg] at hu hread
    calc getField (regValue u (fieldReg g)) g
        = getField (insField v f x) g := getField_congr_of_and_mask hin (regValue_writeReg hu)
      _ = getField v g := getField_insField_of_ne v x hreg hne.symm
      _ = getField (regValue s (fieldReg g)) g :=
          getField_congr_of_and_mask hin (and_storedMask_of_readEarlier hread)
  · exact getField_congr_of_and_mask hin (regValue_writeReg_of_ne (Ne.symm hreg) hu)

/-! ## One operation a step -/

/-- From `s` to `t` at most one operation acts on the block: a recorded stop, a transaction or an
engine step (R75, R200). -/
inductive OneOperation (s t : State) : Prop
  | none (h : SameBlock s t)
  | stop (e : Stop) (h : SameBlock (recordStop e s) t)
  | transaction (a : Agent) (x : Access) (v : Word) (u : State) (ht : transact a x s = .ok (v, u))
      (h : SameBlock u t)
  | engine (h : SameBlock (engineStep s) t)

theorem sameBlock_refl (s : State) : SameBlock s s := by
  constructor <;> rfl

theorem hostThen_oneOperation (x : Access) {k : Word → State → State} (s : State)
    (hk : ∀ v t, SameBlock t (k v t)) : OneOperation s (hostThen x k s) := by
  rcases hostThen_cases x k s with ⟨e, _, h⟩ | ⟨v, t, ht, h⟩ <;> rw [h]
  · exact .stop e (sameBlock_refl _)
  · exact .transaction _ x v t ht ((giveHost_block x v t).trans (hk v _))

theorem hostAfter_oneOperation (x : Access) (s : State) : OneOperation s (hostAfter x s) :=
  hostThen_oneOperation x s (k := fun _ t => t) fun _ => sameBlock_refl

/-- What follows a controller transaction does not act on the block, or records a stop in the state
before it (R215, R300). -/
theorem ctlBus_oneOperation (x : Access) {k : Word → State → State} {s : State}
    (hk : ∀ v t, SameBlock t (k v t) ∨ ∃ e, k v t = recordStop e s) :
    OneOperation s (ctlBus x k s) := by
  rcases ctlBus_cases x k s with ⟨e, _, h⟩ | ⟨v, t, ht, h⟩ <;> rw [h]
  · exact .stop e (sameBlock_refl _)
  · rcases hk v t with hkeep | ⟨e, hback⟩
    · exact .transaction _ x v t ht hkeep
    · rw [hback]
      exact .stop e (sameBlock_refl _)

theorem afterWaitTxd_block (s : State) (v : Word) (t : State) :
    SameBlock t (afterWaitTxd s v t) ∨ ∃ e, afterWaitTxd s v t = recordStop e s := by
  unfold afterWaitTxd
  split
  · exact .inl (by constructor <;> rfl)
  · exact pollFailed_block v s t

theorem afterWaitDone_block (s : State) (v : Word) (t : State) :
    SameBlock t (afterWaitDone s v t) ∨ ∃ e, afterWaitDone s v t = recordStop e s := by
  unfold afterWaitDone
  split
  · exact .inl (by constructor <;> rfl)
  · exact pollFailed_block v s t

theorem afterPush_block (v : Word) (s : State) : SameBlock s (afterPush v s) := by
  simp only [afterPush]
  split <;> constructor <;> rfl

theorem afterCfgWr_block (k : Fin 5) (v : Word) (s : State) : SameBlock s (afterCfgWr k v s) := by
  unfold afterCfgWr
  split <;> constructor <;> rfl

theorem stepCfgWr_oneOperation (k : Fin 5) (s : State) : OneOperation s (stepCfgWr k s) := by
  unfold stepCfgWr
  split
  · exact ctlBus_oneOperation _ fun v t => .inl (afterCfgWr_block k v t)
  all_goals exact .none (sameBlock_refl s)

theorem stepPush_oneOperation (s : State) : OneOperation s (stepPush s) := by
  unfold stepPush
  split
  · exact ctlBus_oneOperation _ fun v t => .inl (afterPush_block v t)
  · exact .none (by constructor <;> rfl)

/-- A controller step makes at most one transaction and does nothing more to the block (R200). -/
theorem ctlStep_oneOperation (s : State) : OneOperation s (ctlStep s) := by
  have plain : ∀ {x : Access} {k : Word → State → State}, (∀ v t, SameBlock t (k v t)) →
      OneOperation s (ctlBus x k s) := fun hk => ctlBus_oneOperation _ fun v t => .inl (hk v t)
  unfold ctlStep
  cases s.ctl.phase with
  | idle => exact .none (sameBlock_refl s)
  | cfgWr k => exact stepCfgWr_oneOperation k s
  | waitTxd => exact ctlBus_oneOperation _ (afterWaitTxd_block s)
  | push => exact stepPush_oneOperation s
  | waitDone => exact ctlBus_oneOperation _ (afterWaitDone_block s)
  | cfgRd | setTaRd | setTaWr | clrTaRd | clrTaWr | clrFifoRd | clrFifoWr =>
    exact plain fun _ _ => by constructor <;> rfl

theorem pollTestStep_oneOperation (k : Nat) (f : PollFlag) (n : Nat) (v : Word) (s : State) :
    OneOperation s (pollTestStep k f n v s) := by
  have again : SameBlock s (putBack k (.pollf f (n + 1)) s) := by constructor <;> rfl
  unfold pollTestStep
  split
  · exact .none (sameBlock_refl s)
  · split
    · exact .none again
    · split
      · exact .stop (.fault _) (sameBlock_refl _)
      · exact .none again

theorem hostAct_oneOperation (k : Nat) (a : HostAct) (s : State) :
    OneOperation s (hostAct k a s) := by
  cases a with
  | access x => exact hostAfter_oneOperation x s
  | malformed r => exact .stop (.refuse _) (sameBlock_refl _)
  | getf f => exact hostThen_oneOperation _ s fun _ _ => by constructor <;> rfl
  | setf f x => exact hostThen_oneOperation _ s fun _ _ => by constructor <;> rfl
  | setfWrite f x v => exact hostAfter_oneOperation _ s
  | pollf f n => exact hostThen_oneOperation _ s fun _ _ => by constructor <;> rfl
  | pollTest f n v => exact pollTestStep_oneOperation k f n v s

theorem exec_oneOperation {i : Instr} {s t : State} (h : exec i s = .next t) :
    OneOperation s t := by
  rcases exec_cases i s with ⟨r, e⟩ | ⟨r, v, e⟩ | ⟨c, e⟩ <;> rw [e] at h <;>
    obtain ⟨_, _, rfl⟩ := whenLive_eq_next h
  · exact hostAfter_oneOperation _ s
  · exact hostAfter_oneOperation _ s
  · refine .none ?_
    unfold acceptCmd
    split <;> constructor <;> rfl

/-- A step chooses and fetches, which does not act on the block, and then does at most one
operation. -/
theorem step_oneOperation {s t : State} (h : step s = .next t) :
    ∃ u, SameBlock s u ∧ OneOperation u t := by
  have chosen : ∀ {τ u}, chooseTurn s = some (τ, u) → SameBlock s u :=
    fun hu => (chooseTurn_some hu).2.block
  have fetched : ∀ {k u op w}, fetch k u = some (op, w) → SameBlock u w := fun hw => by
    rw [fetch_some hw]
    constructor <;> rfl
  obtain ⟨_, _, hcases⟩ := step_cases h
  rcases hcases with ⟨_, _, rfl⟩ | ⟨u, hu, rfl⟩ | ⟨u, hu, rfl⟩ | ⟨k, u, i, w, hu, hw, he⟩
    | ⟨k, u, a, w, hu, hw, rfl⟩
  · exact ⟨_, sameBlock_refl _, .none (sameBlock_refl _)⟩
  · exact ⟨u, chosen hu, ctlStep_oneOperation u⟩
  · exact ⟨u, chosen hu, .engine (sameBlock_refl _)⟩
  · exact ⟨w, (chosen hu).trans (fetched hw), exec_oneOperation he⟩
  · exact ⟨w, (chosen hu).trans (fetched hw), hostAct_oneOperation k a w⟩

/-! ## Frozen fields -/

/-- `t` has the frozen fields of `s`: those of CS and CDIV (R145, R150). -/
structure SameFrozen (s t : State) : Prop where
  cs : t.csRw &&& reconfigureMask = s.csRw &&& reconfigureMask
  clkCdiv : t.clkCdiv = s.clkCdiv

theorem sameFrozen_of_regs {s t : State} (hcs : t.csRw = s.csRw) (hclk : t.clkCdiv = s.clkCdiv) :
    SameFrozen s t := ⟨by rw [hcs], hclk⟩

/-- A register write that stands with TA = 1 changes no frozen field (R145, R150). -/
theorem writeReg_sameFrozen {a : Agent} {r : Reg} {v : Word} {s t : State} (hta : taSet s = true)
    (h : writeReg a r v s = .ok t) : SameFrozen s t := by
  cases r with
  | cs =>
    obtain ⟨rfl, hfrozen, _⟩ := writeCs_ok h
    obtain ⟨hregs, hcs, _⟩ := csWriteEffect_regs v s
    exact ⟨by rw [hcs]; exact (xor_and_mask_eq_zero_iff.1 (hfrozen hta)).symm, hregs.clkCdiv⟩
  | fifo =>
    obtain ⟨_, _, rfl⟩ := writeFifo_ok h
    exact sameFrozen_of_regs rfl rfl
  | clk =>
    obtain ⟨hsame, rfl⟩ := writeClk_ok h
    exact sameFrozen_of_regs rfl (hsame hta)
  | dlen | ltoh | dc =>
    cases h
    exact sameFrozen_of_regs rfl rfl

theorem transact_sameFrozen {a : Agent} {x : Access} {s t : State} {v : Word}
    (hta : taSet s = true) (h : transact a x s = .ok (v, t)) : SameFrozen s t := by
  obtain ⟨r, u, _, _, hp, rfl⟩ := transact_ok h
  rcases perform_ok hp with ⟨_, hread⟩ | ⟨_, _, hwrite⟩
  · obtain rfl : u = (readReg r s).2 := congrArg Prod.snd hread
    rcases readReg_state r s with e | e | ⟨_, w, left, _, e⟩ <;> rw [e] <;>
      exact sameFrozen_of_regs rfl rfl
  · obtain ⟨hcs, hclk⟩ := writeReg_sameFrozen hta hwrite
    exact ⟨hcs, hclk⟩

theorem engineStep_sameFrozen (s : State) : SameFrozen s (engineStep s) := by
  rcases engineStep_cases s with e | ⟨u, _, e⟩ | ⟨u, left, _, _, _, e | e⟩ <;> rw [e] <;>
    exact sameFrozen_of_regs rfl rfl

/-- One operation on the block with TA = 1 changes no frozen field. -/
theorem OneOperation.sameFrozen {s t : State} (hta : taSet s = true) (h : OneOperation s t) :
    SameFrozen s t := by
  have moved : ∀ {u}, SameBlock u t → SameFrozen s u → SameFrozen s t :=
    fun b ⟨hcs, hclk⟩ => ⟨by rw [b.csRw, hcs], b.clkCdiv.trans hclk⟩
  cases h with
  | none b => exact sameFrozen_of_regs b.csRw b.clkCdiv
  | stop e b => exact moved b (by cases e <;> exact sameFrozen_of_regs rfl rfl)
  | transaction a x v u ht b => exact moved b (transact_sameFrozen hta ht)
  | engine b => exact moved b (engineStep_sameFrozen s)

/-- Settles O58: a step does one operation on the block, and with TA = 1 before it none changes a
frozen field, whether TA stays 1 or not. -/
theorem activeTransferIsNotReconfigured : Obligations.ActiveTransferIsNotReconfigured := by
  intro s t hs hta _
  obtain ⟨u, b, hop⟩ := step_oneOperation hs
  obtain ⟨hcs, hclk⟩ := hop.sameFrozen (by rw [taSet, b.csRw]; exact hta)
  rw [b.csRw] at hcs
  exact ⟨hcs, hclk.trans b.clkCdiv⟩

end Sys2Proof.Proofs

/-! # Scope: the handshake controller

The commands (spec/41_handshake_controller.md R201, R212), what a step of the controller can do
(R200 to R218) and what each phase keeps (R355), the entry of PUSH and of the clearing of TA (R351,
R353), the spin limit (R215), a send that fits (R216, R352), and the empty send (R213). -/

namespace Sys2Proof.Proofs

open Sys2Proof Sys2Proof.Machine Sys2Proof.Safety Sys2Proof.Claims

/-! ## The controller's step -/

/-- The phases that read CS before writing a field of it, each with the phase of that write (R205,
R209, R210). -/
def fieldReads : List (Phase × Phase) :=
  [(.setTaRd, .setTaWr), (.clrTaRd, .clrTaWr), (.clrFifoRd, .clrFifoWr)]

theorem mem_fieldReads {p q : Phase} (h : (p, q) ∈ fieldReads) :
    (p = .setTaRd ∧ q = .setTaWr) ∨ (p = .clrTaRd ∧ q = .clrTaWr)
      ∨ (p = .clrFifoRd ∧ q = .clrFifoWr) := by
  simpa [fieldReads] using h

/-- `s` after a read by the controller, whose state is then `c`: the trace is `tr` and `n` draws
have been taken (R76, R200). -/
def afterCtlRead (c : Ctl) (tr : List TraceEntry) (n : Nat) (s : State) : State :=
  { s with ctl := c, trace := tr, draws := n }

/-- What a step of the controller can do: the moves of the phase table (R218), each from its phase,
with what was found or written there; a stop, which is TxOverflow only for a PUSH into a full FIFO;
or nothing. -/
inductive CtlMove (s : State) : State → Prop
  | stay : CtlMove s s
  | stop {e : Stop}
      (hfull : ∀ a v, e = .fault (.txOverflow a v) →
        s.ctl.phase = .push ∧ s.txq.length = s.params.txDepth) :
      CtlMove s (recordStop e s)
  | cfgRead {k : Fin 5} {v : Word} {tr : List TraceEntry} {n : Nat}
      (hp : s.ctl.phase = .cfgRd k)
      (hv : if k = 4 then v.extractLsb' 0 16 = s.clkCdiv else ReadEarlier .cs v s) :
      CtlMove s (afterCtlRead { s.ctl with phase := .cfgWr k, tmp := v } tr n s)
  | cfgWrite {k : Fin 5} {v : Word} {u : State} (hp : s.ctl.phase = .cfgWr k)
      (hctl : u.ctl = s.ctl) (hfault : u.fault = s.fault) : CtlMove s (afterCfgWr k v u)
  | fieldRead {p q : Phase} {v : Word} {tr : List TraceEntry} {n : Nat}
      (hp : s.ctl.phase = p) (hpq : (p, q) ∈ fieldReads) (hv : ReadEarlier .cs v s) :
      CtlMove s (afterCtlRead { s.ctl with phase := q, tmp := v } tr n s)
  | pollFails {v : Word} {tr : List TraceEntry} {n : Nat}
      (hp : s.ctl.phase = .waitTxd ∨ s.ctl.phase = .waitDone) :
      CtlMove s (afterCtlRead { s.ctl with tmp := v, spins := s.ctl.spins + 1 } tr n s)
  | txdFound {v : Word} {tr : List TraceEntry} {n : Nat} (hp : s.ctl.phase = .waitTxd)
      (hroom : s.txq.length < s.params.txDepth) :
      CtlMove s
        (afterCtlRead { s.ctl with tmp := v, spins := 0, phase := pushOrDrain s.ctl.buf } tr n s)
  | doneFound {v : Word} {tr : List TraceEntry} {n : Nat} (hp : s.ctl.phase = .waitDone)
      (hta : taSet s = true) (hdrained : Drained s) :
      CtlMove s (afterCtlRead { s.ctl with phase := .clrTaRd, tmp := v } tr n s)
  | setTa {w : Word} (hp : s.ctl.phase = .setTaWr) (hw : w.getLsbD 7 = true) :
      CtlMove s (afterSetTa w (logAccess .ctl (writeOf .cs w) w (csWriteEffect w s)))
  | push {v : Word} {unit : FifoUnit} {tr : List TraceEntry} (hp : s.ctl.phase = .push) :
      CtlMove s (afterPush v { s with txq := s.txq ++ [unit], trace := tr })
  | noByte (hp : s.ctl.phase = .push) (hidx : s.ctl.buf.length ≤ s.ctl.idx) :
      CtlMove s (toPhase .waitDone s)
  | clearTa {w : Word} (hp : s.ctl.phase = .clrTaWr) (hw : w.getLsbD 7 = false) :
      CtlMove s
        (toPhase .clrFifoRd (logAccess .ctl (writeOf .cs w) w (csWriteEffect w s)))
  | finish {u : State} (hp : s.ctl.phase = .clrFifoWr) (hfault : u.fault = s.fault) :
      CtlMove s (complete u)

/-- The controller's read of CS: it goes on with a value that holds CS as it is stored, and shows
TXD and DONE as they are (R141, R200). -/
theorem ctlBus_readOf_cs_earlier {s : State} (h : RegInv s) :
    ∃ v n, ReadEarlier .cs v s
      ∧ (getField v .csTxd = 1#32 ↔ s.txq.length < s.params.txDepth)
      ∧ (getField v .csDone = 1#32 ↔ taSet s = true ∧ Drained s)
      ∧ ∀ k, ctlBus (readOf .cs) k s
          = k v (afterCtlRead s.ctl (traced .ctl .rd 0x00 v s) n s) := by
  obtain ⟨v, n, hread, hstored, hclear, _, _, _, htxd, hdone⟩ := readReg_cs s h.csStored
  refine ⟨v, n, ⟨hstored, hclear⟩, ?_, ?_, fun k => by rw [ctlBus_readOf, hread]; rfl⟩
  · rw [htxd, txd]
    by_cases hroom : s.txq.length < s.params.txDepth <;> simp [hroom]
  · have hflag : doneFlag s = true ↔ taSet s = true ∧ Drained s := doneFlag_iff s
    rw [hdone, ← hflag]
    cases doneFlag s <;> decide

/-- TA holds the low bit of what is inserted into it (R10, R27). -/
theorem getLsbD_insField_ta (v x : Word) : (insField v .csTa x).getLsbD 7 = x.getLsbD 0 :=
  (getLsbD_insField v x .csTa (by decide)).trans (if_pos (by decide))

/-- What CLK reads in its low half is CDIV (R45, R149). -/
theorem extractLsb'_readReg_clk (s : State) : (readReg .clk s).1.extractLsb' 0 16 = s.clkCdiv := by
  have hdiv : (s.clkCdiv.setWidth 32 : Word).extractLsb' 0 16 = s.clkCdiv := by
    rw [show s.clkCdiv.setWidth 32 = (0#16 ++ s.clkCdiv : Word) from
      BitVec.setWidth_eq_append (by decide)]
    exact BitVec.extractLsb'_append_eq_right
  rcases readPlain_cases .clk s with h | ⟨w, h⟩
  · rw [show readReg .clk s = _ from h]
    exact hdiv
  · rw [show readReg .clk s = _ from h]
    have hreserved : (w &&& reservedMask .clk).extractLsb' 0 16 = 0#16 := by
      rw [BitVec.extractLsb'_and, show (reservedMask .clk).extractLsb' 0 16 = 0#16 by decide,
        BitVec.and_zero]
    rw [BitVec.extractLsb'_or, hreserved, BitVec.or_zero]
    exact hdiv

/-- A failed poll is counted, or reaches the limit and stops (R206, R208, R215). -/
theorem pollFailed_move {s : State} (hp : s.ctl.phase = .waitTxd ∨ s.ctl.phase = .waitDone)
    (v : Word) (tr : List TraceEntry) (n : Nat) :
    CtlMove s (pollFailed v s (afterCtlRead s.ctl tr n s)) := by
  simp only [pollFailed]
  split
  · exact .pollFails hp
  · split
    · exact .stop (e := .fault _) nofun
    · exact .pollFails hp

/-- A write by the controller of a register other than FIFO stops, not by TxOverflow, or stands
(R145, R146, R150). -/
theorem ctlBus_writeOf_move {s : State} {r : Reg} {w : Word} {k : Word → State → State}
    (hr : r ≠ .fifo)
    (hk : ∀ t, writeReg .ctl r w s = .ok t → CtlMove s (k w (logAccess .ctl (writeOf r w) w t))) :
    CtlMove s (ctlBus (writeOf r w) k s) := by
  cases hw : writeReg .ctl r w s with
  | ok t =>
    rw [ctlBus_writeOf_of_ok k hw]
    exact hk t hw
  | error e =>
    rw [ctlBus_writeOf_of_error k hw]
    rcases writeReg_error_cases hw with ⟨h, _⟩ | ⟨_, _, rfl⟩ | ⟨_, rfl⟩ | ⟨_, rfl⟩
    · exact absurd h hr
    all_goals exact .stop nofun

/-- A CS write by the controller stops, not by TxOverflow, or has its effect (R142). -/
theorem ctlBus_writeOf_cs_move {s : State} {w : Word} {k : Word → State → State}
    (hk : CtlMove s (k w (logAccess .ctl (writeOf .cs w) w (csWriteEffect w s)))) :
    CtlMove s (ctlBus (writeOf .cs w) k s) :=
  ctlBus_writeOf_move nofun fun t ht => by
    obtain ⟨rfl, _, _⟩ := writeCs_ok ht
    exact hk

theorem fieldReg_cfgField_of_ne_four {k : Fin 5} (h : k ≠ 4) : fieldReg (cfgField k) = .cs := by
  revert k
  decide

theorem fieldReg_cfgField_ne_fifo (k : Fin 5) : fieldReg (cfgField k) ≠ .fifo := by
  revert k
  decide

theorem stepCfgRd_move {s : State} {k : Fin 5} (h : RegInv s) (hp : s.ctl.phase = .cfgRd k) :
    CtlMove s (stepCfgRd k s) := by
  by_cases hk : k = 4
  · subst hk
    obtain ⟨v, n, hread⟩ := readReg_of_ne_fifo (r := .clk) (by decide) s
    have hv : v.extractLsb' 0 16 = s.clkCdiv := by
      rw [← extractLsb'_readReg_clk s, hread]
    have hstep : stepCfgRd 4 s = toPhaseTmp (.cfgWr 4) v
        (logAccess .ctl (readOf .clk) v { s with draws := n }) := by
      rw [stepCfgRd]
      change ctlBus (readOf .clk) _ s = _
      rw [ctlBus_readOf, hread]
    rw [hstep]
    exact .cfgRead hp hv
  · obtain ⟨v, n, hv, _, _, hbus⟩ := ctlBus_readOf_cs_earlier h
    rw [stepCfgRd, fieldReg_cfgField_of_ne_four hk, hbus]
    exact .cfgRead hp (by rw [if_neg hk]; exact hv)

theorem stepCfgWr_move {s : State} {k : Fin 5} (hp : s.ctl.phase = .cfgWr k) :
    CtlMove s (stepCfgWr k s) := by
  unfold stepCfgWr
  split
  · refine ctlBus_writeOf_move (fieldReg_cfgField_ne_fifo k) fun t ht => ?_
    have hout := writeReg_outside ht
    exact .cfgWrite hp hout.ctl hout.fault
  all_goals exact .stay

theorem stepPush_move {s : State} (hp : s.ctl.phase = .push) : CtlMove s (stepPush s) := by
  unfold stepPush
  split
  · next b _ =>
    by_cases hta : taSet s = false
    · rw [ctlBus_writeOf_of_error (r := .fifo) _ (writeFifo_of_inactive .ctl _ hta)]
      exact .stop nofun
    · rw [Bool.not_eq_false] at hta
      by_cases hfull : s.txq.length = s.params.txDepth
      · rw [ctlBus_writeOf_of_error (r := .fifo) _ (writeFifo_of_full .ctl _ hta hfull)]
        exact .stop fun _ _ _ => ⟨hp, hfull⟩
      · rw [ctlBus_writeOf_of_ok (r := .fifo) _ (writeFifo_of_room .ctl _ hta hfull)]
        exact .push hp
  · next hnone => exact .noByte hp (List.getElem?_eq_none_iff.1 hnone)

/-- Every step of the controller is one of the moves (R200, R218). -/
theorem ctlStep_move {s : State} (h : RegInv s) : CtlMove s (ctlStep s) := by
  obtain ⟨v, n, hv, htxd, hdone, hbus⟩ := ctlBus_readOf_cs_earlier h
  unfold ctlStep
  cases hp : s.ctl.phase with
  | idle => exact .stay
  | cfgRd k => exact stepCfgRd_move h hp
  | cfgWr k => exact stepCfgWr_move hp
  | push => exact stepPush_move hp
  | setTaRd | clrTaRd | clrFifoRd =>
    simp only [hbus]
    exact .fieldRead hp (by decide) hv
  | waitTxd =>
    simp only [hbus, afterWaitTxd]
    split
    · next hset => exact .txdFound hp (htxd.1 hset)
    · exact pollFailed_move (.inl hp) v _ n
  | waitDone =>
    simp only [hbus, afterWaitDone]
    split
    · next hset =>
      obtain ⟨hta, hdrained⟩ := hdone.1 hset
      exact .doneFound hp hta hdrained
    · exact pollFailed_move (.inr hp) v _ n
  | setTaWr => exact ctlBus_writeOf_cs_move (.setTa hp (getLsbD_insField_ta _ 1#32))
  | clrTaWr => exact ctlBus_writeOf_cs_move (.clearTa hp (getLsbD_insField_ta _ 0#32))
  | clrFifoWr =>
    exact ctlBus_writeOf_cs_move (.finish hp (csWriteEffect_outside _ s).fault)

/-! ## Any step -/

/-- `t` has the controller of `s` and what a transfer works on: CS, CDIV, the TX FIFO, the shifter
and the parameters. -/
structure SameTransfer (s t : State) : Prop where
  ctl : t.ctl = s.ctl
  csRw : t.csRw = s.csRw
  clkCdiv : t.clkCdiv = s.clkCdiv
  txq : t.txq = s.txq
  shifter : t.shifter = s.shifter
  params : t.params = s.params

theorem sameTransfer_of_block {s t : State} (b : SameBlock s t) (hctl : t.ctl = s.ctl) :
    SameTransfer s t :=
  ⟨hctl, b.csRw, b.clkCdiv, b.txq, b.shifter, b.params⟩

theorem recordStop_sameTransfer (e : Stop) (s : State) : SameTransfer s (recordStop e s) := by
  cases e <;> constructor <;> rfl

/-- No TxOverflow is recorded. -/
def NotOverflowed (s : State) : Prop := ∀ a v, s.fault ≠ some (.txOverflow a v)

theorem notOverflowed_of_no_fault {s : State} (h : s.fault = none) : NotOverflowed s :=
  fun _ _ => by simp [h]

/-- The controller has just taken a command: it holds a `cfg`, or has written no byte of a send
(R202, R204, R212). -/
def StartsCommand (c : Ctl) : Prop :=
  (c.phase = .cfgRd 0 ∧ ∃ wordMode cs cpha cpol div,
      c.cmd = some (.cfg wordMode cs cpha cpol div))
    ∨ (c.phase = .setTaRd ∧ c.idx = 0)

/-- What a step can do once its agent is chosen and its operation fetched: leave the transfer as it
is, one of the controller's moves, an engine step, the issue of a command, or, at an IDLE
controller, an access of the host. -/
inductive StepMove (s : State) : State → Prop
  | keep {t : State} (h : SameTransfer s t) (hno : NotOverflowed t) : StepMove s t
  | controller {t : State} (h : CtlMove s t) : StepMove s t
  | engine : StepMove s (engineStep s)
  | issue {c : Ctl} (hidle : s.ctl.phase = .idle) (hc : StartsCommand c) :
      StepMove s { s with ctl := c }
  | hostAccess {t : State} (hidle : s.ctl.phase = .idle) (hctl : t.ctl = s.ctl) : StepMove s t

theorem hostThen_busy (x : Access) (k : Word → State → State) {s : State}
    (h : s.ctl.phase ≠ .idle) :
    hostThen x k s = raise (.concurrentAccess x.dir x.off s.ctl.phase) s := by
  simp [hostThen, transact, h, recordStop]

/-- A fault other than TxOverflow leaves the transfer as it is (R300). -/
theorem stepMove_raise {k : FaultKind} (s : State) (hk : ∀ a v, k ≠ .txOverflow a v) :
    StepMove s (raise k s) :=
  .keep (recordStop_sameTransfer (.fault k) s) fun a v h => hk a v (Option.some.inj h)

theorem pollTestStep_move {s : State} (hf : s.fault = none) (k : Nat) (f : PollFlag) (n : Nat)
    (v : Word) : StepMove s (pollTestStep k f n v s) := by
  have again : StepMove s (putBack k (.pollf f (n + 1)) s) :=
    .keep (by constructor <;> rfl) (notOverflowed_of_no_fault hf)
  unfold pollTestStep
  split
  · exact .keep (by constructor <;> rfl) (notOverflowed_of_no_fault hf)
  · split
    · exact again
    · split
      · exact stepMove_raise s nofun
      · exact again

/-- A host access or, at a busy controller, ConcurrentAccess (R217). -/
theorem hostAfter_move (x : Access) (s : State) : StepMove s (hostAfter x s) := by
  by_cases hidle : s.ctl.phase = .idle
  · exact .hostAccess hidle (hostAfter_sameCtl x s).ctl
  · rw [hostAfter_busy x hidle]
    exact stepMove_raise s nofun

theorem hostThen_move (x : Access) {k : Word → State → State} (s : State)
    (hk : ∀ v t, SameCtl t (k v t)) : StepMove s (hostThen x k s) := by
  by_cases hidle : s.ctl.phase = .idle
  · exact .hostAccess hidle (hostThen_sameCtl x s hk).ctl
  · rw [hostThen_busy x k hidle]
    exact stepMove_raise s nofun

theorem hostAct_move {s : State} (hf : s.fault = none) (k : Nat) (a : HostAct) :
    StepMove s (hostAct k a s) := by
  cases a with
  | access x => exact hostAfter_move x s
  | malformed r =>
    exact .keep (recordStop_sameTransfer (.refuse _) s) (notOverflowed_of_no_fault hf)
  | getf f => exact hostThen_move _ s fun _ _ => ⟨rfl, rfl⟩
  | setf f x => exact hostThen_move _ s fun _ _ => ⟨rfl, rfl⟩
  | setfWrite f x v => exact hostAfter_move _ s
  | pollf f n => exact hostThen_move _ s fun _ _ => ⟨rfl, rfl⟩
  | pollTest f n v => exact pollTestStep_move hf k f n v

/-- A command is issued at an IDLE controller and else not taken (R201, R202, R204, R212). -/
theorem acceptCmd_move {s : State} {c : Ctl} (hf : s.fault = none) (hc : StartsCommand c) :
    StepMove s (acceptCmd c s) := by
  unfold acceptCmd
  split
  · next hidle => exact .issue hidle hc
  · exact .keep (by constructor <;> rfl) (notOverflowed_of_no_fault hf)

theorem exec_move {i : Instr} {s t : State} (h : exec i s = .next t) : StepMove s t := by
  cases i with
  | cfg =>
    obtain ⟨hf, _, rfl⟩ := whenLive_eq_next h
    exact acceptCmd_move hf (.inl ⟨rfl, _, _, _, _, _, rfl⟩)
  | send | send1 =>
    obtain ⟨hf, _, rfl⟩ := whenLive_eq_next h
    exact acceptCmd_move hf (.inr ⟨rfl, rfl⟩)
  | rdCs | rdFifo | rdClk | rdDlen | rdLtoh | rdDc | wrCs | wrFifo | wrClk | wrDlen | wrLtoh
  | wrDc =>
    obtain ⟨_, _, rfl⟩ := whenLive_eq_next h
    exact hostAfter_move _ s

/-- A step chooses an agent and fetches its operation, which leaves the transfer as it is, and then
makes one move. -/
theorem step_move {s t : State} (hreg : RegInv s) (h : step s = .next t) :
    ∃ u, SameTransfer s u ∧ u.fault = none ∧ StepMove u t := by
  obtain ⟨hf, _, hcases⟩ := step_cases h
  have chosen : ∀ {τ u}, chooseTurn s = some (τ, u) → SameBlock s u ∧ u.ctl = s.ctl := fun hu =>
    have hmoved := (chooseTurn_some hu).2
    ⟨hmoved.block, by rw [hmoved]⟩
  have fetched : ∀ {τ u k op w}, chooseTurn s = some (τ, u) → fetch k u = some (op, w) →
      SameBlock s w ∧ w.ctl = s.ctl := fun hu hw => by
    obtain ⟨b, hctl⟩ := chosen hu
    rw [fetch_some hw]
    exact ⟨b.trans (by constructor <;> rfl), hctl⟩
  have moved : ∀ {u}, SameBlock s u ∧ u.ctl = s.ctl → StepMove u t →
      ∃ u, SameTransfer s u ∧ u.fault = none ∧ StepMove u t := fun ⟨b, hctl⟩ hmove =>
    ⟨_, sameTransfer_of_block b hctl, b.fault.trans hf, hmove⟩
  rcases hcases with ⟨_, _, rfl⟩ | ⟨u, hu, rfl⟩ | ⟨u, hu, rfl⟩ | ⟨k, u, i, w, hu, hw, he⟩
    | ⟨k, u, a, w, hu, hw, rfl⟩
  · exact moved ⟨sameBlock_refl t, rfl⟩
      (.keep (by constructor <;> rfl) (notOverflowed_of_no_fault hf))
  · exact moved (chosen hu) (.controller (ctlStep_move (regInv_of_block (chosen hu).1 hreg)))
  · exact moved (chosen hu) .engine
  · exact moved (fetched hu hw) (exec_move he)
  · obtain ⟨b, _⟩ := fetched hu hw
    exact moved (fetched hu hw) (hostAct_move (b.fault.trans hf) k a)

/-! ## The phase invariant -/

/-- The phase invariant looks at the controller, CS and CDIV, and at whether the block is drained
(R355). -/
theorem phaseInv_congr {s t : State} (hctl : t.ctl = s.ctl) (hcs : t.csRw = s.csRw)
    (hclk : t.clkCdiv = s.clkCdiv) (hdrained : Drained s → Drained t) (h : PhaseInv s) :
    PhaseInv t := by
  unfold PhaseInv TmpIsCs CfgHeld taSet at *
  rw [hctl, hcs, hclk]
  cases hp : s.ctl.phase with
  | clrTaRd | clrTaWr | clrFifoRd | clrFifoWr =>
    rw [hp] at h
    exact h.imp_left hdrained
  | idle | cfgRd | cfgWr | setTaRd | setTaWr | waitTxd | push | waitDone =>
    rw [hp] at h
    exact h

theorem phaseInv_of_sameTransfer {s t : State} (h : SameTransfer s t) (hinv : PhaseInv s) :
    PhaseInv t :=
  phaseInv_congr h.ctl h.csRw h.clkCdiv
    (fun ⟨htx, hshift⟩ => ⟨h.txq.trans htx, h.shifter.trans hshift⟩) hinv

/-- What the phase invariant says in phase `p`, with `p` written in, so that it can be taken
apart. -/
theorem phaseInv_iff {s : State} {p : Phase} (hp : s.ctl.phase = p) :
    PhaseInv s ↔ PhaseInv (toPhase p s) := by
  rw [toPhase, ← hp]

theorem phaseInv_of_phase {s : State} {p : Phase} (hp : s.ctl.phase = p)
    (h : PhaseInv (toPhase p s)) : PhaseInv s := (phaseInv_iff hp).2 h

theorem phaseInv_iff_of_idle {s : State} (hp : s.ctl.phase = .idle) :
    PhaseInv s ↔ s.ctl = idleCtl := by
  rw [PhaseInv, hp]

/-- A CS write leaves a drained block drained (R142). -/
theorem csWriteEffect_keeps_drained {w : Word} {s : State} (h : Drained s) :
    Drained (csWriteEffect w s) := by
  obtain ⟨htx, hshift⟩ := h
  obtain ⟨_, _, htx'⟩ := csWriteEffect_regs w s
  obtain ⟨hshift', _⟩ := csWriteEffect_shifter w s
  exact ⟨by rw [htx', htx, ite_self], hshift'.elim (·.trans hshift) id⟩

theorem taSet_csWriteEffect (w : Word) (s : State) :
    taSet (csWriteEffect w s) = w.getLsbD 7 := by
  obtain ⟨_, hcs, _⟩ := csWriteEffect_regs w s
  rw [taSet, hcs, getLsbD_ta_and_rwMask]

/-- With an empty TX FIFO and shifter the engine has nothing to do (R254, R255). -/
theorem engineStep_of_drained {s : State} (h : Drained s) : engineStep s = s := by
  obtain ⟨htx, hshift⟩ := h
  rcases engineStep_cases s with e | ⟨u, hu, _⟩ | ⟨u, left, _, _, hq, _⟩
  · exact e
  · cases hu.symm.trans hshift
  · cases hq.symm.trans htx

/-- The engine disturbs no phase: it leaves the controller, CS and CDIV, and a drained block
(R250, R355). -/
theorem engineStep_phaseInv {s : State} (h : PhaseInv s) : PhaseInv (engineStep s) := by
  obtain ⟨hcs, hclk⟩ : (engineStep s).csRw = s.csRw ∧ (engineStep s).clkCdiv = s.clkCdiv := by
    rcases engineStep_cases s with e | ⟨u, _, e⟩ | ⟨u, left, _, _, _, e | e⟩ <;> rw [e] <;>
      exact ⟨rfl, rfl⟩
  exact phaseInv_congr (engineStep_sameCtl s).ctl hcs hclk
    (fun hdrained => by rwa [engineStep_of_drained hdrained]) h

/-- Each move of the controller enters its phase with what that phase needs (R200 to R211). -/
theorem ctlMove_phaseInv {s t : State} (h : CtlMove s t) (hinv : PhaseInv s) : PhaseInv t := by
  cases h with
  | stay => exact hinv
  | stop _ => exact phaseInv_of_sameTransfer (recordStop_sameTransfer _ s) hinv
  | cfgRead hp hv => exact ⟨(phaseInv_iff hp).1 hinv, hv⟩
  | cfgWrite hp hctl _ =>
    obtain ⟨hheld, _⟩ := (phaseInv_iff hp).1 hinv
    unfold afterCfgWr
    split
    · change CfgHeld _
      simp only [CfgHeld, toPhase_ctl, hctl]
      exact hheld
    · rfl
  | fieldRead hp hpq hv =>
    have hat := (phaseInv_iff hp).1 hinv
    rcases mem_fieldReads hpq with ⟨rfl, rfl⟩ | ⟨rfl, rfl⟩ | ⟨rfl, rfl⟩
    · exact ⟨hat, hv⟩
    · obtain ⟨hdrained, hta⟩ := hat
      exact ⟨hdrained, hta, hv⟩
    · obtain ⟨hdrained, hta⟩ := hat
      exact ⟨hdrained, hta, hv⟩
  | pollFails hp =>
    rcases hp with hp | hp
    · exact phaseInv_of_phase (p := .waitTxd) hp ((phaseInv_iff hp).1 hinv)
    · exact phaseInv_of_phase (p := .waitDone) hp ((phaseInv_iff hp).1 hinv)
  | txdFound hp _ =>
    obtain ⟨hidx, hta⟩ := (phaseInv_iff hp).1 hinv
    unfold pushOrDrain
    split
    · next hempty => exact ⟨hidx.trans (congrArg List.length hempty).symm, hta⟩
    · next hbytes => exact ⟨hidx ▸ List.length_pos_iff.2 hbytes, hta⟩
  | doneFound hp hta hdrained => exact ⟨hdrained, hta⟩
  | @setTa w hp hw =>
    obtain ⟨hidx, _⟩ := (phaseInv_iff hp).1 hinv
    exact ⟨(congrArg Ctl.idx (csWriteEffect_outside w s).ctl).trans hidx,
      (taSet_csWriteEffect w s).trans hw⟩
  | push hp =>
    obtain ⟨hidx, hta⟩ := (phaseInv_iff hp).1 hinv
    simp only [afterPush]
    split
    · next hlast => exact ⟨hlast, hta⟩
    · next hmore =>
      exact phaseInv_of_phase (p := .push) hp
        ⟨Nat.lt_of_le_of_ne (Nat.succ_le_of_lt hidx) hmore, hta⟩
  | noByte hp hidx =>
    obtain ⟨hlt, _⟩ := (phaseInv_iff hp).1 hinv
    exact absurd hlt (Nat.not_lt.2 hidx)
  | @clearTa w hp hw =>
    obtain ⟨hdrained, _, _⟩ := (phaseInv_iff hp).1 hinv
    exact ⟨csWriteEffect_keeps_drained hdrained, (taSet_csWriteEffect w s).trans hw⟩
  | finish hp _ => rfl

/-- Settles O55: the host acts on the block at an IDLE controller only, the engine leaves what the
phases look at, and the controller's moves enter each phase as it needs. -/
theorem phaseInvKept : Obligations.PhaseInvKept := by
  intro s t hreg hinv hs
  obtain ⟨u, hsame, _, hmove⟩ := step_move hreg hs
  have hinvU : PhaseInv u := phaseInv_of_sameTransfer hsame hinv
  cases hmove with
  | keep h _ => exact phaseInv_of_sameTransfer h hinvU
  | controller h => exact ctlMove_phaseInv h hinvU
  | engine => exact engineStep_phaseInv hinvU
  | issue _ hc =>
    rcases hc with ⟨hp, hheld⟩ | ⟨hp, hidx⟩
    · exact phaseInv_of_phase (p := .cfgRd 0) hp hheld
    · exact phaseInv_of_phase (p := .setTaRd) hp hidx
  | hostAccess hidle hctl =>
    exact (phaseInv_iff_of_idle (hctl ▸ hidle)).2
      (hctl.trans ((phaseInv_iff_of_idle hidle).1 hinvU))

/-! ## The entry of PUSH and of the clearing of TA -/

/-- From `s` to `t` the controller enters PUSH only by TXD = 1, and the phases that clear TA only by
DONE = 1 (R206, R208). -/
structure EntersByFlag (s t : State) : Prop where
  push : t.ctl.phase = .push → s.ctl.phase = .push
    ∨ (s.ctl.phase = .waitTxd ∧ s.txq.length < s.params.txDepth)
  clrTaRd : t.ctl.phase = .clrTaRd → s.ctl.phase = .clrTaRd
    ∨ (s.ctl.phase = .waitDone ∧ taSet s = true ∧ Drained s)
  clrTaWr : t.ctl.phase = .clrTaWr → s.ctl.phase = .clrTaWr ∨ s.ctl.phase = .clrTaRd

theorem entersByFlag_of_same_phase {s t : State} (h : t.ctl.phase = s.ctl.phase) :
    EntersByFlag s t :=
  ⟨fun ht => .inl (h ▸ ht), fun ht => .inl (h ▸ ht), fun ht => .inl (h ▸ ht)⟩

/-- Of the controller's moves, PUSH is entered by the one that found TXD = 1 only, and CLR_TA_RD by
the one that found DONE = 1 only (R206, R208). -/
theorem ctlMove_entersByFlag {s t : State} (h : CtlMove s t) : EntersByFlag s t := by
  cases h with
  | stay => exact entersByFlag_of_same_phase rfl
  | @stop e _ => exact entersByFlag_of_same_phase (congrArg Ctl.phase (recordStop_sameCtl e s).ctl)
  | pollFails => exact entersByFlag_of_same_phase rfl
  | cfgRead => exact ⟨nofun, nofun, nofun⟩
  | cfgWrite =>
    unfold afterCfgWr
    split <;> exact ⟨nofun, nofun, nofun⟩
  | fieldRead hp hpq =>
    rcases mem_fieldReads hpq with ⟨rfl, rfl⟩ | ⟨rfl, rfl⟩ | ⟨rfl, rfl⟩
    · exact ⟨nofun, nofun, nofun⟩
    · exact ⟨nofun, nofun, fun _ => .inr hp⟩
    · exact ⟨nofun, nofun, nofun⟩
  | txdFound hp hroom =>
    unfold pushOrDrain
    split
    · exact ⟨nofun, nofun, nofun⟩
    · exact ⟨fun _ => .inr ⟨hp, hroom⟩, nofun, nofun⟩
  | doneFound hp hta hdrained => exact ⟨nofun, fun _ => .inr ⟨hp, hta, hdrained⟩, nofun⟩
  | push hp =>
    simp only [afterPush]
    split
    · exact ⟨nofun, nofun, nofun⟩
    · exact entersByFlag_of_same_phase rfl
  | setTa | noByte | clearTa | finish => exact ⟨nofun, nofun, nofun⟩

/-- Settles O39: only the controller's own moves change its phase after the issue of a command. -/
theorem pushAfterTxdAndClearAfterDone : Obligations.PushAfterTxdAndClearAfterDone := by
  intro s t hreg hs
  obtain ⟨u, ⟨hctl, hcs, _, htx, hshift, hparams⟩, _, hmove⟩ := step_move hreg hs
  have henters : EntersByFlag u t := by
    cases hmove with
    | keep h _ => exact entersByFlag_of_same_phase (congrArg Ctl.phase h.ctl)
    | controller h => exact ctlMove_entersByFlag h
    | engine => exact entersByFlag_of_same_phase (congrArg Ctl.phase (engineStep_sameCtl u).ctl)
    | issue _ hc =>
      rcases hc with ⟨hp, _⟩ | ⟨hp, _⟩ <;> constructor <;> exact fun h => nomatch hp.symm.trans h
    | hostAccess _ hctl => exact entersByFlag_of_same_phase (congrArg Ctl.phase hctl)
  obtain ⟨hpush, hclrTaRd, hclrTaWr⟩ := henters
  rw [hctl, htx, hparams] at hpush
  rw [hctl, taSet, hcs, Drained, htx, hshift] at hclrTaRd
  rw [hctl] at hclrTaWr
  exact ⟨hpush, hclrTaRd, hclrTaWr⟩

/-! ## A send that fits -/

/-- A FIFO no fuller than before leaves room for the same bytes (R216). -/
theorem pushFits_mono {s t : State} (hctl : t.ctl = s.ctl) (hparams : t.params = s.params)
    (htx : t.txq.length ≤ s.txq.length) (h : PushFits s) : PushFits t := by
  unfold PushFits at *
  rw [hctl, hparams]
  cases hp : s.ctl.phase with
  | setTaRd | setTaWr | waitTxd | push =>
    rw [hp] at h
    exact (Nat.add_le_add_right htx _).trans h
  | idle | cfgRd | cfgWr | waitDone | clrTaRd | clrTaWr | clrFifoRd | clrFifoWr => trivial

theorem pushFits_of_sameTransfer {s t : State} (h : SameTransfer s t) (hfits : PushFits s) :
    PushFits t :=
  pushFits_mono h.ctl h.params (Nat.le_of_eq (congrArg _ h.txq)) hfits

/-- What `PushFits` says in phase `p`, with `p` written in. -/
theorem pushFits_iff {s : State} {p : Phase} (hp : s.ctl.phase = p) :
    PushFits s ↔ PushFits (toPhase p s) := by
  rw [toPhase, ← hp]

theorem pushFits_of_phase {s : State} {p : Phase} (hp : s.ctl.phase = p)
    (h : PushFits (toPhase p s)) : PushFits s := (pushFits_iff hp).2 h

theorem csWriteEffect_txq_length_le (w : Word) (s : State) :
    (csWriteEffect w s).txq.length ≤ s.txq.length := by
  obtain ⟨_, _, htx⟩ := csWriteEffect_regs w s
  rw [htx]
  split
  · exact Nat.zero_le _
  · exact Nat.le_refl _

theorem engineStep_txq_length_le (s : State) : (engineStep s).txq.length ≤ s.txq.length := by
  rcases engineStep_cases s with e | ⟨u, _, e⟩ | ⟨u, left, _, _, hq, e | e⟩ <;> rw [e]
  · exact Nat.le_refl _
  · exact Nat.le_refl _
  · rw [hq]
    exact Nat.le_succ _

theorem engineStep_notOverflowed {s : State} (hf : s.fault = none) :
    NotOverflowed (engineStep s) := by
  rcases engineStep_cases s with e | ⟨u, _, e⟩ | ⟨u, left, _, _, _, e | e⟩ <;> rw [e]
  · exact notOverflowed_of_no_fault hf
  · exact notOverflowed_of_no_fault hf
  · exact nofun
  · exact notOverflowed_of_no_fault hf

/-- While the bytes left fit, a PUSH finds a free slot (R216, R352). -/
theorem push_room {s : State} (hp : s.ctl.phase = .push) (hinv : PhaseInv s) (hfits : PushFits s) :
    s.ctl.idx < s.ctl.buf.length
      ∧ s.txq.length + (s.ctl.buf.length - s.ctl.idx) ≤ s.params.txDepth := by
  obtain ⟨hidx, _⟩ := (phaseInv_iff hp).1 hinv
  exact ⟨hidx, (pushFits_iff hp).1 hfits⟩

/-- Each move of the controller takes a slot for each byte it counts, and none overflows (R207). -/
theorem ctlMove_pushFits {s t : State} (h : CtlMove s t) (hf : s.fault = none) (hinv : PhaseInv s)
    (hfits : PushFits s) : PushFits t ∧ NotOverflowed t := by
  have quiet : ∀ {t}, t.fault = s.fault → NotOverflowed t := fun h =>
    notOverflowed_of_no_fault (h.trans hf)
  cases h with
  | stay => exact ⟨hfits, quiet rfl⟩
  | @stop e hfull =>
    refine ⟨pushFits_of_sameTransfer (recordStop_sameTransfer e s) hfits, ?_⟩
    cases e with
    | refuse r => exact quiet rfl
    | fault k =>
      intro a v hk
      obtain ⟨hp, hlen⟩ := hfull a v (congrArg Stop.fault (Option.some.inj hk))
      obtain ⟨hidx, hroom⟩ := push_room hp hinv hfits
      omega
  | cfgRead => exact ⟨trivial, quiet rfl⟩
  | cfgWrite _ _ hfault =>
    unfold afterCfgWr
    split <;> exact ⟨trivial, quiet hfault⟩
  | fieldRead hp hpq =>
    refine ⟨?_, quiet rfl⟩
    rcases mem_fieldReads hpq with ⟨rfl, rfl⟩ | ⟨rfl, rfl⟩ | ⟨rfl, rfl⟩
    · exact (pushFits_iff hp).1 hfits
    · trivial
    · trivial
  | pollFails hp =>
    refine ⟨?_, quiet rfl⟩
    rcases hp with hp | hp
    · exact pushFits_of_phase (p := .waitTxd) hp ((pushFits_iff hp).1 hfits)
    · exact pushFits_of_phase (p := .waitDone) hp trivial
  | txdFound hp _ =>
    refine ⟨?_, quiet rfl⟩
    unfold pushOrDrain
    split
    · trivial
    · exact (pushFits_iff hp).1 hfits
  | @setTa w hp _ =>
    have hout := csWriteEffect_outside w s
    refine ⟨?_, quiet hout.fault⟩
    change (csWriteEffect w s).txq.length + ((csWriteEffect w s).ctl.buf.length
      - (csWriteEffect w s).ctl.idx) ≤ (csWriteEffect w s).params.txDepth
    rw [hout.ctl, hout.params]
    exact (Nat.add_le_add_right (csWriteEffect_txq_length_le w s) _).trans
      ((pushFits_iff hp).1 hfits)
  | push hp =>
    obtain ⟨hidx, hroom⟩ := push_room hp hinv hfits
    simp only [afterPush]
    split
    · exact ⟨trivial, quiet rfl⟩
    · refine ⟨pushFits_of_phase (p := .push) hp ?_, quiet rfl⟩
      change (s.txq ++ [_]).length + (s.ctl.buf.length - (s.ctl.idx + 1)) ≤ s.params.txDepth
      rw [List.length_append, List.length_singleton]
      omega
  | doneFound | noByte => exact ⟨trivial, quiet rfl⟩
  | clearTa => exact ⟨trivial, quiet (csWriteEffect_outside _ s).fault⟩
  | finish _ hfault => exact ⟨trivial, quiet hfault⟩

/-- Settles O57: at a busy controller only its own moves and the engine's touch the TX FIFO; the
moves count a byte for each slot they take, and the engine frees slots. -/
theorem fittingSendNeverOverflows : Obligations.FittingSendNeverOverflows := by
  intro s t hreg hinv hfits hbusy hs
  obtain ⟨u, hsame, hf, hmove⟩ := step_move hreg hs
  have hbusyU : u.ctl.phase ≠ .idle := by rwa [hsame.ctl]
  have hfitsU : PushFits u := pushFits_of_sameTransfer hsame hfits
  cases hmove with
  | keep h hno => exact ⟨pushFits_of_sameTransfer h hfitsU, hno⟩
  | controller h => exact ctlMove_pushFits h hf (phaseInv_of_sameTransfer hsame hinv) hfitsU
  | engine =>
    exact ⟨pushFits_mono (engineStep_sameCtl u).ctl (engineStep_params u)
      (engineStep_txq_length_le u) hfitsU, engineStep_notOverflowed hf⟩
  | issue hidle _ => exact absurd hidle hbusyU
  | hostAccess hidle _ => exact absurd hidle hbusyU

/-! ## The spin limit -/

/-- A failed poll at the limit leaves the fault only (R215, R300; log entry 9). -/
theorem pollFailed_at_limit {v : Word} {before after : State} {k : Nat}
    (hlimit : before.params.spinLimit = some k) (hk : k ≤ before.ctl.spins + 1) :
    pollFailed v before after
      = raise (.transferTimeout before.ctl.phase (before.ctl.spins + 1)) before := by
  simp only [pollFailed, hlimit]
  exact if_pos hk

/-- Settles O37: each wait reads its flag as 0, and the poll is the one that reaches the limit. -/
theorem spinLimitFaults : Obligations.SpinLimitFaults := by
  intro s k hreg hlimit hk hwait
  obtain ⟨v, n, _, htxd, hdone, hbus⟩ := ctlBus_readOf_cs_earlier hreg
  rcases hwait with ⟨hp, hfull⟩ | ⟨hp, hnot⟩
  · rw [ctlStep, hp]
    simp only [hbus, afterWaitTxd, if_neg (mt htxd.1 hfull), pollFailed_at_limit hlimit hk, hp]
    rfl
  · rw [ctlStep, hp]
    simp only [hbus, afterWaitDone, if_neg (mt hdone.1 hnot), pollFailed_at_limit hlimit hk, hp]
    rfl

/-! ## The issue of a command -/

/-- Settles O32: an IDLE controller takes the command. -/
theorem commandsStartTheController : Obligations.CommandsStartTheController := by
  intro s hacc
  have taken : ∀ c, whenLive s (acceptCmd c s) = .next { s with ctl := c } := fun c => by
    rw [whenLive_of_live hacc.fault hacc.refused, acceptCmd, if_pos hacc.idle]
  exact ⟨fun _ _ _ _ _ => taken _, fun _ => taken _, fun _ => taken _⟩

/-- Settles O33: a command is taken, which sets the controller, or not taken. -/
theorem commandsFrame : Obligations.CommandsFrame := by
  intro s t i hform he
  obtain ⟨c, hexec⟩ := exec_of_busForm_none hform s
  obtain ⟨_, _, rfl⟩ := whenLive_eq_next (hexec ▸ he)
  unfold acceptCmd
  split
  · next hidle => exact ⟨rfl, fun hbusy => absurd hidle hbusy⟩
  · exact ⟨rfl, fun _ => rfl⟩

/-! ## The command's name

No rule for a register looks at which command is recorded, so each operation commutes with
`withCmd`, and only a completion shows the name. -/

section Name

variable (c : Option Cmd)

theorem shifterOnClear_withCmd (s : State) :
    shifterOnClear (withCmd c s) = withCmd c (shifterOnClear s) := by
  unfold shifterOnClear
  rw [show (withCmd c s).shifter = s.shifter from rfl]
  cases s.shifter with
  | none => rfl
  | some u =>
    simp only [apply_ite (withCmd c)]
    rfl

theorem shifterOnStop_withCmd (s : State) :
    shifterOnStop (withCmd c s) = withCmd c (shifterOnStop s) := by
  unfold shifterOnStop
  rw [show (withCmd c s).shifter = s.shifter from rfl]
  cases s.shifter with
  | none => rfl
  | some u =>
    simp only [apply_ite (withCmd c)]
    rfl

theorem clearAction_withCmd (v : Word) (s : State) :
    clearAction v (withCmd c s) = withCmd c (clearAction v s) := by
  have h := shifterOnClear_withCmd c { s with txq := [] }
  unfold clearAction
  cases v.getLsbD 4 <;> cases v.getLsbD 5
  · rfl
  · rfl
  · exact h
  · exact congrArg (fun t : State => { t with rxq := [] }) h

theorem taTransition_withCmd (before after : Bool) (s : State) :
    taTransition before after (withCmd c s) = withCmd c (taTransition before after s) := by
  cases before <;> cases after
  · rfl
  · rfl
  · exact congrArg (fun t : State => { t with wire := t.wire ++ [WireEvent.deselect] })
      (shifterOnStop_withCmd c s)
  · rfl

theorem csWriteEffect_withCmd (v : Word) (s : State) :
    csWriteEffect v (withCmd c s) = withCmd c (csWriteEffect v s) := by
  rw [csWriteEffect, clearAction_withCmd]
  exact taTransition_withCmd c _ _ { clearAction v s with csRw := v &&& rwMask }

theorem writeReg_withCmd (a : Agent) (r : Reg) (v : Word) (s : State) :
    writeReg a r v (withCmd c s) = (writeReg a r v s).map (withCmd c) := by
  cases r with
  | cs =>
    simp only [writeReg, writeCs, csWriteEffect_withCmd, apply_ite (Except.map (withCmd c))]
    rfl
  | fifo =>
    simp only [writeReg, writeFifo, apply_ite (Except.map (withCmd c))]
    rfl
  | clk =>
    simp only [writeReg, writeClk, apply_ite (Except.map (withCmd c))]
    rfl
  | dlen | ltoh | dc => rfl

theorem readReg_withCmd (r : Reg) (s : State) :
    readReg r (withCmd c s) = ((readReg r s).1, withCmd c (readReg r s).2) := by
  have plain : ∀ q,
      readPlain q (withCmd c s) = ((readPlain q s).1, withCmd c (readPlain q s).2) := fun q => by
    unfold readPlain
    rw [show (withCmd c s).params = s.params from rfl]
    cases s.params.reservedRead <;> rfl
  cases r with
  | fifo =>
    unfold readReg readFifo
    rw [show (withCmd c s).rxq = s.rxq from rfl]
    cases s.rxq <;> rfl
  | cs => exact plain .cs
  | clk => exact plain .clk
  | dlen => exact plain .dlen
  | ltoh => exact plain .ltoh
  | dc => rfl

theorem forgetCmds_eq_of_withCmd {s t : State} (h : t = withCmd c s) :
    forgetCmds t = forgetCmds s := by
  rw [h]
  rfl

/-- A controller read shows no name that what follows it does not show. -/
theorem forgetCmds_ctlBus_readOf {r : Reg} {k k' : Word → State → State} {s : State}
    (hk : ∀ v t, forgetCmds (k' v (withCmd c t)) = forgetCmds (k v t)) :
    forgetCmds (ctlBus (readOf r) k' (withCmd c s)) = forgetCmds (ctlBus (readOf r) k s) := by
  rw [ctlBus_readOf, ctlBus_readOf, readReg_withCmd]
  exact hk (readReg r s).1 (logAccess .ctl (readOf r) (readReg r s).1 (readReg r s).2)

/-- A controller write shows no name that what follows it does not show. -/
theorem forgetCmds_ctlBus_writeOf {r : Reg} {w : Word} {k : Word → State → State} {s : State}
    (hk : ∀ v t, forgetCmds (k v (withCmd c t)) = forgetCmds (k v t)) :
    forgetCmds (ctlBus (writeOf r w) k (withCmd c s)) = forgetCmds (ctlBus (writeOf r w) k s) := by
  rw [ctlBus_writeOf, ctlBus_writeOf, writeReg_withCmd]
  cases writeReg .ctl r w s with
  | ok t => exact hk w (logAccess .ctl (writeOf r w) w t)
  | error e => cases e <;> rfl

theorem pollFailed_withCmd (v : Word) (before after : State) :
    pollFailed v (withCmd c before) (withCmd c after) = withCmd c (pollFailed v before after) := by
  unfold pollFailed
  rw [show (withCmd c before).params = before.params from rfl]
  cases before.params.spinLimit with
  | none => rfl
  | some k =>
    simp only [apply_ite (withCmd c)]
    rfl

theorem afterWaitTxd_withCmd (v : Word) (before after : State) :
    afterWaitTxd (withCmd c before) v (withCmd c after)
      = withCmd c (afterWaitTxd before v after) := by
  rw [afterWaitTxd, afterWaitTxd, pollFailed_withCmd, apply_ite (withCmd c)]
  rfl

theorem afterWaitDone_withCmd (v : Word) (before after : State) :
    afterWaitDone (withCmd c before) v (withCmd c after)
      = withCmd c (afterWaitDone before v after) := by
  rw [afterWaitDone, afterWaitDone, pollFailed_withCmd, apply_ite (withCmd c)]
  rfl

theorem afterPush_withCmd (v : Word) (s : State) :
    afterPush v (withCmd c s) = withCmd c (afterPush v s) := by
  simp only [afterPush, apply_ite (withCmd c)]
  rfl

theorem forgetCmds_complete_withCmd (s : State) :
    forgetCmds (complete (withCmd c s)) = forgetCmds (complete s) := by
  simp [forgetCmds, complete, withCmd]

/-- Outside CFG_WR the controller's step does not look at the command's name (R212). -/
theorem forgetCmds_ctlStep_withCmd {s : State} (h : ∀ k, s.ctl.phase ≠ .cfgWr k) :
    forgetCmds (ctlStep (withCmd c s)) = forgetCmds (ctlStep s) := by
  have hphase : (withCmd c s).ctl.phase = s.ctl.phase := rfl
  unfold ctlStep
  rw [hphase]
  cases hp : s.ctl.phase with
  | idle => rfl
  | cfgWr k => exact absurd hp (h k)
  | cfgRd | setTaRd | clrTaRd | clrFifoRd => exact forgetCmds_ctlBus_readOf c fun _ _ => rfl
  | waitTxd =>
    exact forgetCmds_ctlBus_readOf c fun v t =>
      forgetCmds_eq_of_withCmd c (afterWaitTxd_withCmd c v s t)
  | waitDone =>
    exact forgetCmds_ctlBus_readOf c fun v t =>
      forgetCmds_eq_of_withCmd c (afterWaitDone_withCmd c v s t)
  | push =>
    change forgetCmds (stepPush (withCmd c s)) = forgetCmds (stepPush s)
    unfold stepPush
    rw [show (withCmd c s).ctl.buf = s.ctl.buf from rfl,
      show (withCmd c s).ctl.idx = s.ctl.idx from rfl]
    cases s.ctl.buf[s.ctl.idx]? with
    | none => rfl
    | some b =>
      exact forgetCmds_ctlBus_writeOf c fun v t =>
        forgetCmds_eq_of_withCmd c (afterPush_withCmd c v t)
  | setTaWr | clrTaWr => exact forgetCmds_ctlBus_writeOf c fun _ _ => rfl
  | clrFifoWr =>
    exact forgetCmds_ctlBus_writeOf c fun _ t => forgetCmds_complete_withCmd c t

end Name

/-- Settles O34: the two commands hold the same but for the name, which no step of a send looks
at. -/
theorem send1RunsAsSend : Obligations.Send1RunsAsSend := by
  refine ⟨fun s b t u ht hu => ?_, fun s c h => forgetCmds_ctlStep_withCmd c h⟩
  obtain ⟨_, _, rfl⟩ := whenLive_eq_next ht
  obtain ⟨_, _, rfl⟩ := whenLive_eq_next hu
  unfold acceptCmd
  split <;> rfl

/-! ## The empty send -/

/-- `tr'` goes on from `tr` with `n` accesses of CS by the controller. -/
def CsAccesses (n : Nat) (tr tr' : List TraceEntry) : Prop :=
  ∃ added, tr' = tr ++ added ∧ added.length = n ∧ ∀ e ∈ added, e.agent = .ctl ∧ e.off = 0x00

theorem csAccesses_one (tr : List TraceEntry) (dir : Dir) (v : Word) :
    CsAccesses 1 tr (tr ++ [⟨.ctl, dir, 0x00, v⟩]) :=
  ⟨_, rfl, rfl, fun e he => by rw [List.mem_singleton.1 he]; exact ⟨rfl, rfl⟩⟩

theorem CsAccesses.trans {m n : Nat} {tr tr' tr'' : List TraceEntry} (h : CsAccesses m tr tr')
    (k : CsAccesses n tr' tr'') : CsAccesses (m + n) tr tr'' := by
  obtain ⟨as, rfl, hm, ha⟩ := h
  obtain ⟨bs, rfl, hn, hb⟩ := k
  exact ⟨as ++ bs, List.append_assoc .., by rw [List.length_append, hm, hn],
    fun e he => (List.mem_append.1 he).elim (ha e) (hb e)⟩

/-- A controller in phase `p` with nothing queued or going out, and CS in scope. -/
structure DrainedAt (p : Phase) (s : State) : Prop where
  reg : RegInv s
  phase : s.ctl.phase = p
  drained : Drained s
  inScope : s.csRw &&& scopeMask = 0#32

/-- `s` further on in a send: CS holds `c`, the controller is in the state `k`, and the logs are `w`
and `tr`. -/
def sendStage (c : Word) (k : Ctl) (w : List WireEvent) (tr : List TraceEntry) (n : Nat)
    (s : State) : State :=
  { s with csRw := c, ctl := k, wire := w, trace := tr, draws := n }

/-- Inserting TA keeps a block drained and in scope (R205, R209). -/
theorem DrainedAt.stage {p q : Phase} {s : State} (h : DrainedAt p s) {c : Word} {k : Ctl}
    {w : List WireEvent} {tr : List TraceEntry} {n : Nat}
    (hc : c = s.csRw ∨ ∃ x, c = insField s.csRw .csTa x) (hq : k.phase = q) :
    DrainedAt q (sendStage c k w tr n s) := by
  have masked : ∀ m : Word, fieldMask .csTa &&& m = 0#32 → s.csRw &&& m = 0#32 →
      c &&& m = 0#32 := by
    intro m hm hzero
    rcases hc with rfl | ⟨_, rfl⟩
    · exact hzero
    · exact (insField_and_of_disjoint _ _ hm).trans hzero
  obtain ⟨⟨hstored, htx, hrx, _, _, hstop⟩, _, ⟨hempty, hshift⟩, hscope⟩ := h
  have hscope' := masked scopeMask (by decide) hscope
  exact ⟨⟨masked _ (by decide) hstored, htx, hrx, fun _ => hscope', fun hne => absurd hshift hne,
    hstop⟩, hq, ⟨hempty, hshift⟩, hscope'⟩

/-- A phase that reads CS before a field write goes on to the write (R205, R209, R210). -/
theorem ctlStep_fieldRead {s : State} {p q : Phase} (h : RegInv s) (hp : s.ctl.phase = p)
    (hpq : (p, q) ∈ fieldReads) :
    ∃ v n, ReadEarlier .cs v s ∧ ctlStep s
      = afterCtlRead { s.ctl with phase := q, tmp := v } (traced .ctl .rd 0x00 v s) n s := by
  obtain ⟨v, n, hv, _, _, hbus⟩ := ctlBus_readOf_cs_earlier h
  refine ⟨v, n, hv, ?_⟩
  rw [ctlStep, hp]
  rcases mem_fieldReads hpq with ⟨rfl, rfl⟩ | ⟨rfl, rfl⟩ | ⟨rfl, rfl⟩ <;> exact hbus _

/-- The wire events of a change of TA where no unit is in the shifter (R144). -/
def taEvents (before after : Bool) (cs : BitVec 2) : List WireEvent :=
  if before = false ∧ after = true then [.select cs]
  else if before = true ∧ after = false then [.deselect] else []

/-- The write of TA over CS as it stands, in scope and with no unit in the shifter, is admitted and
changes TA and the wire only (R142, R144 to R146). -/
theorem writeCs_insField_ta {s : State} {v : Word} (x : Word) (hv : ReadEarlier .cs v s)
    (hshift : s.shifter = none) (hscope : s.csRw &&& scopeMask = 0#32) :
    writeCs (insField v .csTa x) s = .ok { s with
      csRw := insField s.csRw .csTa x
      wire := s.wire ++ taEvents (taSet s) (x.getLsbD 0) (chipSelect s) } := by
  obtain ⟨hstored, hclear⟩ := hv
  have hnew : insField v .csTa x &&& rwMask = insField s.csRw .csTa x := by
    rw [insField_and_mask _ _ (by decide), hstored]
  have hcs : (insField s.csRw .csTa x).extractLsb' 0 2 = chipSelect s :=
    extractLsb'_insField_of_disjoint _ _ (by decide) (by decide)
  have hadmitted : ¬ LeavesScope (insField v .csTa x) := fun ⟨_, hne⟩ => hne <| by
    calc (insField v .csTa x &&& rwMask) &&& scopeMask
        = insField s.csRw .csTa x &&& scopeMask := by rw [hnew]
      _ = 0#32 := (insField_and_of_disjoint _ _ (by decide)).trans hscope
  rw [writeCs_of_admitted (not_reconfigures_insField hstored (by decide)) hadmitted, csWriteEffect,
    clearAction_of_clear_zero ((insField_and_of_disjoint _ _ (by decide)).trans hclear), hnew,
    getLsbD_insField_ta,
    taTransition_of_no_unit (s := { s with csRw := insField s.csRw .csTa x }) (.inl hshift),
    chipSelect, hcs]
  rfl

/-- The two steps that insert `x` into TA: CS is read, and written back (R205, R209). -/
theorem ctlStep_insertTa {s : State} {p q : Phase} {x : Word} {k : Word → State → State}
    (h : DrainedAt p s) (hpq : (p, q) ∈ fieldReads)
    (hq : ∀ t : State, t.ctl.phase = q →
      ctlStep t = ctlBus (writeOf .cs (insField t.ctl.tmp .csTa x)) k t) :
    ∃ v tr n, ctlStep^[2] s = k (insField v .csTa x) (sendStage (insField s.csRw .csTa x)
        { s.ctl with phase := q, tmp := v }
        (s.wire ++ taEvents (taSet s) (x.getLsbD 0) (chipSelect s)) tr n s)
      ∧ CsAccesses 2 s.trace tr := by
  obtain ⟨hreg, hp, ⟨_, hshift⟩, hscope⟩ := h
  obtain ⟨v, n, hv, hread⟩ := ctlStep_fieldRead hreg hp hpq
  let t := afterCtlRead { s.ctl with phase := q, tmp := v } (traced .ctl .rd 0x00 v s) n s
  have hwrite : writeReg .ctl .cs (insField v .csTa x) t = _ :=
    writeCs_insField_ta (s := t) x hv hshift hscope
  refine ⟨v, _, n, ?_, (csAccesses_one _ .rd v).trans (csAccesses_one _ .wr (insField v .csTa x))⟩
  rw [Function.iterate_succ_apply, Function.iterate_one, hread, hq t rfl]
  exact ctlBus_writeOf_of_ok k hwrite

/-- Setting TA opens a frame (R205). -/
theorem ctlStep_setTa {s : State} (h : DrainedAt .setTaRd s) (hta : taSet s = false) :
    ∃ v tr n, ctlStep^[2] s = sendStage (insField s.csRw .csTa 1#32)
        { s.ctl with phase := .waitTxd, tmp := v, spins := 0 }
        (s.wire ++ [.select (chipSelect s)]) tr n s
      ∧ CsAccesses 2 s.trace tr := by
  obtain ⟨v, tr, n, e, g⟩ := ctlStep_insertTa (x := 1#32) (k := afterSetTa) h (q := .setTaWr)
    (by decide) fun t ht => by rw [ctlStep, ht]
  rw [hta] at e
  exact ⟨v, tr, n, e, g⟩

/-- Clearing TA closes the frame (R209). -/
theorem ctlStep_clrTa {s : State} (h : DrainedAt .clrTaRd s) (hta : taSet s = true) :
    ∃ v tr n, ctlStep^[2] s = sendStage (insField s.csRw .csTa 0#32)
        { s.ctl with phase := .clrFifoRd, tmp := v } (s.wire ++ [.deselect]) tr n s
      ∧ CsAccesses 2 s.trace tr := by
  obtain ⟨v, tr, n, e, g⟩ := ctlStep_insertTa (x := 0#32) (k := fun _ => toPhase .clrFifoRd) h
    (q := .clrTaWr) (by decide) fun t ht => by rw [ctlStep, ht]
  rw [hta] at e
  exact ⟨v, tr, n, e, g⟩

/-- With no byte to send each of the two waits finds its flag at the first poll (R206, R208,
R213). -/
theorem ctlStep_emptyWaits {s : State} (h : DrainedAt .waitTxd s) (hta : taSet s = true)
    (hdepth : 1 ≤ s.params.txDepth) (hbuf : s.ctl.buf = []) :
    ∃ v tr n, ctlStep^[2] s = sendStage s.csRw
        { s.ctl with phase := .clrTaRd, tmp := v, spins := 0 } s.wire tr n s
      ∧ CsAccesses 2 s.trace tr := by
  have hroom : s.txq.length < s.params.txDepth := by
    obtain ⟨_, _, ⟨hempty, _⟩, _⟩ := h
    rwa [hempty]
  obtain ⟨v, n, _, htxd, _, hbus⟩ := ctlBus_readOf_cs_earlier h.reg
  let t := sendStage s.csRw { s.ctl with phase := .waitDone, tmp := v, spins := 0 } s.wire
    (traced .ctl .rd 0x00 v s) n s
  have htxdStep : ctlStep s = t := by
    rw [ctlStep, h.phase]
    simp only [hbus, afterWaitTxd, if_pos (htxd.2 hroom)]
    rw [pushOrDrain, if_pos (by exact hbuf)]
    rfl
  have ht : DrainedAt .waitDone t := h.stage (.inl rfl) rfl
  obtain ⟨w, m, _, _, hdone, hbus'⟩ := ctlBus_readOf_cs_earlier ht.reg
  have hdoneStep : ctlStep t
      = toPhaseTmp .clrTaRd w (afterCtlRead t.ctl (traced .ctl .rd 0x00 w t) m t) := by
    rw [ctlStep, ht.phase]
    simp only [hbus', afterWaitDone, if_pos (hdone.2 ⟨hta, ht.drained⟩)]
  refine ⟨w, _, m, ?_, (csAccesses_one _ .rd v).trans (csAccesses_one _ .rd w)⟩
  rw [Function.iterate_succ_apply, Function.iterate_one, htxdStep, hdoneStep]
  rfl

/-- A CS write that stores what stands there with CLEAR = 3 empties the RX FIFO of a drained
block and does nothing more (R143). -/
theorem csWriteEffect_clear_drained {w : Word} {s : State} (hsame : w &&& rwMask = s.csRw)
    (hclear : getField w .csClear = 3#32) (hdrained : Drained s) :
    csWriteEffect w s = { s with rxq := [] } := by
  obtain ⟨hempty, hshift⟩ := hdrained
  have hta : (w &&& rwMask).getLsbD 7 = taSet s := by rw [hsame, taSet]
  have hrx : (if w.getLsbD 5 then [] else s.rxq) = [] := by
    rw [← csWriteEffect_rxq hta]
    obtain ⟨_, h, _⟩ := csWriteEffect_of_clear hsame hclear
    exact h
  rw [csWriteEffect_of_same_ta hta, clearAction_of_no_unit (.inl hshift), queuesCleared, hsame,
    hempty, ite_self, hrx, ← hempty]

/-- Clearing the FIFOs of a drained block empties the RX FIFO and completes (R210, R211). -/
theorem ctlStep_clrFifo {s : State} (h : DrainedAt .clrFifoRd s) :
    ∃ tr n, ctlStep^[2] s = complete { s with rxq := [], trace := tr, draws := n }
      ∧ CsAccesses 2 s.trace tr := by
  obtain ⟨v, n, ⟨hstored, _⟩, hread⟩ :=
    ctlStep_fieldRead h.reg h.phase (q := .clrFifoWr) (by decide)
  let t := sendStage s.csRw { s.ctl with phase := .clrFifoWr, tmp := v } s.wire
    (traced .ctl .rd 0x00 v s) n s
  have ht : DrainedAt .clrFifoWr t := h.stage (.inl rfl) rfl
  have hsame : insField t.ctl.tmp .csClear 3#32 &&& rwMask = t.csRw :=
    (insField_and_of_disjoint _ _ (by decide)).trans hstored
  refine ⟨_, n, ?_, (csAccesses_one _ .rd v).trans
    (csAccesses_one _ .wr (insField v .csClear 3#32))⟩
  rw [Function.iterate_succ_apply, Function.iterate_one, hread]
  change ctlStep t = _
  rw [ctlStep_clrFifoWr ht.reg ht.phase hsame,
    csWriteEffect_clear_drained hsame (getField_insField_same t.ctl.tmp 3#32 .csClear) ht.drained]
  rfl

/-- TA set and then cleared again is as it was (R10). -/
theorem insField_ta_set_clear {c : Word} (hta : c.getLsbD 7 = false) :
    insField (insField c .csTa 1#32) .csTa 0#32 = c := by
  apply BitVec.eq_of_getLsbD_eq
  intro i hi
  rw [getLsbD_insField _ _ _ hi, getLsbD_insField _ _ _ hi]
  split
  · next hfield =>
    obtain ⟨hlo, hhi⟩ := hfield
    obtain rfl : i = 7 := Nat.le_antisymm (Nat.le_of_lt_succ hhi) hlo
    exact hta.symm
  · rfl

/-- Settles O42: setting TA, the two waits, clearing TA and clearing the FIFOs take two steps
each. -/
theorem emptySendEndsAfterEight : Obligations.EmptySendEndsAfterEight := by
  intro s hreg hdepth hta htx hshift hscope hp hbuf _
  have hon : (insField s.csRw .csTa 1#32).getLsbD 7 = true := getLsbD_insField_ta _ _
  have h0 : DrainedAt .setTaRd s := ⟨hreg, hp, ⟨htx, hshift⟩, hscope⟩
  obtain ⟨v1, tr1, n1, e1, g1⟩ := ctlStep_setTa h0 hta
  let s1 := sendStage (insField s.csRw .csTa 1#32)
    { s.ctl with phase := .waitTxd, tmp := v1, spins := 0 } (s.wire ++ [.select (chipSelect s)]) tr1
    n1 s
  have h1 : DrainedAt .waitTxd s1 := h0.stage (.inr ⟨_, rfl⟩) rfl
  obtain ⟨v2, tr2, n2, e2, g2⟩ := ctlStep_emptyWaits h1 hon hdepth hbuf
  let s2 := sendStage s1.csRw { s1.ctl with phase := .clrTaRd, tmp := v2, spins := 0 } s1.wire tr2
    n2 s1
  have h2 : DrainedAt .clrTaRd s2 := h1.stage (.inl rfl) rfl
  obtain ⟨v3, tr3, n3, e3, g3⟩ := ctlStep_clrTa h2 hon
  let s3 := sendStage (insField s2.csRw .csTa 0#32) { s2.ctl with phase := .clrFifoRd, tmp := v3 }
    (s2.wire ++ [.deselect]) tr3 n3 s2
  have h3 : DrainedAt .clrFifoRd s3 := h2.stage (.inr ⟨_, rfl⟩) rfl
  obtain ⟨tr4, n4, e4, g4⟩ := ctlStep_clrFifo h3
  obtain ⟨added, htr, hlen, hall⟩ : CsAccesses 8 s.trace tr4 := ((g1.trans g2).trans g3).trans g4
  refine ⟨added, n4, ?_, hlen, hall⟩
  have hlength : tr4.length = s.trace.length + 8 := by rw [htr, List.length_append, hlen]
  calc ctlStep^[8] s
      = complete { s3 with rxq := [], trace := tr4, draws := n4 } := by
        rw [Function.iterate_add_apply ctlStep 6 2, e1, Function.iterate_add_apply ctlStep 4 2, e2,
          Function.iterate_add_apply ctlStep 2 2, e3, e4]
    _ = { s with
          csRw := insField (insField s.csRw .csTa 1#32) .csTa 0#32
          rxq := [], ctl := idleCtl, trace := tr4, draws := n4
          wire := s.wire ++ [.select (chipSelect s)] ++ [.deselect]
          completed := s.completed ++ [⟨s.owner, s.ctl.cmd, tr4.length⟩] } := rfl
    _ = _ := by
        rw [insField_ta_set_clear hta, hlength, htr, List.append_assoc]
        rfl

end Sys2Proof.Proofs

/-! # Scope: the serial engine

When the engine has a step and what it does (spec/42_serial_engine.md R254, R255, R257, R261), its
frame (R250), the DONE flag (R252), and the end of a send that fits both FIFOs (R258,
spec/60_exceptions.md R302). -/

namespace Sys2Proof.Proofs

open Sys2Proof Sys2Proof.Machine Sys2Proof.Safety Sys2Proof.Claims

/-! ## When the engine has a step -/

theorem live_iff_live (s : State) : live s = true ↔ Live s :=
  (live_iff s).trans ⟨fun ⟨hf, hr⟩ => ⟨hf, hr⟩, fun ⟨hf, hr⟩ => ⟨hf, hr⟩⟩

/-- The RX stall holds nothing up where the RX FIFO has room or the stall is off (R257). -/
theorem rxStalled_eq_false_iff (s : State) : rxStalled s = false ↔
    (s.params.rxStallWhenFull = true → s.rxq.length < s.params.rxDepth) := by
  simp [rxStalled]

theorem shiftStartReady_iff (s : State) : shiftStartReady s = true ↔
    Live s ∧ taSet s = true ∧ s.txq ≠ [] ∧ s.shifter = none ∧ rxStalled s = false := by
  simp [shiftStartReady, live_iff_live]

theorem shiftEndReady_iff (s : State) :
    shiftEndReady s = true ↔ Live s ∧ taSet s = true ∧ ∃ u, s.shifter = some u := by
  simp [shiftEndReady, live_iff_live, Option.isSome_iff_exists]

/-- The engine steps in a live block with TA = 1, to end the unit in the shifter or to start the
next (R254, R255). -/
theorem engineReady_iff (s : State) : engineReady s = true ↔
    Live s ∧ taSet s = true ∧ ((∃ u, s.shifter = some u)
      ∨ s.shifter = none ∧ s.txq ≠ [] ∧ rxStalled s = false) := by
  rw [engineReady, Bool.or_eq_true, shiftStartReady_iff, shiftEndReady_iff]
  constructor
  · rintro (⟨hlive, hta, hq, hshift, hroom⟩ | ⟨hlive, hta, hu⟩)
    · exact ⟨hlive, hta, .inr ⟨hshift, hq, hroom⟩⟩
    · exact ⟨hlive, hta, .inl hu⟩
  · rintro ⟨hlive, hta, hu | ⟨hshift, hq, hroom⟩⟩
    · exact .inr ⟨hlive, hta, hu⟩
    · exact .inl ⟨hlive, hta, hq, hshift, hroom⟩

/-- Settles O47: each case fails one of the conditions of R254 and of R255. -/
theorem engineHoldsWithoutTaOrRoom : Obligations.EngineHoldsWithoutTaOrRoom := by
  intro s
  have holds : (¬ engineReady s = true) → engineReady s = false := Bool.eq_false_iff.2
  rw [engineReady_iff] at holds
  refine ⟨fun hoff => holds fun ⟨_, hta, _⟩ => ?_,
    fun hq hshift => holds fun ⟨_, _, hwork⟩ => ?_,
    fun hstall hfull hshift => holds fun ⟨_, _, hwork⟩ => ?_⟩
  · exact nomatch hoff.symm.trans hta
  · rcases hwork with ⟨u, hu⟩ | ⟨_, hne, _⟩
    · exact nomatch hu.symm.trans hshift
    · exact hne hq
  · rcases hwork with ⟨u, hu⟩ | ⟨_, _, hroom⟩
    · exact nomatch hu.symm.trans hshift
    · exact Nat.ne_of_lt ((rxStalled_eq_false_iff s).1 hroom hstall) hfull

/-! ## The engine's two steps -/

/-- SHIFT_END, where it is enabled (R255). -/
theorem engineStep_of_unit {s : State} {u : FifoUnit} (hlive : Live s) (hta : taSet s = true)
    (hu : s.shifter = some u) : engineStep s = finishUnit u s := by
  rw [engineStep, if_pos ((shiftEndReady_iff s).2 ⟨hlive, hta, u, hu⟩), shiftEnd, hu]

/-- SHIFT_START, where it is enabled (R254, R261). -/
theorem engineStep_of_queued {s : State} {u : FifoUnit} {left : List FifoUnit} (hlive : Live s)
    (hta : taSet s = true) (hshift : s.shifter = none) (hq : s.txq = u :: left)
    (hroom : rxStalled s = false) :
    engineStep s = if chipSelect s = 3#2 then raise (.reservedChipSelect u) s
      else { s with shifter := some u, txq := left } := by
  have hidle : ¬ shiftEndReady s = true := fun h => by
    obtain ⟨_, _, v, hv⟩ := (shiftEndReady_iff s).1 h
    exact nomatch hv.symm.trans hshift
  have hready : shiftStartReady s = true :=
    (shiftStartReady_iff s).2 ⟨hlive, hta, by rw [hq]; exact List.cons_ne_nil _ _, hshift, hroom⟩
  rw [engineStep, if_neg hidle, if_pos hready, shiftStart, hq]

/-- Settles O45: the premises are those of SHIFT_START, and the chip select decides between its two
outcomes. -/
theorem shiftStartTakesTheHead : Obligations.ShiftStartTakesTheHead := by
  intro s u left hlive hta hshift hq hstall
  have hroom := (rxStalled_eq_false_iff s).2 hstall
  have hready : engineReady s = true := (engineReady_iff s).2
    ⟨hlive, hta, .inr ⟨hshift, by rw [hq]; exact List.cons_ne_nil _ _, hroom⟩⟩
  rw [engineStep_of_queued hlive hta hshift hq hroom]
  exact ⟨hready, fun hcs => if_neg hcs, fun hcs => if_pos hcs⟩

/-- Settles O46: the unit received is the next draw, cut to the width of the unit sent. -/
theorem shiftEndLogsTheUnit : Obligations.ShiftEndLogsTheUnit := by
  intro s u hlive hta hu
  refine ⟨(engineReady_iff s).2 ⟨hlive, hta, .inl ⟨u, hu⟩⟩, unitLike u (nextWord s),
    unitWidth_unitLike u _, ?_⟩
  rw [engineStep_of_unit hlive hta hu]
  rfl

/-- An engine step changes the two queues, the shifter, the wire, the fault record and the count of
draws at most (R250, R261). -/
theorem engineStep_frame (s : State) : ∃ tx rx u w f n, engineStep s
    = { s with txq := tx, rxq := rx, shifter := u, wire := w, fault := f, draws := n } := by
  rcases engineStep_cases s with e | ⟨u, _, e⟩ | ⟨u, left, _, _, _, e | e⟩ <;> rw [e] <;>
    exact ⟨_, _, _, _, _, _, rfl⟩

/-- Settles O49: every register but CS is untouched, so the window's bytes from FIFO on are too. -/
theorem engineFrame : Obligations.EngineFrame := by
  intro s
  obtain ⟨tx, rx, u, w, f, n, e⟩ := engineStep_frame s
  have hregs : SameRegs s (engineStep s) := by
    rw [e]
    exact ⟨rfl, rfl, rfl, rfl⟩
  refine ⟨?_, ?_, ?_, ?_, ?_, ?_, ?_, ?_, ?_, ?_, ?_, ?_, ?_, ?_,
    fun _ => windowByte_of_sameRegs hregs⟩ <;> rw [e]

/-! ## The DONE flag -/

theorem doneFlag_eq_false_of_queued {s : State} (h : s.txq ≠ []) : doneFlag s = false :=
  Bool.eq_false_iff.2 fun hdone => by
    obtain ⟨_, hq, _⟩ := (doneFlag_iff s).1 hdone
    exact h hq

theorem doneFlag_eq_false_of_inactive {s : State} (h : taSet s = false) : doneFlag s = false := by
  rw [doneFlag, h, Bool.false_and]

/-- A whole-word write that stands did its register's rule and was traced (R140). -/
theorem transact_writeOf_ok {a : Agent} {r : Reg} {v w : Word} {s t : State}
    (h : transact a (writeOf r v) s = .ok (w, t)) :
    ∃ u, writeReg a r v s = .ok u ∧ t = logAccess a (writeOf r v) w u := by
  obtain ⟨q, u, hq, _, hp, rfl⟩ := transact_ok h
  obtain rfl : r = q := Option.some.inj ((accessReg_writeOf r v).symm.trans hq)
  rcases perform_ok hp with ⟨hdir, _⟩ | ⟨_, rfl, hw⟩
  · cases hdir
  · exact ⟨u, hw, rfl⟩

/-- A whole-word read that stands leaves what the read of its register leaves, and was traced
(R140). -/
theorem transact_readOf_ok {a : Agent} {r : Reg} {w : Word} {s t : State}
    (h : transact a (readOf r) s = .ok (w, t)) :
    t = logAccess a (readOf r) w (readReg r s).2 := by
  obtain ⟨q, u, hq, _, hp, rfl⟩ := transact_ok h
  obtain rfl : r = q := Option.some.inj ((accessReg_readOf r).symm.trans hq)
  rcases perform_ok hp with ⟨_, hread⟩ | ⟨hdir, _⟩
  · rw [show u = (readReg r s).2 from congrArg Prod.snd hread]
  · cases hdir

/-- No read touches what DONE is made of (R76, R252). -/
theorem doneFlag_readReg (r : Reg) (s : State) : doneFlag (readReg r s).2 = doneFlag s := by
  rcases readReg_state r s with e | e | ⟨_, u, left, _, e⟩ <;> rw [e] <;> rfl

/-- A host read of CS shows DONE in bit 16 (R141, R252). -/
theorem exec_rdCs_done {s : State} (hreg : RegInv s) (hacc : HostMayAccess s) :
    ∃ t, exec .rdCs s = .next t ∧ t.rdata.getLsbD 16 = doneFlag s := by
  obtain ⟨v, n, hread, _, _, _, h16, _⟩ := readReg_cs s hreg.csStored
  refine ⟨_, hostBus_readOf hacc .cs, ?_⟩
  rw [hread]
  exact h16

/-- Settles O18, clause by clause: a FIFO write leaves a unit queued, a CS write stores the TA it is
given, a read touches neither, and SHIFT_END empties the shifter. -/
theorem doneFlagFollowsItsFormula : Obligations.DoneFlagFollowsItsFormula := by
  refine fun s hreg => ⟨doneFlag_iff s, exec_rdCs_done hreg, fun a v w t ht => ?_,
    fun a v w t ht hv => ?_, fun a r w t ht => ?_, fun hend => ?_⟩
  · obtain ⟨u, hw, rfl⟩ := transact_writeOf_ok ht
    obtain ⟨_, _, rfl⟩ := writeFifo_ok hw
    exact doneFlag_eq_false_of_queued (List.append_ne_nil_of_right_ne_nil _ (List.cons_ne_nil _ _))
  · obtain ⟨u, hw, rfl⟩ := transact_writeOf_ok ht
    obtain ⟨rfl, _, _⟩ := writeCs_ok hw
    exact doneFlag_eq_false_of_inactive ((taSet_csWriteEffect v s).trans hv)
  · obtain rfl := transact_readOf_ok ht
    exact doneFlag_readReg r s
  · obtain ⟨hlive, hta, u, hu⟩ := (shiftEndReady_iff s).1 hend
    rw [engineStep_of_unit hlive hta hu, doneFlag_iff]
    exact ⟨fun ⟨_, hq, _⟩ => hq, fun hq => ⟨hta, hq, rfl⟩⟩

/-! ## A send in progress -/

/-- How many phases of a send are still to come, the one it is in included; 0 in the phases of no
send (R218). -/
def sendRank : Phase → Nat
  | .idle => 0
  | .cfgRd _ => 0
  | .cfgWr _ => 0
  | .setTaRd => 9
  | .setTaWr => 8
  | .waitTxd => 7
  | .push => 6
  | .waitDone => 5
  | .clrTaRd => 4
  | .clrTaWr => 3
  | .clrFifoRd => 2
  | .clrFifoWr => 1

/-- The units of the block: queued, going out, and received. -/
def unitsHeld (s : State) : Nat := s.txq.length + s.shifter.toList.length + s.rxq.length

/-- What is left to do of a send: its phases, three for each byte to write (the write, SHIFT_START
and SHIFT_END), two for a queued unit and one for the unit in the shifter. -/
def sendWork (s : State) : Nat :=
  sendRank s.ctl.phase + 3 * (s.ctl.buf.length - s.ctl.idx) + 2 * s.txq.length
    + s.shifter.toList.length

/-- A send that fits both FIFOs is in progress, with no other agent than the controller and the
engine to step: the units of the block are at most the bytes written so far, and CS is in scope
with a chip select that exists. -/
structure SendInv (s : State) : Prop where
  fault : s.fault = none
  refused : s.refused = none
  hostDone : HostDone s
  noLimit : s.params.spinLimit = none
  slot : 1 ≤ s.params.txDepth
  txFits : s.ctl.buf.length ≤ s.params.txDepth
  rxFits : s.ctl.buf.length ≤ s.params.rxDepth
  inScope : s.csRw &&& scopeMask = 0#32
  line : chipSelect s ≠ 3#2
  counted : unitsHeld s ≤ s.ctl.idx
  running : 0 < sendRank s.ctl.phase

/-- A fitting send in progress, with the invariants of every step. -/
structure Sending (s : State) : Prop where
  reg : RegInv s
  phase : PhaseInv s
  send : SendInv s

/-- The send has completed without a fault. -/
def SendEnded (s : State) : Prop := s.ctl.phase = .idle ∧ s.fault = none ∧ s.refused = none

/-- What a step of the controller does for a fitting send: end it, bring it nearer its end, or wait
for an engine that has a step. -/
inductive SendMove (s t : State) : Prop
  | ends (h : SendEnded t)
  | nears (h : SendInv t) (hwork : sendWork t < sendWork s)
  | waits (h : SendInv t) (hwork : sendWork t = sendWork s) (hready : engineReady s = true)

theorem drained_of_unitsHeld_le_zero {s : State} (h : unitsHeld s ≤ 0) : Drained s := by
  simp only [unitsHeld, Nat.le_zero, Nat.add_eq_zero_iff, List.length_eq_zero_iff] at h
  obtain ⟨⟨htx, hshift⟩, _⟩ := h
  exact ⟨htx, Option.toList_eq_nil_iff.1 hshift⟩

/-- Nothing is in the block before the first byte is written. -/
theorem SendInv.drained {s : State} (h : SendInv s) (hidx : s.ctl.idx = 0) : Drained s :=
  drained_of_unitsHeld_le_zero (hidx ▸ h.counted)

/-- A step that only goes on to a later phase leaves less to do. -/
theorem sendWork_lt {s t : State} {p q : Phase} (hp : s.ctl.phase = p) (hq : t.ctl.phase = q)
    (hrank : sendRank q < sendRank p) (hbuf : t.ctl.buf = s.ctl.buf)
    (hidx : t.ctl.idx = s.ctl.idx) (htx : t.txq = s.txq) (hshift : t.shifter = s.shifter) :
    sendWork t < sendWork s := by
  simp only [sendWork, hp, hq, hbuf, hidx, htx, hshift]
  omega

/-! ## The controller's steps in a fitting send -/

section Controller

variable {s : State}

/-- The three reads of CS before a field write go on to the write (R205, R209, R210). -/
theorem ctlStep_fieldRead_sendMove {p q : Phase} (h : Sending s) (hp : s.ctl.phase = p)
    (hpq : (p, q) ∈ fieldReads) : SendMove s (ctlStep s) := by
  obtain ⟨v, n, _, e⟩ := ctlStep_fieldRead h.reg hp hpq
  have hrank : 0 < sendRank q ∧ sendRank q < sendRank p := by
    rcases mem_fieldReads hpq with ⟨rfl, rfl⟩ | ⟨rfl, rfl⟩ | ⟨rfl, rfl⟩ <;> decide
  rw [e]
  exact .nears { h.send with running := hrank.1 } (sendWork_lt hp rfl hrank.2 rfl rfl rfl rfl)

/-- The controller's write of TA over the CS it has read stands, in scope and with no unit in the
shifter (R205, R209). -/
theorem ctlBus_writeTa (x : Word) (k : Word → State → State) (htmp : TmpIsCs s)
    (hshift : s.shifter = none) (hscope : s.csRw &&& scopeMask = 0#32) :
    ∃ w tr, ctlBus (writeOf .cs (insField s.ctl.tmp .csTa x)) k s
      = k (insField s.ctl.tmp .csTa x)
          (sendStage (insField s.csRw .csTa x) s.ctl w tr s.draws s) :=
  ⟨_, _, ctlBus_writeOf_of_ok (r := .cs) k (writeCs_insField_ta x htmp hshift hscope)⟩

/-- A changed TA leaves the scope and the chip select as they were (R10, R146). -/
theorem SendInv.stage (h : SendInv s) (x : Word) {c : Ctl} {w : List WireEvent}
    {tr : List TraceEntry} {n : Nat} (hbuf : c.buf = s.ctl.buf) (hidx : c.idx = s.ctl.idx)
    (hrun : 0 < sendRank c.phase) :
    SendInv (sendStage (insField s.csRw .csTa x) c w tr n s) :=
  { h with
    txFits := hbuf ▸ h.txFits
    rxFits := hbuf ▸ h.rxFits
    inScope := (insField_and_of_disjoint _ _ (by decide)).trans h.inScope
    line := fun hcs => h.line
      ((extractLsb'_insField_of_disjoint _ x (by decide) (by decide)).symm.trans hcs)
    counted := hidx ▸ h.counted
    running := hrun }

theorem ctlStep_setTaWr_sendMove (h : Sending s) (hp : s.ctl.phase = .setTaWr) :
    SendMove s (ctlStep s) := by
  obtain ⟨hidx, htmp⟩ := (phaseInv_iff hp).1 h.phase
  obtain ⟨_, hshift⟩ := h.send.drained hidx
  obtain ⟨w, tr, e⟩ := ctlBus_writeTa (s := s) 1#32 afterSetTa htmp hshift h.send.inScope
  have hstep : ctlStep s = ctlBus (writeOf .cs (insField s.ctl.tmp .csTa 1#32)) afterSetTa s := by
    rw [ctlStep, hp]
  rw [hstep, e]
  exact .nears (h.send.stage 1#32 rfl rfl (by decide : 0 < sendRank .waitTxd))
    (sendWork_lt (q := .waitTxd) hp rfl (by decide) rfl rfl rfl rfl)

theorem ctlStep_clrTaWr_sendMove (h : Sending s) (hp : s.ctl.phase = .clrTaWr) :
    SendMove s (ctlStep s) := by
  obtain ⟨⟨_, hshift⟩, _, htmp⟩ := (phaseInv_iff hp).1 h.phase
  obtain ⟨w, tr, e⟩ :=
    ctlBus_writeTa (s := s) 0#32 (fun _ => toPhase .clrFifoRd) htmp hshift h.send.inScope
  have hstep : ctlStep s = ctlBus (writeOf .cs (insField s.ctl.tmp .csTa 0#32))
      (fun _ => toPhase .clrFifoRd) s := by
    rw [ctlStep, hp]
  rw [hstep, e]
  exact .nears (h.send.stage 0#32 rfl rfl (by decide : 0 < sendRank .clrFifoRd))
    (sendWork_lt (q := .clrFifoRd) hp rfl (by decide) rfl rfl rfl rfl)

/-- Before the first byte the TX FIFO is empty, so the first poll finds TXD = 1 (R206). -/
theorem ctlStep_waitTxd_sendMove (h : Sending s) (hp : s.ctl.phase = .waitTxd) :
    SendMove s (ctlStep s) := by
  obtain ⟨hidx, _⟩ := (phaseInv_iff hp).1 h.phase
  obtain ⟨htx, _⟩ := h.send.drained hidx
  have hroom : s.txq.length < s.params.txDepth := by
    rw [htx]
    exact h.send.slot
  obtain ⟨hrun, hless⟩ : 0 < sendRank (if s.ctl.buf = [] then .waitDone else .push)
      ∧ sendRank (if s.ctl.buf = [] then .waitDone else .push) < sendRank .waitTxd := by
    split <;> decide
  obtain ⟨v, n, _, _, hfound, _⟩ := waitTxdPolls s h.reg hp
  rw [hfound hroom]
  exact .nears { h.send with running := hrun } (sendWork_lt hp rfl hless rfl rfl rfl rfl)

/-- A byte written leaves one write less to do and two engine steps more (R207). -/
theorem SendInv.pushed_nears (h : SendInv s) {u : FifoUnit} {tr : List TraceEntry} {c : Ctl}
    (hbuf : c.buf = s.ctl.buf) (hidx : c.idx = s.ctl.idx + 1)
    (hlt : s.ctl.idx < s.ctl.buf.length)
    (hrun : 0 < sendRank c.phase ∧ sendRank c.phase ≤ sendRank s.ctl.phase) :
    SendMove s { s with txq := s.txq ++ [u], trace := tr, ctl := c } := by
  refine .nears { h with
    txFits := hbuf ▸ h.txFits
    rxFits := hbuf ▸ h.rxFits
    counted := ?_
    running := hrun.1 } ?_
  · have hcount := h.counted
    simp only [unitsHeld, List.length_append, List.length_singleton, hidx] at hcount ⊢
    omega
  · obtain ⟨_, hrank⟩ := hrun
    simp only [sendWork, List.length_append, List.length_singleton, hbuf, hidx]
    omega

/-- The TX FIFO holds no more than the bytes written, so the next fits (R207, R216). -/
theorem ctlStep_push_sendMove (h : Sending s) (hp : s.ctl.phase = .push) :
    SendMove s (ctlStep s) := by
  obtain ⟨hlt, hta⟩ := (phaseInv_iff hp).1 h.phase
  have hlt : s.ctl.idx < s.ctl.buf.length := hlt
  have hroom : s.txq.length ≠ s.params.txDepth := by
    have hcount := h.send.counted
    have hfits := h.send.txFits
    simp only [unitsHeld] at hcount
    omega
  obtain ⟨hpushed, _⟩ := pushWritesOneByte s _ hp (List.getElem?_eq_getElem hlt) hta
  rw [hpushed hroom]
  refine h.send.pushed_nears ?_ ?_ hlt ?_
  · split <;> rfl
  · split <;> rfl
  · split
    · rw [hp]
      exact (by decide : 0 < sendRank .waitDone ∧ sendRank .waitDone ≤ sendRank .push)
    · exact ⟨h.send.running, Nat.le_refl _⟩

/-- While DONE = 0 in WAIT_DONE the engine has a step: with nothing in the shifter a unit is queued,
and the RX FIFO has room for it (R254, R255, R257). -/
theorem engineReady_of_waitDone (h : Sending s) (hp : s.ctl.phase = .waitDone)
    (hnot : ¬ Drained s) : engineReady s = true := by
  obtain ⟨hidx, hta⟩ := (phaseInv_iff hp).1 h.phase
  refine (engineReady_iff s).2 ⟨⟨h.send.fault, h.send.refused⟩, hta, ?_⟩
  cases hshift : s.shifter with
  | some u => exact .inl ⟨u, rfl⟩
  | none =>
    have hq : s.txq ≠ [] := fun hq => hnot ⟨hq, hshift⟩
    refine .inr ⟨rfl, hq, (rxStalled_eq_false_iff s).2 fun _ => ?_⟩
    calc s.rxq.length
        < unitsHeld s := by
          have hpos := List.length_pos_iff.2 hq
          simp only [unitsHeld]
          omega
      _ ≤ s.ctl.idx := h.send.counted
      _ = s.ctl.buf.length := hidx
      _ ≤ s.params.rxDepth := h.send.rxFits

theorem ctlStep_waitDone_sendMove (h : Sending s) (hp : s.ctl.phase = .waitDone) :
    SendMove s (ctlStep s) := by
  obtain ⟨_, hta⟩ := (phaseInv_iff hp).1 h.phase
  obtain ⟨v, n, _, _, hfound, hfails⟩ := waitDonePolls s h.reg hp
  by_cases hdrained : Drained s
  · rw [hfound ⟨hta, hdrained⟩]
    exact .nears { h.send with running := (by decide : 0 < sendRank .clrTaRd) }
      (sendWork_lt (q := .clrTaRd) hp rfl (by decide) rfl rfl rfl rfl)
  · have hlimit : ∀ k, s.params.spinLimit = some k → s.ctl.spins + 1 < k :=
      fun k hk => nomatch h.send.noLimit.symm.trans hk
    rw [hfails (fun ⟨_, hd⟩ => hdrained hd) hlimit]
    exact .waits { h.send with } rfl (engineReady_of_waitDone h hp hdrained)

theorem ctlStep_clrFifoWr_sendMove (h : Sending s) (hp : s.ctl.phase = .clrFifoWr) :
    SendMove s (ctlStep s) := by
  obtain ⟨hctl, _, _, _, _, _, _, _, _, hfault, hrefused, _⟩ :=
    completionLeavesACleanBlock s h.reg h.phase hp h.send.slot
  exact .ends ⟨congrArg Ctl.phase hctl, hfault.trans h.send.fault,
    hrefused.trans h.send.refused⟩

/-- No step of the controller stops a fitting send, and only a poll of WAIT_DONE waits (R200,
R218). -/
theorem ctlStep_sendMove (h : Sending s) : SendMove s (ctlStep s) := by
  have hrun := h.send.running
  cases hp : s.ctl.phase with
  | idle | cfgRd | cfgWr => rw [hp] at hrun; cases hrun
  | setTaRd => exact ctlStep_fieldRead_sendMove h hp (q := .setTaWr) (by decide)
  | clrTaRd => exact ctlStep_fieldRead_sendMove h hp (q := .clrTaWr) (by decide)
  | clrFifoRd => exact ctlStep_fieldRead_sendMove h hp (q := .clrFifoWr) (by decide)
  | setTaWr => exact ctlStep_setTaWr_sendMove h hp
  | waitTxd => exact ctlStep_waitTxd_sendMove h hp
  | push => exact ctlStep_push_sendMove h hp
  | waitDone => exact ctlStep_waitDone_sendMove h hp
  | clrTaWr => exact ctlStep_clrTaWr_sendMove h hp
  | clrFifoWr => exact ctlStep_clrFifoWr_sendMove h hp

end Controller

/-! ## The engine's steps in a fitting send -/

/-- A finished unit adds at most itself to the RX FIFO (R255). -/
theorem finishUnit_rxq_length_le (u : FifoUnit) (s : State) :
    (finishUnit u s).rxq.length ≤ s.rxq.length + 1 := by
  simp only [finishUnit]
  split
  · rw [List.length_append, List.length_singleton]
  · exact Nat.le_succ _

/-- The engine's steps keep a fitting send and leave less to do: each moves a unit on, and with a
chip select that exists none faults (R254, R255, R261). -/
theorem engineStep_sendInv {s : State} (h : SendInv s) (hready : engineReady s = true) :
    SendInv (engineStep s) ∧ sendWork (engineStep s) < sendWork s := by
  have hcount := h.counted
  obtain ⟨hlive, hta, ⟨u, hu⟩ | ⟨hshift, hq, hroom⟩⟩ := (engineReady_iff s).1 hready
  · have hrx := finishUnit_rxq_length_le u s
    rw [engineStep_of_unit hlive hta hu]
    refine ⟨{ h with counted := ?_ }, ?_⟩
    · simp only [unitsHeld, hu, finishUnit_txq, finishUnit_shifter, finishUnit_ctl,
        Option.toList_some, Option.toList_none, List.length_singleton, List.length_nil] at hcount ⊢
      omega
    · simp [sendWork, hu]
  · obtain ⟨u, left, hq⟩ := List.exists_cons_of_ne_nil hq
    rw [engineStep_of_queued hlive hta hshift hq hroom, if_neg h.line]
    refine ⟨{ h with counted := ?_ }, ?_⟩
    · simp only [unitsHeld, hshift, hq, Option.toList_some, Option.toList_none, List.length_cons,
        List.length_nil] at hcount ⊢
      omega
    · simp only [sendWork, hshift, hq, Option.toList_some, Option.toList_none, List.length_cons,
        List.length_nil]
      omega

/-! ## The steps of a run -/

/-- A program with nothing left has no operation (log entry 13). -/
theorem takeOp_of_programDone {ops : List HostOp} (h : programDone ops = true) :
    takeOp ops = none := by
  induction ops with
  | nil => rfl
  | cons op rest ih =>
    obtain ⟨hop, hrest⟩ : op = .stream [] ∧ programDone rest = true := by
      simpa [programDone] using h
    rw [hop, takeOp]
    exact ih hrest

theorem hostReady_of_hostDone {s : State} (h : HostDone s) (k : Nat) : hostReady s k = false := by
  unfold hostReady
  cases hk : s.threads[k]? with
  | none => exact Bool.and_false _
  | some th =>
    have hdone : programDone th.todo = true := List.all_eq_true.1 h th (List.mem_of_getElem? hk)
    simp only [takeOp_of_programDone hdone, Bool.and_false]

theorem freeTurn_isSome {on : List Turn} (h : on ≠ []) (s : State) :
    (freeTurn on s).isSome = true := by
  match on with
  | [_] => rfl
  | _ :: _ :: _ => rfl

/-- Where some agent has a step, one is chosen (R81). -/
theorem chooseTurn_isSome {s : State} (h : enabledTurns s ≠ []) :
    (chooseTurn s).isSome = true := by
  unfold chooseTurn
  split
  · exact freeTurn_isSome h s
  · split
    · rfl
    · exact freeTurn_isSome h _

theorem Sending.of_moved {s u : State} (h : Sending s) (hmoved : SchedMoved s u) : Sending u := by
  rw [hmoved]
  exact ⟨regInv_of_block (by constructor <;> rfl) h.reg,
    phaseInv_of_sameTransfer (by constructor <;> rfl) h.phase, { h.send with }⟩

/-- From `s` to `t` a fitting send goes on, with no more to do than before; where it has as much to
do, the engine had a step and did not take it. -/
structure SendGoesOn (s t : State) : Prop where
  sending : Sending t
  work : sendWork t ≤ sendWork s
  waited : sendWork t = sendWork s → engineReady s = true ∧ ¬ engineTakes s

/-- In a fitting send the controller or the engine steps, and the send goes on or ends. -/
theorem step_of_sending {s : State} (h : Sending s) :
    ∃ t, step s = .next t ∧ (SendEnded t ∨ SendGoesOn s t) := by
  have ⟨hreg, hphase, hsend⟩ := h
  have kept : ∀ {t}, step s = .next t → SendInv t → Sending t := fun hs ht =>
    ⟨regInvKept s _ hreg hs, phaseInvKept s _ hreg hphase hs, ht⟩
  have hbusy : ctlReady s = true := by
    have hrun := hsend.running
    have hne : s.ctl.phase ≠ .idle := fun hp => by rw [hp] at hrun; cases hrun
    simp [ctlReady, live, hsend.fault, hsend.refused, hne]
  obtain ⟨⟨τ, u⟩, hu⟩ := Option.isSome_iff_exists.1
    (chooseTurn_isSome (List.ne_nil_of_mem (mem_enabledTurns_ctl.2 hbusy)))
  obtain ⟨hτ, hmoved⟩ := chooseTurn_some hu
  have hwork : sendWork u = sendWork s := by rw [hmoved]; rfl
  have hready : engineReady u = engineReady s := by rw [hmoved]; rfl
  cases τ with
  | host k =>
    rw [mem_enabledTurns_host, hostReady_of_hostDone hsend.hostDone] at hτ
    cases hτ
  | ctl =>
    have hs : step s = .next (ctlStep u) := by simp only [step, hsend.fault, hsend.refused, hu]
    refine ⟨_, hs, ?_⟩
    rcases ctlStep_sendMove (h.of_moved hmoved) with hend | ⟨ht, hless⟩ | ⟨ht, hsame, hon⟩
    · exact .inl hend
    · exact .inr ⟨kept hs ht, by omega, fun hsame => by omega⟩
    · exact .inr ⟨kept hs ht, by omega, fun _ =>
        ⟨hready.symm.trans hon, fun ⟨v, hv⟩ => nomatch hu.symm.trans hv⟩⟩
  | engine =>
    have hs : step s = .next (engineStep u) := by
      simp only [step, hsend.fault, hsend.refused, hu]
    obtain ⟨ht, hless⟩ := engineStep_sendInv (h.of_moved hmoved).send
      (hready.trans (mem_enabledTurns_engine.1 hτ))
    exact ⟨_, hs, .inr ⟨kept hs ht, by omega, fun hsame => by omega⟩⟩

theorem run_next {r : Nat → State} (hrun : Run r) {n : Nat} {t : State}
    (h : step (r n) = .next t) : r (n + 1) = t := by
  rcases hrun n with hnext | ⟨hstop, _⟩
  · rw [h] at hnext
    cases hnext
    rfl
  · exact absurd h (hstop t)

/-- In a run with a fair engine a fitting send ends: else the work left, which never rises, would in
the end stay the same, with the engine ready and never stepping (R258, R302). -/
theorem sending_ends {r : Nat → State} (hrun : Run r) (hfair : FairEngine r)
    (h0 : Sending (r 0)) : ∃ n, SendEnded (r n) := by
  by_contra hnever
  have hnext : ∀ n, Sending (r n) → SendGoesOn (r n) (r (n + 1)) := fun n h => by
    obtain ⟨t, hs, hend | hgoes⟩ := step_of_sending h <;> obtain rfl := run_next hrun hs
    · exact absurd ⟨n + 1, hend⟩ hnever
    · exact hgoes
  have hall : ∀ n, Sending (r n) := fun n => by
    induction n with
    | zero => exact h0
    | succ n ih => exact (hnext n ih).sending
  have hanti : Antitone fun n => sendWork (r n) :=
    antitone_nat_of_succ_le fun n => (hnext n (hall n)).work
  obtain ⟨n, hconst⟩ := WellFoundedLT.antitone_chain_condition hanti
  obtain ⟨m, hm, hturn⟩ := hfair n
  have hsame : sendWork (r (m + 1)) = sendWork (r m) :=
    (hconst (m + 1) (Nat.le_succ_of_le hm)).symm.trans (hconst m hm)
  obtain ⟨hready, hnot⟩ := (hnext m (hall m)).waited hsame
  rcases hturn with hoff | htakes
  · exact nomatch hready.symm.trans hoff
  · exact hnot htakes

/-- Settles O60: the premises are those of a fitting send in its first phase. -/
theorem fittingSendCompletes : Obligations.FittingSendCompletes := by
  intro r hrun hfair ⟨hfault, hrefused⟩ hp hidx hfits hslot hreg _ htx hrx hshift hscope hline
    hlimit hdone
  obtain ⟨htxFits, hrxFits⟩ := Nat.le_min.1 hfits
  have hempty : unitsHeld (r 0) ≤ (r 0).ctl.idx := by
    rw [unitsHeld, htx, hrx, hshift]
    exact Nat.zero_le _
  exact sending_ends hrun hfair
    ⟨hreg, phaseInv_of_phase (p := .setTaRd) hp hidx,
      hfault, hrefused, hdone, hlimit, hslot, htxFits, hrxFits, hscope, hline, hempty,
      by rw [hp]; decide⟩

end Sys2Proof.Proofs

/-! # Scope: final and stuck states

Where the machine waits and where it is stuck (spec/60_exceptions.md R318), a recorded fault or
refusal among the stuck states (R300, R301). -/

namespace Sys2Proof.Proofs

open Sys2Proof Sys2Proof.Machine Sys2Proof.Safety Sys2Proof.Claims

/-! ## Who has a step -/

theorem isFinal_iff (s : State) : isFinal s = true ↔
    Live s ∧ HostDone s ∧ s.ctl.phase = .idle ∧ s.txq = [] ∧ s.shifter = none := by
  simp only [isFinal, Bool.and_eq_true, live_iff_live, decide_eq_true_eq, List.isEmpty_iff,
    Option.isNone_iff_eq_none]

/-- Only in a live state does an agent have a step (R300, R301). -/
theorem live_of_mem_enabledTurns {s : State} {τ : Turn} (h : τ ∈ enabledTurns s) : Live s := by
  cases τ with
  | host k => exact (live_iff_live s).1 (Bool.and_eq_true_iff.1 (mem_enabledTurns_host.1 h)).1
  | ctl => exact (live_iff_live s).1 (Bool.and_eq_true_iff.1 (mem_enabledTurns_ctl.1 h)).1
  | engine => exact ((engineReady_iff s).1 (mem_enabledTurns_engine.1 h)).1

/-- In a final state the programs are done, the controller is IDLE and the engine has no unit. -/
theorem enabledTurns_of_isFinal {s : State} (h : isFinal s = true) : enabledTurns s = [] := by
  obtain ⟨_, hdone, hidle, hq, hshift⟩ := (isFinal_iff s).1 h
  refine List.eq_nil_iff_forall_not_mem.2 fun τ hτ => ?_
  cases τ with
  | host k =>
    rw [mem_enabledTurns_host, hostReady_of_hostDone hdone] at hτ
    cases hτ
  | ctl =>
    rw [mem_enabledTurns_ctl, ctlReady, hidle] at hτ
    simp at hτ
  | engine =>
    rw [mem_enabledTurns_engine, (engineHoldsWithoutTaOrRoom s).2.1 hq hshift] at hτ
    cases hτ

theorem chooseTurn_of_enabledTurns_nil {s : State} (h : enabledTurns s = []) :
    chooseTurn s = none :=
  Option.eq_none_iff_forall_ne_some.2 fun ⟨_, _⟩ hu => by
    have hmem := (chooseTurn_some hu).1
    rw [h] at hmem
    cases hmem

/-! ## The step where none is enabled, and where one is -/

theorem step_of_isFinal {s : State} (h : isFinal s = true) : step s = .next s := by
  obtain ⟨⟨hfault, hrefused⟩, _⟩ := (isFinal_iff s).1 h
  simp only [step, hfault, hrefused, chooseTurn_of_enabledTurns_nil (enabledTurns_of_isFinal h), h,
    if_true]

theorem step_of_stuck {s : State} (h : Stuck s) (hlive : Live s) : step s = .fault .stuck := by
  simp only [step, hlive.fault, hlive.refused, chooseTurn_of_enabledTurns_nil h.noStep, h.notFinal,
    Bool.false_eq_true, if_false]

theorem exec_of_live {s : State} (h : Live s) (i : Instr) : ∃ t, exec i s = .next t := by
  obtain ⟨t, e⟩ := exec_eq_whenLive i s
  exact ⟨t, e.trans (whenLive_of_live h.fault h.refused)⟩

/-- A host thread that has a step has an operation to fetch (R201). -/
theorem fetch_of_hostReady {s : State} {k : Nat} (h : hostReady s k = true) :
    ∃ op u, fetch k s = some (op, u) := by
  have hop := (Bool.and_eq_true_iff.1 h).2
  split at hop
  · cases hop
  · next hk =>
    split at hop
    · cases hop
    · next htake => exact ⟨_, _, fetch_of_takeOp hk htake⟩

/-- A chosen agent's step answers a next state: it records a fault or a refusal, and does not
answer it (log entry 8). -/
theorem step_of_chooseTurn {s u : State} {τ : Turn} (h : chooseTurn s = some (τ, u)) :
    ∃ t, step s = .next t := by
  obtain ⟨hτ, hmoved⟩ := chooseTurn_some h
  have hlive := live_of_mem_enabledTurns hτ
  cases τ with
  | ctl => exact ⟨ctlStep u, by simp only [step, hlive.fault, hlive.refused, h]⟩
  | engine => exact ⟨engineStep u, by simp only [step, hlive.fault, hlive.refused, h]⟩
  | host k =>
    have hready : hostReady u k = true := by
      rw [hmoved]
      exact mem_enabledTurns_host.1 hτ
    obtain ⟨op, w, hw⟩ := fetch_of_hostReady hready
    have hlivew : Live w := by
      rw [fetch_some hw, hmoved]
      exact ⟨hlive.fault, hlive.refused⟩
    cases op with
    | instr i =>
      rw [step_of_fetch_instr hlive h hw]
      exact exec_of_live hlivew i
    | act a => exact ⟨_, step_of_fetch_act hlive h hw⟩

theorem step_of_enabledTurns_ne_nil {s : State} (h : enabledTurns s ≠ []) :
    ∃ t, step s = .next t := by
  obtain ⟨⟨_, _⟩, hu⟩ := Option.isSome_iff_exists.1 (chooseTurn_isSome h)
  exact step_of_chooseTurn hu

/-! ## Stuck states -/

/-- After a fault or a refusal the machine is stuck (R300, R301). -/
theorem stuck_of_not_live {s : State} (h : ¬ Live s) : Stuck s where
  notFinal := Bool.eq_false_iff.2 fun hfinal => h ((isFinal_iff s).1 hfinal).1
  noStep := List.eq_nil_iff_forall_not_mem.2 fun _ hτ => h (live_of_mem_enabledTurns hτ)

theorem stuck_iff_step_ne_next (s : State) : Stuck s ↔ ∀ t, step s ≠ .next t := by
  constructor
  · intro h t ht
    obtain ⟨hfault, hrefused, _⟩ := step_cases ht
    rw [step_of_stuck h ⟨hfault, hrefused⟩] at ht
    cases ht
  · intro h
    refine ⟨Bool.eq_false_iff.2 fun hfinal => h s (step_of_isFinal hfinal), ?_⟩
    by_contra hsome
    obtain ⟨t, ht⟩ := step_of_enabledTurns_ne_nil hsome
    exact h t ht

/-- Settles O11: with no agent enabled `step` waits or is stuck, and an enabled agent's step answers
a next state. -/
theorem finalStateWaits : Obligations.FinalStateWaits := fun s =>
  ⟨fun h => ⟨enabledTurns_of_isFinal h, step_of_isFinal h⟩, stuck_iff_step_ne_next s, step_of_stuck,
    fun h => stuck_of_not_live fun ⟨hfault, hrefused⟩ => h.elim (absurd hfault) (absurd hrefused)⟩

end Sys2Proof.Proofs

/-! # Scope: the placed word

The model's placing of a word in front of host thread 0 (spec/30_encoding.md section 1, log entry
14): the thread is ready, its turn is taken, and its step uses the placed bytes up. -/

namespace Sys2Proof.Proofs

open Sys2Proof Sys2Proof.Machine Sys2Proof.Safety Sys2Proof.Claims

/-- While no command is in progress, a thread with an operation left has a step (R201). -/
theorem hostReady_of_takeOp {s : State} {k : Nat} {th : HostThread} {op : HostNext}
    {rest : List HostOp} (hacc : HostMayAccess s) (hk : s.threads[k]? = some th)
    (hop : takeOp th.todo = some (op, rest)) : hostReady s k = true := by
  have hlive : live s = true := (live_iff_live s).2 ⟨hacc.fault, hacc.refused⟩
  simp only [hostReady, hlive, hk, hop, hacc.idle, decide_true, Bool.true_or, Bool.and_self]

/-- A scheduled thread at a stream of one instruction uses the turn and the stream up and runs the
instruction. -/
theorem step_of_scheduled_stream {s : State} {k : Nat} {th : HostThread} {bytes : List Byte}
    {i : Instr} (hacc : HostMayAccess s)
    (hk : s.threads[k]? = some { th with todo := .stream bytes :: th.todo })
    (hdec : decode bytes = (.instr i, [])) :
    step { s with sched := .host k :: s.sched } = exec i { s with
      threads := s.threads.set k th
      owner := if isCommand i then k else s.owner } := by
  cases bytes with
  | nil => cases hdec
  | cons b bs =>
    have hop : takeOp (.stream (b :: bs) :: th.todo) = some (.instr i, th.todo) := by
      simp only [takeOp, hdec, keepStream]
    have hready : hostReady s k = true := hostReady_of_takeOp hacc hk hop
    have hturn : chooseTurn { s with sched := .host k :: s.sched } = some (.host k, s) :=
      everyEnabledAgentMayStep.1 s _ s.sched (mem_enabledTurns_host.2 hready)
    have hlive : Live { s with sched := .host k :: s.sched } := ⟨hacc.fault, hacc.refused⟩
    exact stepRunsDecodedInstruction _ s k { th with todo := .stream (b :: bs) :: th.todo } b bs []
      th.todo i hlive hturn hk rfl hdec

/-- Settles O8: the placed bytes stand before what thread 0 has left, an empty program where there
was no thread, and its step uses up just them. -/
theorem placedWordRunsNext : Obligations.PlacedWordRunsNext := by
  intro s nbits w i hacc hdec
  have hstep : ∀ (th : HostThread) (more : List HostThread),
      step { s with
        threads := { th with todo := .stream (tableBytes nbits w) :: th.todo } :: more
        sched := .host 0 :: s.sched } = exec i { s with
          threads := th :: more
          owner := if isCommand i then 0 else s.owner } := fun th more =>
    step_of_scheduled_stream (s := { s with threads := _ :: more }) (k := 0) (th := th)
      ⟨hacc.fault, hacc.refused, hacc.idle⟩ rfl hdec
  rw [State.withFetchWord, placeBytes]
  cases s.threads with
  | nil => exact hstep ⟨[], 0#32⟩ []
  | cons th more => exact hstep th more

end Sys2Proof.Proofs
